-- ==== Sys2Proof/Word.lean ====
section
/-! DEFINITION. The words of the block: bytes on the serial bus, 32-bit results, 64-bit command words. -/

namespace Sys2Proof

/-- One byte on the serial bus. -/
abbrev Byte := BitVec 8

/-- A 32-bit result word (30_encoding.md R111) and the widest register a transfer moves (20_memory.md R92). -/
abbrev Word32 := BitVec 32

/-- A command word `CW` (30_encoding.md R110). -/
abbrev CmdWord := BitVec 64

end Sys2Proof
end

