-- ==== Sys2Proof/Config.lean ====
section
/-! DEFINITION. What is fixed for the block: the counts and constants the source gives (00_scope.md R8 to R10), the named
parameters with their reference values (R11), the vocabulary of the serial bus, and the free values of the device oracle
(20_memory.md R84). -/

namespace Sys2Proof

/-! ### Names the tables are indexed by -/

/-- The DAC roles, 10_state.md R47. -/
inductive Role where
  | fv | fi | clli | clhi | cllv | clhv
deriving DecidableEq, Repr, Inhabited

/-- The numeric code of a role, 10_state.md R47. -/
def Role.idx : Role → Fin 6
  | .fv => 0
  | .fi => 1
  | .clli => 2
  | .clhi => 3
  | .cllv => 4
  | .clhv => 5

/-- A logical current range by its index, ordered by increasing full-scale current: 10_state.md R46. -/
abbrev Range := Fin 6

namespace Range
/-- RANGE_5UA -/
abbrev r5uA : Range := 0
/-- RANGE_20UA -/
abbrev r20uA : Range := 1
/-- RANGE_200UA -/
abbrev r200uA : Range := 2
/-- RANGE_2MA -/
abbrev r2mA : Range := 3
/-- RANGE_EXT_20MA -/
abbrev rExt20mA : Range := 4
/-- RANGE_EXT_200MA -/
abbrev rExt200mA : Range := 5
end Range

/-- The three devices on the serial bus, 00_scope.md R16, 60_exceptions.md R413. -/
inductive Dev where
  | pmu | adc | amp
deriving DecidableEq, Repr, Inhabited

/-! ### Counts and constants the source fixes -/

namespace Config

/-- `N_PMU_CH`, R8. -/
def nPmuCh : Nat := 4
/-- `N_ADC_CH`, R8. -/
def nAdcCh : Nat := 4
/-- `N_SMU_CH`, R8. -/
def nSmuCh : Nat := 1
/-- `SEP_I` in volts, R10. -/
def sepI : Rat := 1 / 4
/-- `SEP_V` in volts, R10. -/
def sepV : Rat := 1 / 2
/-- `OR_CLAMP`, R10. -/
def orClamp : Rat := 1 / 8
/-- `OR_FORCE`, R10. -/
def orForce : Rat := 1 / 20
/-- `AMP_ID_EXPECTED`, R10. -/
def ampIdExpected : Byte := 0x30

end Config

/-! ### Parameters, 00_scope.md R11 -/

/-- A field of a device register: its lowest bit and its width. -/
structure BitField where
  lo : Nat
  width : Nat
deriving DecidableEq, Repr, Inhabited

/-- `SYS_LAYOUT`: where the fields of the system-control register stand, 10_state.md R35, R36. -/
structure SysLayout where
  cmpEn : BitField
  guardAlmEn : BitField
  clampAlmEn : BitField
  intSenseEn : BitField
  guardEn : BitField
  measGain : BitField
  tsdEn : BitField
  tsdThr : BitField
  latchEn : BitField
deriving DecidableEq, Repr, Inhabited

/-- `CH_LAYOUT`: where the fields of a channel-control register stand, 10_state.md R37, R38. -/
structure ChLayout where
  en : BitField
  hiz : BitField
  fmode : BitField
  range : BitField
  measSel : BitField
  dacEn : BitField
  sysForceEn : BitField
  sysSenseEn : BitField
  clampEn : BitField
  cmpEn : BitField
  cmpOutSel : BitField
deriving DecidableEq, Repr, Inhabited

/-- Where the fields of an ADC channel input-pair register stand, 30_encoding.md R127: a parameter by
93_implementation_defined.md sections 2 and 3 (decision D27). -/
structure AdcChLayout where
  en : BitField
  pos : BitField
  neg : BitField
deriving DecidableEq, Repr, Inhabited

/-- The named parameters of 00_scope.md R11: every value the source leaves open. R11 asks a model to take each as an
argument of its configuration; State carries one value of this type, which no step writes (DESIGN CHOICE, log 6). -/
structure Params where
  busyPollLimit : Nat
  modeReg : BitVec 2
  modeDac : BitVec 2
  sysLayout : SysLayout
  chLayout : ChLayout
  sysEchoMask : BitVec 22
  chEchoMask : BitVec 22
  sysctrlDefault : BitVec 22
  chctrlDefault : BitVec 22
  rangeHwCode : Vector (BitVec 3) 6
  iFs : Vector Rat 6
  rSense : Vector Rat 6
  /-- Which logical ranges are extended: 10_state.md R46, a parameter by 93_implementation_defined.md section 2 (DEDUCED, log 14). -/
  extended : Vector Bool 6
  miGain : Rat
  miOffset : Rat
  vWinLo : Rat
  vWinHi : Rat
  adcVref : Rat
  /-- `CAL_SCALE(role, r)`, row by role, 43_convert.md R306. -/
  calScale : Vector (Vector Rat 6) 6
  /-- `CAL_OFFSET(role, r)`, row by role, 43_convert.md R306. -/
  calOffset : Vector (Vector Rat 6) 6
  dacAddr : Vector (BitVec 6) 6
  adcRegData : BitVec 6
  adcRegCh : Vector (BitVec 6) 4
  /-- The layout of `ADC_REG_CH(n)`, 30_encoding.md R127. -/
  adcChLayout : AdcChLayout
  adcChMv : Fin 4
  adcChMi : Fin 4
  ampRegGain : BitVec 7
  ampRegInmux : BitVec 7
  ampRegTestmux : BitVec 7
  ampRegFaultcfg : BitVec 7
  ampRegId : BitVec 7
  ampFaultcfgValue : Byte
  ampEchoMask : Byte
  /-- `IG(k)`, 42_amp.md R250. -/
  ig : Vector Rat 12
  /-- `OG(j)`, 42_amp.md R251. -/
  og : Vector Rat 3
  resetRange : Range
  clISafe : Rat
  clVSafe : Rat
  mvGainCorr0 : Rat
  miMult0 : Rat
  pmuReadFill : Byte
deriving DecidableEq, Repr, Inhabited

/-- The reference layout of the system-control register, 10_state.md R36. -/
def SysLayout.reference : SysLayout where
  cmpEn := ⟨0, 1⟩
  guardAlmEn := ⟨1, 1⟩
  clampAlmEn := ⟨2, 1⟩
  intSenseEn := ⟨3, 1⟩
  guardEn := ⟨4, 1⟩
  measGain := ⟨5, 1⟩
  tsdEn := ⟨6, 1⟩
  tsdThr := ⟨7, 2⟩
  latchEn := ⟨9, 1⟩

/-- The reference layout of a channel-control register, 10_state.md R38. -/
def ChLayout.reference : ChLayout where
  en := ⟨0, 1⟩
  hiz := ⟨1, 1⟩
  fmode := ⟨2, 1⟩
  range := ⟨3, 3⟩
  measSel := ⟨6, 2⟩
  dacEn := ⟨8, 1⟩
  sysForceEn := ⟨9, 1⟩
  sysSenseEn := ⟨10, 1⟩
  clampEn := ⟨11, 1⟩
  cmpEn := ⟨12, 1⟩
  cmpOutSel := ⟨13, 1⟩

/-- The reference layout of an ADC channel input-pair register, 30_encoding.md R127 (PRESUMED, log 22). -/
def AdcChLayout.reference : AdcChLayout where
  en := ⟨15, 1⟩
  pos := ⟨5, 5⟩
  neg := ⟨0, 5⟩

namespace Config

/-- The reference `I_FS(r)` in amperes, R11 and 10_state.md R46. -/
def refIFs : Vector Rat 6 := #v[5 / 1000000, 20 / 1000000, 200 / 1000000, 2 / 1000, 20 / 1000, 200 / 1000]

/-- A row of six table entries, one per logical range. -/
def perRange (f : Rat → Rat) : Vector Rat 6 :=
  #v[f refIFs[0], f refIFs[1], f refIFs[2], f refIFs[3], f refIFs[4], f refIFs[5]]

end Config

/-- The reference values of 00_scope.md R11; the calibration table is the reference table of 43_convert.md R306. -/
def Params.reference : Params where
  busyPollLimit := 5
  modeReg := 0b00
  modeDac := 0b01
  sysLayout := .reference
  chLayout := .reference
  sysEchoMask := 0x0003FF
  chEchoMask := 0x003FFF
  sysctrlDefault := 0x000040
  chctrlDefault := 0x00091A
  rangeHwCode := #v[0, 1, 2, 3, 4, 4]
  iFs := Config.refIFs
  rSense := #v[40000, 10000, 1000, 100, 10, 1]
  extended := #v[false, false, false, false, true, true]
  miGain := 10
  miOffset := 0
  vWinLo := -10
  vWinHi := 10
  adcVref := 5 / 2
  calScale := #v[
    Config.perRange fun _ => 65535 / 21,
    Config.perRange fun i => 65535 / (21 / 10 * i),
    Config.perRange fun i => 65535 / (9 / 4 * i),
    Config.perRange fun i => 65535 / (9 / 4 * i),
    Config.perRange fun _ => 65535 / (45 / 2),
    Config.perRange fun _ => 65535 / (45 / 2)]
  calOffset := #v[
    Config.perRange fun _ => 65535 / 2, Config.perRange fun _ => 65535 / 2, Config.perRange fun _ => 65535 / 2,
    Config.perRange fun _ => 65535 / 2, Config.perRange fun _ => 65535 / 2, Config.perRange fun _ => 65535 / 2]
  dacAddr := #v[0x08, 0x09, 0x0A, 0x0B, 0x0C, 0x0D]
  adcRegData := 0x04
  adcRegCh := #v[0x10, 0x11, 0x12, 0x13]
  adcChLayout := .reference
  adcChMv := 0
  adcChMi := 1
  ampRegGain := 0x00
  ampRegInmux := 0x01
  ampRegTestmux := 0x02
  ampRegFaultcfg := 0x03
  ampRegId := 0x0F
  ampFaultcfgValue := 0x01
  ampEchoMask := 0xFF
  ig := #v[1 / 16, 1 / 8, 1 / 4, 1 / 2, 1, 2, 4, 8, 16, 32, 64, 128]
  og := #v[1, 5 / 4, 11 / 8]
  resetRange := Range.r2mA
  clISafe := 2 / 1000
  clVSafe := 10
  mvGainCorr0 := 1
  miMult0 := 1
  pmuReadFill := 0x00

/-! ### The serial bus's vocabulary -/

/-- What a transfer brings back: the bytes shifted in, or a failed transfer (00_scope.md R16, 20_memory.md R84). -/
inductive XferResult where
  | ok (bytes : List Byte)
  | busError
deriving DecidableEq, Repr, Inhabited

/-- One thing that happened on the block's wires, in the order it happened. The list of them is the history the oracle of
20_memory.md R84 may depend on, and the record of the wire frames that 30_encoding.md section 4 makes normative. -/
inductive BusEvent where
  /-- One chip-select-bracketed `SpiXfer(dev, out, nIn)`, 00_scope.md R16. -/
  | xfer (dev : Dev) (out : List Byte) (nIn : Nat) (result : XferResult)
  /-- One `PmuXfer2(out, nIn)`: the chip-select is toggled between the bytes out and the bytes in, and `fill` is shifted
  out while reading. -/
  | pmuRead (out : List Byte) (fill : Byte) (nIn : Nat) (result : XferResult)
  /-- One sample of the PMU's busy line, 40_pmu.md R143. -/
  | busySample (ready : Bool)
  /-- The PMU reset line driven to a level (true: released), 40_pmu.md R150. -/
  | pmuResetLine (level : Bool)
deriving DecidableEq, Repr, Inhabited

/-! ### Free values: the device oracle past what State's script gives -/

namespace Config

/-- FREE VALUE (20_memory.md R84): whether the transfer that follows `history` fails. No body: nothing is known of it. -/
opaque xferFails (history : List BusEvent) (dev : Dev) (out : List Byte) (nIn : Nat) : Bool

/-- FREE VALUE (20_memory.md R84): the bits the device shifts out in the transfer that follows `history`; the transfer's
`nIn` bytes are its low `8 * nIn` bits. -/
opaque xferBits (history : List BusEvent) (dev : Dev) (out : List Byte) (nIn : Nat) : Word32

/-- FREE VALUE (20_memory.md R84, 40_pmu.md R143): the busy line at the sample that follows `history` (true: READY). -/
opaque busyLine (history : List BusEvent) : Bool

end Config

end Sys2Proof
end

