-- ==== Sys2Proof/Syntax.lean ====
section
/-! DEFINITION. The 27 commands of the command port, one constructor per row of spec/opcode_table.json. -/

namespace Sys2Proof

/-- A command with the fields it uses, RAW as 30_encoding.md R110 and R112 cut them from the command word (CH and SEL 4
bits, A and B 8 bits, D 32 bits). They stay raw because an illegal operand is no decoding failure: the opcode alone
selects the command (R114), and the command answers InvalidArgument (R112, R116). Fields a command does not use are
ignored (R112) and stand in no constructor. -/
inductive Instr where
  /-- PMU_INIT, 40_pmu.md R150. -/
  | pmuInit
  /-- PMU_TRANSACT, 40_pmu.md R145: CH, SEL, A, D. -/
  | pmuTransact (chmask dir : BitVec 4) (mode : BitVec 8) (data : BitVec 32)
  /-- PMU_WRITE_SYSCTRL, 40_pmu.md R146: D. -/
  | pmuWriteSysctrl (value : BitVec 32)
  /-- PMU_WRITE_CHCTRL, 40_pmu.md R147: CH, D. -/
  | pmuWriteChctrl (channel : BitVec 4) (value : BitVec 32)
  /-- PMU_SET_CHSTATE, 40_pmu.md R148: CH, SEL. -/
  | pmuSetChstate (channel state : BitVec 4)
  /-- PMU_SET_MODE, 40_pmu.md R155: CH, SEL. -/
  | pmuSetMode (channel mode : BitVec 4)
  /-- PMU_SET_RANGE, 40_pmu.md R149: CH, SEL. -/
  | pmuSetRange (channel code : BitVec 4)
  /-- PMU_SET_DAC, 40_pmu.md R151: CH, A, D. -/
  | pmuSetDac (channel : BitVec 4) (subaddr : BitVec 8) (code : BitVec 32)
  /-- ADC_START, 41_adc.md R200. -/
  | adcStart
  /-- ADC_STOP, 41_adc.md R201. -/
  | adcStop
  /-- ADC_CONFIG_CH, 41_adc.md R202: CH, SEL, A, B. -/
  | adcConfigCh (channel enable : BitVec 4) (pos neg : BitVec 8)
  /-- ADC_WRITE_REG, 41_adc.md R207: SEL, A, D. -/
  | adcWriteReg (nbytes : BitVec 4) (addr : BitVec 8) (value : BitVec 32)
  /-- ADC_READ_REG, 41_adc.md R208: SEL, A. -/
  | adcReadReg (nbytes : BitVec 4) (addr : BitVec 8)
  /-- AMP_INIT, 42_amp.md R253. -/
  | ampInit
  /-- AMP_SET_GAIN, 42_amp.md R254: A, B. -/
  | ampSetGain (ig og : BitVec 8)
  /-- AMP_SET_SWITCH, 42_amp.md R255: A, B. -/
  | ampSetSwitch (p n : BitVec 8)
  /-- AMP_SET_TESTMUX, 42_amp.md R256: A, B. -/
  | ampSetTestmux (p n : BitVec 8)
  /-- AMP_WRITE_REG, 42_amp.md R257: A, D. -/
  | ampWriteReg (addr : BitVec 8) (value : BitVec 32)
  /-- AMP_READ_REG, 42_amp.md R258: A. -/
  | ampReadReg (addr : BitVec 8)
  /-- SMU_SET_VALUE, 44_sequencer.md R352: CH, SEL, D. -/
  | smuSetValue (channel role : BitVec 4) (value : BitVec 32)
  /-- SMU_SET_RANGE, 44_sequencer.md R353: CH, SEL. -/
  | smuSetRange (channel range : BitVec 4)
  /-- SMU_SET_MODE, 44_sequencer.md R354: CH, SEL. -/
  | smuSetMode (channel mode : BitVec 4)
  /-- SMU_SET_STATE, 44_sequencer.md R355: CH, SEL. -/
  | smuSetState (channel state : BitVec 4)
  /-- SMU_VALUE_TO_CODE, 43_convert.md R310: CH, SEL, A, D. -/
  | smuValueToCode (channel role : BitVec 4) (range : BitVec 8) (value : BitVec 32)
  /-- SMU_CODE_TO_VALUE, 43_convert.md R311: CH, SEL, A, D. -/
  | smuCodeToValue (channel kind : BitVec 4) (range : BitVec 8) (code : BitVec 32)
  /-- SMU_PUBLISH_TICK, 44_sequencer.md R372. -/
  | smuPublishTick
  /-- SMU_QUEUE_FULL_UPDATE, 44_sequencer.md R373. -/
  | smuQueueFullUpdate
deriving DecidableEq, Repr, Inhabited

end Sys2Proof
end

