-- ==== Sys2Proof/Machine/State.lean ====
section
/-! DEFINITION. The state of the block, as plain data: everything 10_state.md names, the three ports, and the inputs the
environment has lined up. `State.reset` is the reset table of 10_state.md R56. -/

namespace Sys2Proof.Machine

/-! ### Enumerations -/

/-- The PMU initialization phase, 10_state.md R34. -/
inductive PmuPhase where
  | reset | systemConfigured | perChannelConfigured
deriving DecidableEq, Repr, Inhabited

/-- The PMU-level channel state of `setChannelState`, 10_state.md R40. -/
inductive ChanState where
  | disabled | hiz | enabled
deriving DecidableEq, Repr, Inhabited

/-- The SMU force mode, and the PMU-level force mode it is written as: 10_state.md R40, R47. -/
inductive ForceMode where
  | fv | fi
deriving DecidableEq, Repr, Inhabited

/-- The SMU enable state, 10_state.md R47. -/
inductive EnableState where
  | disabled | standby | enabled
deriving DecidableEq, Repr, Inhabited

/-- The SMU sense topology, 10_state.md R47. -/
inductive Sense where
  | loc | remote
deriving DecidableEq, Repr, Inhabited

/-- One side's input-switch select, 42_amp.md R255. -/
inductive SwitchSel where
  | in1 | in2 | test | short
deriving DecidableEq, Repr, Inhabited

/-- The ADC pipeline phase, 10_state.md R42. -/
inductive AdcPhase where
  | idle | armed | sampleInFlight
deriving DecidableEq, Repr, Inhabited

/-- The holder of the bus lock, 10_state.md R52. -/
inductive Owner where
  | none | cmd | sample
deriving DecidableEq, Repr, Inhabited

/-- The direction of a device access; read is the R/W bit 1 (30_encoding.md R121, R124, R125). -/
inductive Dir where
  | write | read
deriving DecidableEq, Repr, Inhabited

/-! ### Results and records -/

/-- The failure codes of 60_exceptions.md R400. -/
inductive FailCode where
  | invalidArgument | busy | busError | verifyFailed | identityMismatch
deriving DecidableEq, Repr, Inhabited

/-- The return value of a command, 30_encoding.md R111. -/
inductive Value where
  | nothing
  | word (w : Word32)
  | code (c : BitVec 16)
  | rational (q : Rat)
deriving DecidableEq, Repr, Inhabited

/-- The one result of a command, 30_encoding.md R111: the value stands only with status Ok. -/
inductive Result where
  | ok (v : Value)
  | fail (c : FailCode)
deriving DecidableEq, Repr, Inhabited

/-- The published unit of a range, 44_sequencer.md R371. -/
inductive CurrentUnit where
  | ua | ma
deriving DecidableEq, Repr, Inhabited

/-- One (name, value) pair of a publish record, its name the constructor's: 44_sequencer.md R371. -/
inductive PubField where
  | fv (v : Rat)
  | fi (v : Rat)
  | mv (v : Rat)
  | mi (v : Rat)
  | clli (v : Rat)
  | clhi (v : Rat)
  | cllv (v : Rat)
  | clhv (v : Rat)
  | range (r : Range)
  | unit (u : CurrentUnit)
  | state (st : EnableState)
  | mode (m : ForceMode)
  | sense (x : Sense)
deriving DecidableEq, Repr, Inhabited

/-- A publish record, 44_sequencer.md R371; its fields stand in the order of the dirty bits. -/
structure PubRecord where
  channel : Nat
  fields : List PubField
deriving DecidableEq, Repr, Inhabited

/-! ### The parts of the state -/

/-- `S.cmd = (op, k)`, 10_state.md R31. -/
structure Sequencer where
  op : Option Instr
  k : Nat
deriving DecidableEq, Repr, Inhabited

/-- `S.sh` and `S.pmuPhase`, 10_state.md R32, R34. -/
structure PmuState where
  sys : BitVec 22
  ch : Vector (BitVec 22) 4
  phase : PmuPhase
deriving DecidableEq, Repr, Inhabited

/-- An acquisition snapshot, 10_state.md R45. -/
structure Snapshot where
  codes : Vector (BitVec 24) 4
  mask : BitVec 4
deriving DecidableEq, Repr, Inhabited

/-- `S.adc`, 10_state.md R41, R43 to R45. -/
structure AdcState where
  active : Bool
  armed : Bool
  discardNext : Bool
  wakePending : Bool
  dispatchPending : Bool
  activeMask : BitVec 4
  validMask : BitVec 4
  slot : Vector (BitVec 24) 4
  snap : Vector Snapshot 2
  wbuf : Fin 2
  rbuf : Fin 2
deriving DecidableEq, Repr, Inhabited

/-- `S.smu.ch[c]`, the ChannelControlState of 10_state.md R48. -/
structure SmuChannel where
  fv : Rat
  fi : Rat
  mv : Rat
  mi : Rat
  clli : Rat
  clhi : Rat
  cllv : Rat
  clhv : Rat
  range : Range
  state : EnableState
  mode : ForceMode
  sense : Sense
  dirty : BitVec 12
  mvGainCorr : Rat
  miMult : Rat
deriving DecidableEq, Repr, Inhabited

/-- `S.smu`: `N_SMU_CH = 1` channel (00_scope.md R8) and `forcePublish` (10_state.md R50). -/
structure SmuState where
  ch : SmuChannel
  forcePublish : Bool
deriving DecidableEq, Repr, Inhabited

/-- `S.amp`, the AmplifierConfig of 10_state.md R51. -/
structure AmpState where
  ig : Fin 12
  og : Fin 3
  gain : Rat
  swP : SwitchSel
  swN : SwitchSel
  tmP : BitVec 2
  tmN : BitVec 2
  idOk : Bool
  faultIrqEn : Bool
deriving DecidableEq, Repr, Inhabited

/-- `S.bus`, 10_state.md R52, R53 (a chip-select line is true when deasserted, idle high; `pmuReset` is true when
released). -/
structure BusState where
  owner : Owner
  csPMU : Bool
  csADC : Bool
  csAMP : Bool
  pmuReset : Bool
deriving DecidableEq, Repr, Inhabited

/-! ### The environment's inputs, held as data -/

/-- What the environment lines up for one transfer (20_memory.md R84): a failure, or the bits the device shifts out. The
transfer's `nIn` bytes are the low `8 * nIn` bits, so every list of the requested number of bytes is an answer and no
answer has another length (DEDUCED, log 20). -/
inductive Answer where
  | shift (bits : Word32)
  | fails
deriving DecidableEq, Repr, Inhabited

/-- What answers a transfer past the script's end: free devices (20_memory.md R84) or the reference device of R85. -/
inductive DeviceModel where
  | free | reference
deriving DecidableEq, Repr, Inhabited

/-- One entry of the schedule: who moves next (60_exceptions.md R405, R407). -/
inductive Move where
  /-- The command sequencer: the next command, or inside a command its next primitive or its final step. -/
  | sequencer
  /-- The command sequencer's forced publish step, 44_sequencer.md R374. -/
  | forcedPublish
  /-- The data-ready line falls: the edge interrupt, if it is armed (41_adc.md R203). -/
  | edge
  /-- The sample-assembly task, if it is woken (41_adc.md R204). -/
  | sample
  /-- The callback-dispatch task, if it is signalled (41_adc.md R206). -/
  | dispatch
  /-- The amplifier's fault pin asserts (60_exceptions.md R409). -/
  | faultPin
  /-- The environment resets the block (70_reset_and_hazards.md R450). -/
  | reset
deriving DecidableEq, Repr, Inhabited

/-- The environment's lined-up inputs (the model's own fields; logs 1 to 5). -/
structure Env where
  pmu : List Answer
  adc : List Answer
  amp : List Answer
  busy : List Bool
  device : DeviceModel
  sched : List Move
deriving DecidableEq, Repr, Inhabited

/-! ### The state -/

/-- The state of the block. The first seven fields after `par` are 10_state.md; `port`, `results`, `pubOut` and `trace` are
its ports and wires; `par` and `env` are the model's (INVENTORY.md, State). -/
structure State where
  /-- The parameters of 00_scope.md R11; no step writes them. -/
  par : Params
  /-- `S.cmd`. -/
  cmd : Sequencer
  /-- `S.sh` and `S.pmuPhase`. -/
  pmu : PmuState
  /-- `S.adc`. -/
  adc : AdcState
  /-- `S.smu`. -/
  smu : SmuState
  /-- `S.amp`. -/
  amp : AmpState
  /-- `S.bus`. -/
  bus : BusState
  /-- Command words waiting on the host port, the next one first. -/
  port : List CmdWord
  /-- Results returned so far, oldest first. -/
  results : List Result
  /-- `PubOut`, oldest record first (44_sequencer.md R371). -/
  pubOut : List PubRecord
  /-- What happened on the wires so far, oldest first. -/
  trace : List BusEvent
  /-- The environment's lined-up inputs. -/
  env : Env
deriving DecidableEq, Repr, Inhabited

/-- Why the machine stops with a fault: never. "No error is ever escalated to a process-terminating fault"
(60_exceptions.md R401): a failing command returns a result code, and no rule of the spec stops the block. -/
inductive Fault where
deriving DecidableEq, Repr

/-- Why the model refuses an instruction. -/
inductive Refusal where
  /-- Raised by exec's arm of an instruction that has no meaning yet; safe (the machine stops). No arm uses it. -/
  | notModelled (mnemonic : String)
deriving DecidableEq, Repr

/-! ### Field updates (their lemmas: Sys2Proof/Laws/State.lean) -/

namespace State

/-- `S.cmd <- x`. -/
def setCmd (s : State) (x : Sequencer) : State := { s with cmd := x }
/-- `S.sh, S.pmuPhase <- x`. -/
def setPmu (s : State) (x : PmuState) : State := { s with pmu := x }
/-- `S.adc <- x`. -/
def setAdc (s : State) (x : AdcState) : State := { s with adc := x }
/-- `S.smu <- x`. -/
def setSmu (s : State) (x : SmuState) : State := { s with smu := x }
/-- `S.amp <- x`. -/
def setAmp (s : State) (x : AmpState) : State := { s with amp := x }
/-- `S.bus <- x`. -/
def setBus (s : State) (x : BusState) : State := { s with bus := x }
/-- The command port's contents. -/
def setPort (s : State) (x : List CmdWord) : State := { s with port := x }
/-- The results returned. -/
def setResults (s : State) (x : List Result) : State := { s with results := x }
/-- The publish port's contents. -/
def setPubOut (s : State) (x : List PubRecord) : State := { s with pubOut := x }
/-- The wires' history. -/
def setTrace (s : State) (x : List BusEvent) : State := { s with trace := x }
/-- The environment's inputs. -/
def setEnv (s : State) (x : Env) : State := { s with env := x }

end State

/-! ### Reset values, 10_state.md R55, R56 -/

/-- `S.cmd = (None, 0)`: between commands. -/
def Sequencer.idle : Sequencer := ⟨none, 0⟩

/-- The PMU shadows and phase at reset, R32, R34. -/
def PmuState.resetFor (p : Params) : PmuState where
  sys := p.sysctrlDefault
  ch := #v[p.chctrlDefault, p.chctrlDefault, p.chctrlDefault, p.chctrlDefault]
  phase := .reset

/-- The all-zero snapshot of R45. -/
def Snapshot.zero : Snapshot := ⟨#v[0, 0, 0, 0], 0⟩

/-- The ADC pipeline at reset, R41, R43 to R45. -/
def AdcState.atReset : AdcState where
  active := false
  armed := false
  discardNext := false
  wakePending := false
  dispatchPending := false
  activeMask := 0
  validMask := 0
  slot := #v[0, 0, 0, 0]
  snap := #v[.zero, .zero]
  wbuf := 0
  rbuf := 0

/-- The SMU channel at reset, R55. -/
def SmuChannel.resetFor (p : Params) : SmuChannel where
  fv := 0
  fi := 0
  mv := 0
  mi := 0
  clli := -p.clISafe
  clhi := p.clISafe
  cllv := -p.clVSafe
  clhv := p.clVSafe
  range := p.resetRange
  state := .disabled
  mode := .fv
  sense := .loc
  dirty := 0
  mvGainCorr := p.mvGainCorr0
  miMult := p.miMult0

/-- The amplifier state at reset, R51. DESIGN CHOICE, unsafe: for gain tables in which IG(4) * OG(0) is not 1, R51's reset gain
of 1 and the invariant of 42_amp.md R252 exclude each other; the gain is 1 all the same (log 32). -/
def AmpState.atReset : AmpState where
  ig := 4
  og := 0
  gain := 1
  swP := .in1
  swN := .in1
  tmP := 0
  tmN := 0
  idOk := false
  faultIrqEn := false

/-- The bus lines at reset, R52, R53. DESIGN CHOICE, unsafe: the spec leaves `csPMU` and `pmuReset` unspecified until
PMU_INIT; `csPMU` is 1 here (R53: "Each is 1 between steps", log 9) and `pmuReset` is 0 (log 10). -/
def BusState.atReset : BusState where
  owner := .none
  csPMU := true
  csADC := true
  csAMP := true
  pmuReset := false

/-- Nothing lined up. -/
def Env.empty : Env where
  pmu := []
  adc := []
  amp := []
  busy := []
  device := .free
  sched := []

/-- The reset table of 10_state.md R56 for parameters `p`, with empty ports and no inputs lined up. -/
def State.resetFor (p : Params) : State where
  par := p
  cmd := .idle
  pmu := .resetFor p
  adc := .atReset
  smu := ⟨.resetFor p, false⟩
  amp := .atReset
  bus := .atReset
  port := []
  results := []
  pubOut := []
  trace := []
  env := .empty

/-- The machine right after reset, with the reference values of 00_scope.md R11. -/
def State.reset : State := State.resetFor Params.reference

end Sys2Proof.Machine
end

