-- ==== Sys2Proof/Machine/Conversion.lean ====
section
/-! DEFINITION. The DAC and ADC code converter with the calibration lookup: the pure functions of 43_convert.md sections 1
to 3, in exact rational arithmetic (00_scope.md R14). -/

namespace Sys2Proof.Machine

/-! ### Roles and windows -/

/-- `currentLike(role)`, R300. -/
def Role.currentLike : Role → Bool
  | .fi | .clli | .clhi => true
  | .fv | .cllv | .clhv => false

/-- `isClamp(role)`, R300. -/
def Role.isClamp : Role → Bool
  | .clli | .clhi | .cllv | .clhv => true
  | .fv | .fi => false

/-- `clampTo(x, lo, hi) = min(hi, max(lo, x))`, 00_scope.md R14. -/
def clampTo (x lo hi : Rat) : Rat := min hi (max lo x)

/-- The nominal window `[lo, hi]`, R301. -/
def nominalWindow (p : Params) (role : Role) (r : Range) : Rat × Rat :=
  if Role.currentLike role then (-p.iFs[r], p.iFs[r]) else (p.vWinLo, p.vWinHi)

/-- The over-range allowance `a`, R303. -/
def allowance (role : Role) : Rat := if Role.isClamp role then Config.orClamp else Config.orForce

/-- The extended ("allowed (over-ranged)") window `[lo', hi']`, R303. -/
def extendedWindow (p : Params) (role : Role) (r : Range) : Rat × Rat :=
  let w := nominalWindow p role r
  let e := allowance role * (w.2 - w.1) / 2
  (w.1 - e, w.2 + e)

/-- `Ieq(r)`: the current that reads as 250 mV, R302. -/
def ieq (p : Params) (r : Range) : Rat := Config.sepI / (p.miGain * p.rSense[r])

/-- The clamp separation of R302, applied before the window clamp. -/
def separate (p : Params) (role : Role) (r : Range) (x cllv clhv : Rat) : Rat :=
  match role with
  | .fv => x
  | .fi => x
  | .clli => min x (-ieq p r)
  | .clhi => max x (ieq p r)
  | .cllv => min x (clhv - Config.sepV)
  | .clhv => max x (cllv + Config.sepV)

/-! ### DAC direction -/

/-- `CAL_SCALE(role, r)`, R306. -/
def calScale (p : Params) (role : Role) (r : Range) : Rat := p.calScale[role.idx][r]

/-- `CAL_OFFSET(role, r)`, R306. -/
def calOffset (p : Params) (role : Role) (r : Range) : Rat := p.calOffset[role.idx][r]

/-- `roundHalfUp(x) = floor(x + 1/2)`, 00_scope.md R14, R308. -/
def roundHalfUp (x : Rat) : Int := (x + 1 / 2).floor

/-- `sat16(n) = clampTo(n, 0, 65535)`, 00_scope.md R14. -/
def sat16 (n : Int) : Nat := if n ≤ 0 then 0 else if 65535 ≤ n then 65535 else n.toNat

/-- The DAC calibration hook, R307: the identity. -/
def dacCal (_role : Role) (_r : Range) (n : Nat) : Nat := n

/-- `ValueToCode(role, r, x, cllv, clhv) -> (code, xe)`, R308: separation, window clamp, calibration map, rounding half up,
saturation, hook. -/
def valueToCode (p : Params) (role : Role) (r : Range) (x cllv clhv : Rat) : BitVec 16 × Rat :=
  let w := extendedWindow p role r
  let xe := clampTo (separate p role r x cllv clhv) w.1 w.2
  let y := calScale p role r * xe + calOffset p role r
  (BitVec.ofNat 16 (dacCal role r (sat16 (roundHalfUp y))), xe)

/-- `DacToValue(role, r, code)`, R309. -/
def dacToValue (p : Params) (role : Role) (r : Range) (code : BitVec 16) : Rat :=
  ((code.toNat : Rat) - calOffset p role r) / calScale p role r

/-! ### ADC direction -/

/-- The ADC calibration hook, R307: the identity. -/
def adcCal (code : BitVec 24) : BitVec 24 := code

/-- `AdcToVolts(code)`, R304. -/
def adcToVolts (p : Params) (code : BitVec 24) : Rat :=
  (((adcCal code).toNat : Rat) - 8388608) * p.adcVref / 8388608

/-- `AdcToAmps(code, r)`, R305. -/
def adcToAmps (p : Params) (code : BitVec 24) (r : Range) : Rat :=
  (adcToVolts p code - p.miOffset) / (p.miGain * p.rSense[r])

/-! ### Amplifier gain, 42_amp.md R252 -/

/-- `gain(ig, og) = IG(ig) * OG(og)`. -/
def ampGain (p : Params) (ig : Fin 12) (og : Fin 3) : Rat := p.ig[ig] * p.og[og]

/-! ### Range facts the sequencer uses, 44_sequencer.md R353 -/

/-- `larger`: the full-scale current of `r'` is greater than that of `r`. -/
def largerRange (p : Params) (r' r : Range) : Bool := decide (p.iFs[r] < p.iFs[r'])

/-- `extended(r)`, R353. -/
def extendedRange (p : Params) (r : Range) : Bool := p.extended[r]

/-- `R_CONS`: "the extended range with the largest full scale" (R353, decision D50), RANGE_EXT_200MA for the reference
parameters. On a tie range 5 comes first, then the lower index; range 5
where no range is extended, a case R353 never reads (DEDUCED, log 14). -/
def rCons (p : Params) : Range :=
  [(0 : Range), 1, 2, 3, 4, 5].foldl
    (fun best r =>
      if extendedRange p r && (!extendedRange p best || largerRange p r best) then r else best) 5

/-- The published unit of a range, 44_sequencer.md R371: UA for ranges 0 to 2, MA for 3 to 5. -/
def rangeUnit (r : Range) : CurrentUnit := if r.val ≤ 2 then .ua else .ma

end Sys2Proof.Machine
end

