-- ==== Sys2Proof/Machine/Flags.lean ====
section
/-! DEFINITION. The status flags of the block (10_state.md R54): the dirty bitmap, the ADC masks and phase, and the fields of
the device registers. -/

namespace Sys2Proof.Machine

/-! ### Dirty bitmap, 10_state.md R49 -/

/-- `DIRTY_ALL`, R49. -/
def dirtyAll : BitVec 12 := 0xFFF
/-- Dirty bit MV, R49. -/
def dbitMv : Nat := 2
/-- Dirty bit MI, R49. -/
def dbitMi : Nat := 3
/-- Dirty bit RANGE, R49. -/
def dbitRange : Nat := 8
/-- Dirty bit STATE, R49. -/
def dbitState : Nat := 9
/-- Dirty bit MODE, R49. -/
def dbitMode : Nat := 10
/-- Dirty bit SENSE, R49. -/
def dbitSense : Nat := 11

/-- `DBIT(role)`, 44_sequencer.md R352. -/
def dbit : Role → Nat
  | .fv => 0
  | .fi => 1
  | .clli => 4
  | .clhi => 5
  | .cllv => 6
  | .clhv => 7

/-- `dirty OR (1 << b)`. -/
def orBit (dirty : BitVec 12) (b : Nat) : BitVec 12 := dirty ||| (1#12 <<< b)

/-- One atomic read-modify-write of a channel's dirty bitmap that sets bit `b` (20_memory.md R96, 44_sequencer.md R370). -/
def SmuChannel.mark (ch : SmuChannel) (b : Nat) : SmuChannel := { ch with dirty := orBit ch.dirty b }

/-! ### Stored values by role, 10_state.md R48 -/

/-- `ch.<role>`. -/
def SmuChannel.value (ch : SmuChannel) : Role → Rat
  | .fv => ch.fv
  | .fi => ch.fi
  | .clli => ch.clli
  | .clhi => ch.clhi
  | .cllv => ch.cllv
  | .clhv => ch.clhv

/-- `ch.<role> <- v`. -/
def SmuChannel.setValue (ch : SmuChannel) (role : Role) (v : Rat) : SmuChannel :=
  match role with
  | .fv => { ch with fv := v }
  | .fi => { ch with fi := v }
  | .clli => { ch with clli := v }
  | .clhi => { ch with clhi := v }
  | .cllv => { ch with cllv := v }
  | .clhv => { ch with clhv := v }

/-! ### ADC masks and phase -/

/-- `mask OR (1 << n)`. -/
def setMaskBit (mask : BitVec 4) (n : Fin 4) : BitVec 4 := mask ||| (1#4 <<< n.val)

/-- `mask[n] <- b`. -/
def assignMaskBit (mask : BitVec 4) (n : Fin 4) (b : Bool) : BitVec 4 :=
  if b then setMaskBit mask n else mask &&& ~~~(1#4 <<< n.val)

/-- The completion test of 41_adc.md R205: equality of the two masks. -/
def groupComplete (validMask activeMask : BitVec 4) : Bool := decide (validMask = activeMask)

/-- The pipeline phase, 10_state.md R42: a function of the flags. R42 gives `armed = 1` and `wakePending = 1` together, which
ADC_START can leave (60_exceptions.md R411), two phases and no order between them. DESIGN CHOICE, unsafe: Armed (log 29). -/
def AdcState.phase (a : AdcState) : AdcPhase :=
  if a.armed then .armed else if a.wakePending then .sampleInFlight else .idle

/-! ### Fields of the device registers, 10_state.md R36, R38, 30_encoding.md R127 -/

/-- The bits a field occupies in a register of `n` bits. -/
def BitField.mask (n : Nat) (f : BitField) : BitVec n := BitVec.ofNat n (2 ^ f.width - 1) <<< f.lo

/-- `v with f <- x`. -/
def setField (v : BitVec n) (f : BitField) (x : BitVec n) : BitVec n :=
  (v &&& ~~~(BitField.mask n f)) ||| ((x <<< f.lo) &&& BitField.mask n f)

/-- `v.f`. -/
def getField (v : BitVec n) (f : BitField) : BitVec n := (v >>> f.lo) &&& BitVec.ofNat n (2 ^ f.width - 1)

/-- The fields of a channel-control register, 10_state.md R37. -/
def ChLayout.fields (l : ChLayout) : List BitField :=
  [l.en, l.hiz, l.fmode, l.range, l.measSel, l.dacEn, l.sysForceEn, l.sysSenseEn, l.clampEn, l.cmpEn, l.cmpOutSel]

/-- The bits of a channel-control register that belong to a field; the others are reserved (R38). -/
def ChLayout.definedBits (l : ChLayout) : BitVec 22 := (ChLayout.fields l).foldl (fun acc f => acc ||| BitField.mask 22 f) 0

/-- The shadow a field command starts from, its reserved bits 0: they are "written 0 by the field commands" (R38,
30_encoding.md R131, 93_implementation_defined.md section 1). DEDUCED: a shadow in which PMU_WRITE_CHCTRL left reserved bits 1
keeps them by the pseudocode of 40_pmu.md R148, R149, R155 and 44_sequencer.md R350; here the rule about the reserved bits is
followed. Every field keeps its value, a reserved range code among them, as that pseudocode says; R38's "never writes 5..7
except through" is read as naming the commands by which such a code comes in (log 28). -/
def clearReserved (l : ChLayout) (v : BitVec 22) : BitVec 22 := v &&& ChLayout.definedBits l

/-- The two bits (CH_EN, CH_HIZ) of a PMU channel state, 10_state.md R40. -/
def ChanState.enHiz : ChanState → BitVec 22 × BitVec 22
  | .disabled => (0, 1)
  | .hiz => (1, 1)
  | .enabled => (1, 0)

/-- CH_FMODE of a force mode, 10_state.md R40. -/
def ForceMode.fmode : ForceMode → BitVec 22
  | .fv => 0
  | .fi => 1

/-- `v with CH_EN <- en, CH_HIZ <- hiz` for a channel state, 40_pmu.md R148; reserved bits 0 (R38). -/
def withChanState (l : ChLayout) (v : BitVec 22) (st : ChanState) : BitVec 22 :=
  setField (setField (clearReserved l v) l.en st.enHiz.1) l.hiz st.enHiz.2

/-- `v with CH_FMODE <- m`, 40_pmu.md R155; reserved bits 0 (R38). -/
def withForceMode (l : ChLayout) (v : BitVec 22) (m : ForceMode) : BitVec 22 :=
  setField (clearReserved l v) l.fmode m.fmode

/-- `v with CH_RANGE <- code`, 40_pmu.md R149; reserved bits 0 (R38). -/
def withRangeCode (l : ChLayout) (v : BitVec 22) (code : BitVec 3) : BitVec 22 :=
  setField (clearReserved l v) l.range (code.setWidth 22)

/-- The PMU channel state an SMU enable state is written as, 44_sequencer.md R355. -/
def EnableState.chanState : EnableState → ChanState
  | .disabled => .disabled
  | .standby => .hiz
  | .enabled => .enabled

/-! ### Codes of the SMU enumerations, 10_state.md R47 -/

/-- The code of an enable state. -/
def EnableState.code : EnableState → Nat
  | .disabled => 0
  | .standby => 1
  | .enabled => 2

/-- The code of a mode. -/
def ForceMode.code : ForceMode → Nat
  | .fv => 0
  | .fi => 1

/-- The code of a sense topology. -/
def Sense.code : Sense → Nat
  | .loc => 0
  | .remote => 1

/-! ### Result codes, 60_exceptions.md R400 -/

/-- The numeric code of a failure, R400. -/
def FailCode.number : FailCode → Nat
  | .invalidArgument => 1
  | .busy => 2
  | .busError => 3
  | .verifyFailed => 4
  | .identityMismatch => 5

/-- The `status` of a result, R400. -/
def Result.status : Result → Nat
  | .ok _ => 0
  | .fail c => c.number

end Sys2Proof.Machine
end

