-- ==== Sys2Proof/Machine/Frames.lean ====
section
/-! DEFINITION. The device wire frames of 30_encoding.md section 4, byte order most significant first (20_memory.md R90). -/

namespace Sys2Proof.Machine

/-! ### Bytes -/

/-- The low `n` bytes of a word, most significant first (20_memory.md R90). -/
def bytesOf : Nat → Word32 → List Byte
  | 0, _ => []
  | n + 1, w => (w >>> (8 * n)).setWidth 8 :: bytesOf n w

/-- Bytes assembled into a word, the first received most significant (20_memory.md R90). -/
def packBytes (bs : List Byte) : Word32 := bs.foldl (fun acc b => (acc <<< 8) ||| b.setWidth 32) 0

/-! ### PMU, 30_encoding.md R121 to R123 -/

/-- The R/W bit: 1 read, 0 write (R121, R124, R125). -/
def Dir.bit : Dir → BitVec 1
  | .write => 0
  | .read => 1

/-- The 29-bit PMU word `[R/W:1][CH:4][MODE:2][DATA:22]`, R121. -/
def pmuWord (dir : Dir) (chmask : BitVec 4) (mode : BitVec 2) (data : BitVec 22) : BitVec 29 :=
  dir.bit ++ chmask ++ mode ++ data

/-- The PMU frame: the word right-aligned in 4 bytes, bits 31:29 zero (R121, 90_conflicts.md C8). -/
def pmuFrame (dir : Dir) (chmask : BitVec 4) (mode : BitVec 2) (data : BitVec 22) : List Byte :=
  bytesOf 4 ((pmuWord dir chmask mode data).setWidth 32)

/-- The channel mask of PMU channel `c`: `1 << c`, 20_memory.md R86. -/
def chMask (c : Fin 4) : BitVec 4 := 1#4 <<< c.val

/-- The DAC payload `{sub[5:0], code[15:0]}`, R122. -/
def dacPayload (sub : BitVec 6) (code : BitVec 16) : BitVec 22 := sub ++ code

/-! ### ADC, 30_encoding.md R124, R126, R127 -/

/-- The ADC command byte: bit 7 zero, bit 6 R/W, bits 5:0 the address (R124, 90_conflicts.md C3). -/
def adcCommand (dir : Dir) (addr : BitVec 6) : Byte := 0#1 ++ dir.bit ++ addr

/-- The ADC channel input-pair register: enable, positive and negative input where the layout puts them, every other bit 0
(R127, in the reference layout enable, five zeros, positive, negative). -/
def adcChannelReg (l : AdcChLayout) (en : Bool) (pos neg : BitVec 5) : BitVec 16 :=
  setField (setField (setField 0 l.en ((BitVec.ofBool en).setWidth 16)) l.pos (pos.setWidth 16)) l.neg (neg.setWidth 16)

/-- The sample code of a data frame `f0 f1 f2 f3`: its first three bytes (R126). -/
def frameCode (frame : List Byte) : BitVec 24 := (packBytes frame).extractLsb' 8 24

/-- The channel index of a data frame: bits 1:0 of its status byte (R126). -/
def frameIndex (frame : List Byte) : Fin 4 := ((packBytes frame).extractLsb' 0 2).toFin

/-! ### Amplifier, 30_encoding.md R125, R128 to R130 -/

/-- The amplifier command byte: bit 7 R/W, bits 6:0 the address (R125). -/
def ampCommand (dir : Dir) (addr : BitVec 7) : Byte := dir.bit ++ addr

/-- The 4-bit input gain select. -/
def igBits (ig : Fin 12) : BitVec 4 := BitVec.ofNat 4 ig.val

/-- The 2-bit output gain select. -/
def ogBits (og : Fin 3) : BitVec 2 := BitVec.ofNat 2 og.val

/-- The gain-mux register `{0b000, og[0], ig[3:0]}`, R128. -/
def gainMux (ig : Fin 12) (og : Fin 3) : Byte := 0#3 ++ (ogBits og).extractLsb' 0 1 ++ igBits ig

/-- The test-mux register `{og[1], 0b000, tmP, tmN}`, R129. -/
def testMux (og : Fin 3) (tmP tmN : BitVec 2) : Byte := (ogBits og).extractLsb' 1 1 ++ 0#3 ++ tmP ++ tmN

/-- The code of an input-switch select, 42_amp.md R255. -/
def SwitchSel.code : SwitchSel → Nat
  | .in1 => 0
  | .in2 => 1
  | .test => 2
  | .short => 3

/-- The input-mux register, R130: one-hot for SHORT, two-hot otherwise. -/
def inMux (p n : SwitchSel) : Byte :=
  if p = .short then 1#8 <<< 6 else (1#8 <<< p.code) ||| (1#8 <<< (3 + n.code))

end Sys2Proof.Machine
end

