-- ==== Sys2Proof/Machine/RefDevice.lean ====
section
/-! DEFINITION. The reference device of 20_memory.md R85: an oracle, not part of the block, that a claim may name as the
device behaviour it assumes. Its registers are read off the history of the wires: "the last value written". -/

namespace Sys2Proof.Machine

/-- The latest event of a history that `f` picks out. -/
def lastMatch (f : BusEvent → Option β) (h : List BusEvent) : Option β :=
  h.foldl (fun acc e => (f e).or acc) none

/-- Bits 27:24 of a PMU frame word: the channel mask (30_encoding.md R121). -/
def pmuMaskOf (w : Word32) : BitVec 4 := w.extractLsb' 24 4
/-- Bits 23:22 of a PMU frame word: MODE. -/
def pmuModeOf (w : Word32) : BitVec 2 := w.extractLsb' 22 2
/-- Bits 21:0 of a PMU frame word: DATA. -/
def pmuDataOf (w : Word32) : BitVec 22 := w.extractLsb' 0 22
/-- Bits 21:16 of a PMU frame word: the DAC sub-address (R122). -/
def pmuSubOf (w : Word32) : BitVec 6 := w.extractLsb' 16 6

/-- A mask that selects several channels. -/
def severalChannels (mask : BitVec 4) : Bool := decide (mask &&& (mask - 1) ≠ 0)

/-- The frame word names a PMU register of 20_memory.md R86: the system register, one channel's register or one channel's DAC.
A mask of several channels, a mode that is neither MODE_REG nor MODE_DAC, and MODE_DAC with no channel in the mask name none,
and what the device does with such a frame is left open (R86, 92_eei_decisions.md D62). DESIGN CHOICE, safe: such a read
answers a free value, and such a frame, write or read, leaves every PMU register open (log 5). -/
def namesPmuRegister (p : Params) (w : Word32) : Bool :=
  !severalChannels (pmuMaskOf w) &&
    (pmuModeOf w == p.modeReg || (pmuModeOf w == p.modeDac && pmuMaskOf w != 0))

/-- What a transfer left in the register it wrote. R85's device fails no transfer; for one that the script makes fail,
whether the write landed is any value (93_implementation_defined.md section 2, 70_reset_and_hazards.md R462), so the
register stays open. DESIGN CHOICE, safe (log 5). A write whose transfer succeeds is "the last value written" (R85) also where
the script then makes its verify fail, by BUSY samples or another readback, though 93 section 2 allows any value there. DESIGN
CHOICE, unsafe (log 33). -/
def landed (r : XferResult) (v : α) : Option α :=
  match r with
  | .ok _ => some v
  | .busError => none

/-- What an event did to a PMU register: nothing, or the value it left there, if the spec fixes it. `hit` says which write
frames go to the register, `value` what they carry. A frame that names no register, and a pulse on the reset line (R467),
leave it open (log 5). -/
def pmuEffect (p : Params) (hit : Word32 → Bool) (value : Word32 → α) : BusEvent → Option (Option α)
  | .xfer .pmu out _ r =>
    let w := packBytes out
    if !namesPmuRegister p w then some none
    else if hit w then some (landed r (value w))
    else none
  | .pmuRead out _ _ _ => if namesPmuRegister p (packBytes out) then none else some none
  | .pmuResetLine _ => some none
  | _ => none

/-- What an event did to the PMU register (`mask`, MODE_REG). -/
def pmuRegWrite (p : Params) (mask : BitVec 4) : BusEvent → Option (Option (BitVec 22)) :=
  pmuEffect p (fun w => pmuMaskOf w = mask && pmuModeOf w = p.modeReg) pmuDataOf

/-- What an event did to the PMU DAC (`mask`, MODE_DAC, `sub`). -/
def pmuDacWrite (p : Params) (mask : BitVec 4) (sub : BitVec 6) : BusEvent → Option (Option (BitVec 16)) :=
  pmuEffect p (fun w => pmuMaskOf w = mask && pmuModeOf w = p.modeDac && pmuSubOf w = sub) (·.extractLsb' 0 16)

/-- What an event did to an amplifier register. -/
def ampRegWrite (addr : BitVec 7) : BusEvent → Option (Option Byte)
  | .xfer .amp [cmd, v] _ r => if cmd = 0#1 ++ addr then some (landed r v) else none
  | _ => none

/-- The last value written, where the spec fixes it. -/
def lastWritten (f : BusEvent → Option (Option β)) (h : List BusEvent) : Option β := (lastMatch f h).join

/-- The bits the reference PMU answers a read request with, if R85 states them: a request that names no register answers any
value. -/
def refPmuRead (p : Params) (h : List BusEvent) (request : Word32) : Option Word32 :=
  let mask := pmuMaskOf request
  let sub := pmuSubOf request
  if !namesPmuRegister p request then none
  else if pmuModeOf request = p.modeReg then (lastWritten (pmuRegWrite p mask) h).map (·.setWidth 32)
  else (lastWritten (pmuDacWrite p mask sub) h).map fun code => (sub ++ code : BitVec 22).setWidth 32

/-- The bits the reference amplifier answers a read with, if R85 states them. -/
def refAmpRead (p : Params) (h : List BusEvent) (cmd : Byte) : Option Word32 :=
  let addr := cmd.extractLsb' 0 7
  if addr = p.ampRegId then some 0x30 else (lastWritten (ampRegWrite addr) h).map (·.setWidth 32)

/-- What the reference device shifts out, where R85 states it: no transfer fails; a write brings nothing back; a register
never written or left open, and an ADC frame no vector gives, stay open. -/
def refBits (p : Params) (h : List BusEvent) (dev : Dev) (out : List Byte) (nIn : Nat) : Option Word32 :=
  if nIn = 0 then some 0
  else
    match dev with
    | .pmu => refPmuRead p h (packBytes out)
    | .amp => refAmpRead p h ((packBytes out).setWidth 8)
    | .adc => none

end Sys2Proof.Machine
end

