-- ==== Sys2Proof/Machine/Ops.lean ====
section
/-! DEFINITION. The shared operations: the device oracle, the bus transactions, how a command ends (the block's nearest thing
to an exception, 60_exceptions.md R400, R401), and the data-ready interrupt's entry and re-arm (R408, R410, R411). -/

namespace Sys2Proof.Machine

/-! ### The wires -/

/-- Something happens on the wires. -/
def record (e : BusEvent) (s : State) : State := s.setTrace (s.trace ++ [e])

/-- Drive the chip-select line of a device (true: deasserted), 10_state.md R53. -/
def driveCs (dev : Dev) (level : Bool) (s : State) : State :=
  match dev with
  | .pmu => s.setBus { s.bus with csPMU := level }
  | .adc => s.setBus { s.bus with csADC := level }
  | .amp => s.setBus { s.bus with csAMP := level }

/-- Drive the PMU reset line (true: released), 10_state.md R53. -/
def drivePmuReset (level : Bool) (s : State) : State :=
  record (.pmuResetLine level) (s.setBus { s.bus with pmuReset := level })

/-- Take or release the bus lock, 10_state.md R52. -/
def setOwner (o : Owner) (s : State) : State := s.setBus { s.bus with owner := o }

/-- One agent's transaction under the bus lock, held from before the chip-select asserts to the end (20_memory.md R80,
70_reset_and_hazards.md R460). -/
def withBus (who : Owner) (act : State → α × State) (s : State) : α × State :=
  let r := act (setOwner who s)
  (r.1, setOwner .none r.2)

/-! ### The oracle, 20_memory.md R84 -/

/-- The answers lined up for a device. -/
def Env.answers (e : Env) : Dev → List Answer
  | .pmu => e.pmu
  | .adc => e.adc
  | .amp => e.amp

/-- The same with the lined-up answers of a device replaced. -/
def Env.setAnswers (e : Env) (dev : Dev) (l : List Answer) : Env :=
  match dev with
  | .pmu => { e with pmu := l }
  | .adc => { e with adc := l }
  | .amp => { e with amp := l }

/-- The answer to a transfer once the script has run out: the reference device's where R85 states one, else a free value
(and the reference device fails no transfer). -/
def unscriptedAnswer (s : State) (dev : Dev) (out : List Byte) (nIn : Nat) : Answer :=
  match s.env.device with
  | .reference =>
    match refBits s.par s.trace dev out nIn with
    | some bits => .shift bits
    | none => .shift (Config.xferBits s.trace dev out nIn)
  | .free => if Config.xferFails s.trace dev out nIn then .fails else .shift (Config.xferBits s.trace dev out nIn)

/-- The oracle's answer to a transfer, and the state with it used up. -/
def drawAnswer (dev : Dev) (out : List Byte) (nIn : Nat) (s : State) : Answer × State :=
  match s.env.answers dev with
  | a :: rest => (a, s.setEnv (s.env.setAnswers dev rest))
  | [] => (unscriptedAnswer s dev out nIn, s)

/-- The bytes of an answer: a failure, or the requested number of bytes. -/
def Answer.result (a : Answer) (nIn : Nat) : XferResult :=
  match a with
  | .shift bits => .ok (bytesOf nIn bits)
  | .fails => .busError

/-- `SpiXfer(dev, out, nIn)`, 00_scope.md R16: chip-select asserted, bytes out, bytes in, chip-select deasserted (after a
failed transfer too, DEDUCED, log 19). -/
def spiXfer (dev : Dev) (out : List Byte) (nIn : Nat) (s : State) : XferResult × State :=
  let d := drawAnswer dev out nIn (driveCs dev false s)
  let r := d.1.result nIn
  (r, driveCs dev true (record (.xfer dev out nIn r) d.2))

/-- `PmuXfer2(out, nIn)`, 00_scope.md R16: the PMU read, the chip-select toggled between the bytes out and the bytes in;
one transaction and one answer. -/
def pmuXfer2 (out : List Byte) (nIn : Nat) (s : State) : XferResult × State :=
  let d := drawAnswer .pmu out nIn (driveCs .pmu false (driveCs .pmu true (driveCs .pmu false s)))
  let r := d.1.result nIn
  (r, driveCs .pmu true (record (.pmuRead out s.par.pmuReadFill nIn r) d.2))

/-- The busy line at one sample (true: READY): lined up, else ready at once on the reference device (R85), else free. -/
def sampleBusy (s : State) : Bool × State :=
  match s.env.busy with
  | b :: rest => (b, record (.busySample b) (s.setEnv { s.env with busy := rest }))
  | [] =>
    let b := match s.env.device with
      | .reference => true
      | .free => Config.busyLine s.trace
    (b, record (.busySample b) s)

/-- At most `n` samples of the busy line, stopping at the first READY. -/
def pollBusy : Nat → State → Bool × State
  | 0, s => (false, s)
  | n + 1, s =>
    let r := sampleBusy s
    if r.1 then (true, r.2) else pollBusy n r.2

/-- `BusyWait() -> Ok | Busy`, 40_pmu.md R143: at most `BUSY_POLL_LIMIT` samples; the 1 ms ticks between them take no time
in the model (70_reset_and_hazards.md R471). -/
def busyWait (s : State) : Bool × State := pollBusy s.par.busyPollLimit s

/-! ### Transactions, 20_memory.md R81 to R83 -/

/-- The result of a PMU transaction, R81. -/
inductive TxResult where
  | ok (v : Word32)
  | busError
  | busy
deriving DecidableEq, Repr, Inhabited

/-- The transfer of a PMU transaction: a plain frame for a write, `PmuXfer2` for a read (R81). -/
def pmuShift (dir : Dir) (frame : List Byte) (s : State) : XferResult × State :=
  match dir with
  | .write => spiXfer .pmu frame 0 s
  | .read => pmuXfer2 frame 3 s

/-- `PmuTx(dir, chmask, mode, data)`, R81: one atomic step, the lock held through the busy poll that ends it (R80). -/
def pmuTx (dir : Dir) (chmask : BitVec 4) (mode : BitVec 2) (data : BitVec 22) : State → TxResult × State :=
  withBus .cmd fun s =>
    let x := pmuShift dir (pmuFrame dir chmask mode data) s
    match x.1 with
    | .busError => (.busError, x.2)
    | .ok rb =>
      let b := busyWait x.2
      if b.1 then
        (.ok (match dir with
          | .write => 0
          | .read => packBytes rb), b.2)
      else (.busy, b.2)

/-- An ADC register write of the low `nb` bytes of `v`, R82. -/
def adcWrite (addr : BitVec 6) (nb : Nat) (v : Word32) : State → XferResult × State :=
  withBus .cmd (spiXfer .adc (adcCommand .write addr :: bytesOf nb v) 0)

/-- An ADC register read of `nb` bytes, R82, by the agent `who`. -/
def adcRead (who : Owner) (addr : BitVec 6) (nb : Nat) : State → XferResult × State :=
  withBus who (spiXfer .adc [adcCommand .read addr] nb)

/-- An amplifier register write, R83. -/
def ampWrite (addr : BitVec 7) (v : Byte) : State → XferResult × State :=
  withBus .cmd (spiXfer .amp [ampCommand .write addr, v] 0)

/-- An amplifier register read, R83. -/
def ampRead (addr : BitVec 7) : State → XferResult × State :=
  withBus .cmd (spiXfer .amp [ampCommand .read addr] 1)

/-! ### The end of a command, 00_scope.md R16, 60_exceptions.md R400 to R402 -/

/-- A command ends with its one result: the sequencer goes to `(None, 0)` (10_state.md R31) and nothing is saved. -/
def endCommand (r : Result) (s : State) : State := (s.setCmd .idle).setResults (s.results ++ [r])

/-- How far a command in progress has come: running on with a value, or over (returned, raised, or cut by a reset). -/
inductive Flow (α : Type) where
  | go (a : α) (s : State)
  | ended (s : State)
deriving Repr

/-- Run on unless the command is over: "Nothing after a `raise` in the same command runs" (00_scope.md R16). -/
def Flow.bind (f : Flow α) (g : α → State → Flow β) : Flow β :=
  match f with
  | .go a s => g a s
  | .ended s => .ended s

/-- The state a command has reached. -/
def Flow.state : Flow α → State
  | .go _ s => s
  | .ended s => s

/-- `raise Fail(code)`: the block's one way to report a failure (60_exceptions.md R400): the command ends, the code is the
whole report, what was written before stays (R401). -/
def raise (c : FailCode) (s : State) : Flow α := .ended (endCommand (.fail c) s)

/-- `return Ok(v)`. -/
def ret (v : Value) (s : State) : Flow α := .ended (endCommand (.ok v) s)

/-- A reserved opcode, 30_encoding.md R115: InvalidArgument, no I/O, no other change. -/
def rejectWord (s : State) : State := s.setResults (s.results ++ [.fail .invalidArgument])

/-! ### The data-ready interrupt, 41_adc.md R203, 60_exceptions.md R408, R410, R411 -/

/-- Taking the data-ready interrupt, R203: it disables itself, deasserts the ADC chip-select and wakes the sample task. It
saves no state, changes no mode and uses no vector (R410). -/
def takeEdge (s : State) : State :=
  driveCs .adc true (s.setAdc { s.adc with armed := false, wakePending := true })

/-- A falling data-ready edge: taken while armed, lost otherwise (R203, R408). -/
def edgeStep (s : State) : State := if s.adc.armed then takeEdge s else s

/-- The re-arm after a sample, the interrupt's only return (R411): if acquisition is still active. -/
def rearm (s : State) : State := if s.adc.active then s.setAdc { s.adc with armed := true } else s

end Sys2Proof.Machine
end

