-- ==== Sys2Proof/Machine/Agents.lean ====
section
/-! DEFINITION. The steps of the agents that are not commands (30_encoding.md R118): the sample-assembly task, the
callback-dispatch task, the publish drain and its forced step, reset; and the schedule that interleaves them with a command
in progress (60_exceptions.md R405 to R407). -/

namespace Sys2Proof.Machine

/-! ### The sample-assembly task, 41_adc.md R204, R205 -/

/-- A complete group: the slots go into the write buffer, the buffers flip, the dispatch task is signalled and a new group
starts (R204, 10_state.md R45). -/
def completeGroup (a : AdcState) : AdcState :=
  { a with
    snap := a.snap.set a.wbuf ⟨a.slot, a.validMask⟩
    rbuf := a.wbuf
    wbuf := 1 - a.wbuf
    dispatchPending := true
    validMask := 0 }

/-- A kept sample: its slot and valid bit, then the completion test just after (R204, R205). -/
def keepSample (a : AdcState) (idx : Fin 4) (code : BitVec 24) : AdcState :=
  let a' := { a with slot := a.slot.set idx code, validMask := setMaskBit a.validMask idx }
  if groupComplete a'.validMask a'.activeMask then completeGroup a' else a'

/-- A sample's frame handled: dropped if it is the stale one, kept otherwise (R204). -/
def handleFrame (a : AdcState) (frame : List Byte) : AdcState :=
  if a.discardNext then { a with discardNext := false } else keepSample a (frameIndex frame) (frameCode frame)

/-- The body of the sample task, R204: one data-register read under the lock; a failed transfer loses the sample. -/
def takeSample (s : State) : State :=
  let r := adcRead .sample s.par.adcRegData 4 (s.setAdc { s.adc with wakePending := false })
  match r.1 with
  | .ok frame => rearm (r.2.setAdc (handleFrame r.2.adc frame))
  | .busError => rearm r.2

/-- The sample-assembly task's step, enabled while `wakePending = 1`. -/
def sampleStep (s : State) : State := if s.adc.wakePending then takeSample s else s

/-! ### The callback-dispatch task, 41_adc.md R206, R209 -/

/-- The measured voltage of a snapshot, if it carries it (R209). -/
def deliverMv (p : Params) (sn : Snapshot) (ch : SmuChannel) : SmuChannel :=
  if sn.mask.getLsbD p.adcChMv.val then
    SmuChannel.mark { ch with mv := adcToVolts p sn.codes[p.adcChMv] * ch.mvGainCorr } dbitMv
  else ch

/-- The measured current of a snapshot, if it carries it, in the channel's present range (R209). -/
def deliverMi (p : Params) (sn : Snapshot) (ch : SmuChannel) : SmuChannel :=
  if sn.mask.getLsbD p.adcChMi.val then
    SmuChannel.mark { ch with mi := adcToAmps p sn.codes[p.adcChMi] ch.range } dbitMi
  else ch

/-- The registered consumer callback, R209. -/
def callback (sn : Snapshot) (s : State) : State :=
  s.setSmu { s.smu with ch := deliverMi s.par sn (deliverMv s.par sn s.smu.ch) }

/-- The callback-dispatch task's step, R206, enabled while `dispatchPending = 1`. -/
def dispatchStep (s : State) : State :=
  if s.adc.dispatchPending then
    callback s.adc.snap[s.adc.rbuf] (s.setAdc { s.adc with dispatchPending := false })
  else s

/-! ### Publish, 44_sequencer.md R371, R372, R374 -/

/-- The fields a dirty bit publishes, R371, by bit number. -/
def publishBit (ch : SmuChannel) : Nat → List PubField
  | 0 => [.fv ch.fv]
  | 1 => [.fi ch.fi]
  | 2 => [.mv ch.mv]
  | 3 => [.mi (ch.mi * ch.miMult)]
  | 4 => [.clli ch.clli]
  | 5 => [.clhi ch.clhi]
  | 6 => [.cllv ch.cllv]
  | 7 => [.clhv ch.clhv]
  | 8 => [.range ch.range, .unit (rangeUnit ch.range)]
  | 9 => [.state ch.state]
  | 10 => [.mode ch.mode]
  | 11 => [.sense ch.sense]
  | _ => []

/-- The number the table of R371 gives the value of an enumerated field; their strings are outside the block (00_scope.md
R7), and `unit` has a name and no number. -/
def PubField.number : PubField → Option Nat
  | .range r => some r.val
  | .state x => some x.code
  | .mode m => some m.code
  | .sense x => some x.code
  | .fv _ | .fi _ | .mv _ | .mi _ | .clli _ | .clhi _ | .cllv _ | .clhv _ | .unit _ => none

/-- The fields of a record: those of the set dirty bits, in bit order (R371). -/
def publishFields (ch : SmuChannel) : List PubField :=
  [0, 1, 2, 3, 4, 5, 6, 7, 8, 9, 10, 11].flatMap fun b => if ch.dirty.getLsbD b then publishBit ch b else []

/-- `Drain()`, R372: one record for the channel if its bitmap is not empty; the bitmap and `forcePublish` cleared. -/
def drain (s : State) : State :=
  let ch := s.smu.ch
  let s' := if ch.dirty = 0 then s else s.setPubOut (s.pubOut ++ [⟨0, publishFields ch⟩])
  s'.setSmu { ch := { ch with dirty := 0 }, forcePublish := false }

/-- The forced publish step, R374: between two commands, enabled while `forcePublish = 1`. -/
def forcedPublishStep (s : State) : State :=
  if s.cmd.op = none ∧ s.smu.forcePublish = true then drain s else s

/-! ### Reset, 70_reset_and_hazards.md R450 -/

/-- The reset event, R450: every piece of block state to the reset table; no bus transaction; `PubOut` keeps its records and
the devices what the oracle says. The lines the table leaves unspecified get the values of `State.reset` (DESIGN CHOICE,
log 11). R450 says nothing of words that wait on the command port: they stay and run after the reset (DESIGN CHOICE, unsafe,
log 30). R451 leaves every device register open after a reset: the wires' history gets no event here, also where `pmuReset`
falls, so the reference device goes on with the values last written (DESIGN CHOICE, unsafe, log 31). -/
def resetEvent (s : State) : State :=
  { State.resetFor s.par with
    port := s.port, results := s.results, pubOut := s.pubOut, trace := s.trace, env := s.env }

/-! ### The schedule, 60_exceptions.md R405 to R407 -/

/-- What a scheduled move other than the sequencer's does. A move whose step is not enabled has no effect (DEDUCED, log 12); the
fault pin has none ever (R409). -/
def agentMove (m : Move) (s : State) : State :=
  match m with
  | .sequencer => s
  | .forcedPublish => forcedPublishStep s
  | .edge => edgeStep s
  | .sample => sampleStep s
  | .dispatch => dispatchStep s
  | .faultPin => s
  | .reset => resetEvent s

/-- The schedule set. -/
def setSched (ms : List Move) (s : State) : State := s.setEnv { s.env with sched := ms }

/-- The moves the schedule puts before the command's next step: each is taken in turn up to the sequencer's own; a reset
ends the command with no result (R450). When the schedule has run out the command runs on (DESIGN CHOICE, log 2). -/
def runMoves (a : α) : List Move → State → Flow α
  | [], s => .go a (setSched [] s)
  | m :: ms, s =>
    match m with
    | .sequencer => .go a (setSched ms s)
    | .reset => .ended (setSched ms (resetEvent s))
    | m => runMoves a ms (agentMove m s)

/-- One bus primitive of a command (00_scope.md R17): its one atomic step, `k` one higher (10_state.md R31), and then a point
at which the other agents may step (60_exceptions.md R406). The computation that follows it in the command's pseudocode
belongs to the next step, so it comes after that point (DEDUCED, log 17). -/
def prim (act : State → α × State) (s : State) : Flow α :=
  let r := act s
  runMoves r.1 r.2.env.sched (r.2.setCmd { r.2.cmd with k := r.2.cmd.k + 1 })

/-- A command accepted, run to its end, and the state it leaves: `(op, k)` starts at `(i, 0)` (10_state.md R31). -/
def runCommand (i : Instr) (body : State → Flow Unit) (s : State) : Host.Outcome State Fault Refusal :=
  .next (body (s.setCmd ⟨some i, 0⟩)).state

end Sys2Proof.Machine
end

