-- ==== Sys2Proof/Machine/Operands.lean ====
section
/-! DEFINITION. Operand forms: from a raw field of a command to the value its rule works on, or nothing where
30_encoding.md R112, R113 or R116 makes it illegal. -/

namespace Sys2Proof.Machine

/-- An index below `n` (R116): a channel, a range, a gain select. -/
def index? (n : Nat) (v : BitVec w) : Option (Fin n) := if h : v.toNat < n then some ⟨v.toNat, h⟩ else none

/-- A field of `n` bits inside a wider operand, whose high bits must be zero (R112). -/
def bits? (n : Nat) (v : BitVec w) : Option (BitVec n) := if v.toNat < 2 ^ n then some (v.setWidth n) else none

/-- A PMU or ADC channel, R116. -/
def channel? (ch : BitVec 4) : Option (Fin 4) := index? 4 ch

/-- The SMU channel, R116: only channel 0 (00_scope.md R8). -/
def smuChannel? (ch : BitVec 4) : Option (Fin 1) := index? Config.nSmuCh ch

/-- The direction of PMU_TRANSACT, 40_pmu.md R145: `SEL[3:1] = 0`. -/
def dir? (sel : BitVec 4) : Option Dir :=
  match sel.toNat with
  | 0 => some .write
  | 1 => some .read
  | _ => none

/-- A PMU channel state, 10_state.md R40. -/
def chanState? (sel : BitVec 4) : Option ChanState :=
  match sel.toNat with
  | 0 => some .disabled
  | 1 => some .hiz
  | 2 => some .enabled
  | _ => none

/-- A force mode, 10_state.md R40, R47. -/
def forceMode? (sel : BitVec 4) : Option ForceMode :=
  match sel.toNat with
  | 0 => some .fv
  | 1 => some .fi
  | _ => none

/-- An SMU enable state, 10_state.md R47. -/
def enableState? (sel : BitVec 4) : Option EnableState :=
  match sel.toNat with
  | 0 => some .disabled
  | 1 => some .standby
  | 2 => some .enabled
  | _ => none

/-- A role, 10_state.md R47. -/
def role? (sel : BitVec 4) : Option Role :=
  match sel.toNat with
  | 0 => some .fv
  | 1 => some .fi
  | 2 => some .clli
  | 3 => some .clhi
  | 4 => some .cllv
  | 5 => some .clhv
  | _ => none

/-- A PMU hardware range code: 0 to 4, the codes 5 to 7 reserved (10_state.md R39, 40_pmu.md R149). -/
def hwRange? (sel : BitVec 4) : Option (BitVec 3) := if sel.toNat < 5 then some (sel.setWidth 3) else none

/-- An enable flag in `SEL[0]`, 41_adc.md R202: `SEL[3:1] = 0`. -/
def flag? (sel : BitVec 4) : Option Bool :=
  match sel.toNat with
  | 0 => some false
  | 1 => some true
  | _ => none

/-- A byte count of 1 to 4, 41_adc.md R207, R208. -/
def byteCount? (sel : BitVec 4) : Option Nat := if 1 ≤ sel.toNat ∧ sel.toNat ≤ 4 then some sel.toNat else none

/-- A value of `nb` bytes, 41_adc.md R207: `v < 2^(8 nb)`. -/
def bytesValue? (nb : Nat) (v : BitVec 32) : Option (BitVec 32) := if v.toNat < 2 ^ (8 * nb) then some v else none

/-- One side's input switch, 42_amp.md R255. -/
def switchSel? (v : BitVec 8) : Option SwitchSel :=
  match v.toNat with
  | 0 => some .in1
  | 1 => some .in2
  | 2 => some .test
  | 3 => some .short
  | _ => none

/-- Both sides' input switches, 42_amp.md R255: SHORT on both or on neither. -/
def switchPair? (p n : BitVec 8) : Option (SwitchSel × SwitchSel) :=
  match switchSel? p, switchSel? n with
  | some a, some b => if (a = .short) = (b = .short) then some (a, b) else none
  | _, _ => none

/-- The measured quantity SMU_CODE_TO_VALUE converts to, 43_convert.md R311. -/
inductive MeasKind where
  | voltage | current
deriving DecidableEq, Repr, Inhabited

/-- The kind operand, 43_convert.md R311. -/
def measKind? (sel : BitVec 4) : Option MeasKind :=
  match sel.toNat with
  | 0 => some .voltage
  | 1 => some .current
  | _ => none

/-- The exact rational a binary32 pattern denotes, 30_encoding.md R113: normal, subnormal, both zeros 0; a NaN or an
infinity (exponent field 0xFF) denotes nothing. The layout is R113's own, which marks it general knowledge (PRESUMED, log 22). -/
def binary32? (d : BitVec 32) : Option Rat :=
  let e := (d.extractLsb' 23 8).toNat
  let f := (d.extractLsb' 0 23).toNat
  if e = 255 then none
  else
    let m : Nat := if e = 0 then f * 2 else (f + 2 ^ 23) * 2 ^ e
    let q : Rat := (m : Rat) / ((2 ^ 150 : Nat) : Rat)
    some (if d.msb then -q else q)

end Sys2Proof.Machine
end

