-- ==== Sys2Proof/Machine/Adc.lean ====
section
/-! DEFINITION. The commands of the ADC sampler and per-channel reassembly pipeline, 41_adc.md section 1. -/

namespace Sys2Proof.Machine

/-- ADC_START, R200: no bus primitive. -/
def execAdcStart (s : State) : Host.Outcome State Fault Refusal :=
  runCommand .adcStart (fun s =>
    ret .nothing (s.setAdc { s.adc with validMask := 0, discardNext := true, active := true, armed := true })) s

/-- ADC_STOP, R201: no bus primitive; a pending sample or dispatch step stays pending. -/
def execAdcStop (s : State) : Host.Outcome State Fault Refusal :=
  runCommand .adcStop (fun s =>
    ret .nothing (driveCs .adc true (s.setAdc { s.adc with armed := false, active := false }))) s

/-- ADC_CONFIG_CH, R202: the input-pair register written, unverified; on success the active mask. -/
def execAdcConfigCh (channel enable : BitVec 4) (pos neg : BitVec 8) (s : State) : Host.Outcome State Fault Refusal :=
  runCommand (.adcConfigCh channel enable pos neg) (fun s =>
    match channel? channel, flag? enable, bits? 5 pos, bits? 5 neg with
    | some n, some en, some p, some q =>
      (prim (adcWrite s.par.adcRegCh[n] 2 ((adcChannelReg s.par.adcChLayout en p q).setWidth 32)) s).bind fun r s =>
      match r with
      | .ok _ => ret .nothing (s.setAdc { s.adc with activeMask := assignMaskBit s.adc.activeMask n en })
      | .busError => raise .busError s
    | _, _, _, _ => raise .invalidArgument s) s

/-- ADC_WRITE_REG, R207: raw; no state. -/
def execAdcWriteReg (nbytes : BitVec 4) (addr : BitVec 8) (value : BitVec 32) (s : State) :
    Host.Outcome State Fault Refusal :=
  runCommand (.adcWriteReg nbytes addr value) (fun s =>
    match byteCount? nbytes, bits? 6 addr with
    | some nb, some a =>
      match bytesValue? nb value with
      | some v =>
        (prim (adcWrite a nb v) s).bind fun r s =>
        match r with
        | .ok _ => ret .nothing s
        | .busError => raise .busError s
      | none => raise .invalidArgument s
    | _, _ => raise .invalidArgument s) s

/-- ADC_READ_REG, R208: raw; no state. -/
def execAdcReadReg (nbytes : BitVec 4) (addr : BitVec 8) (s : State) : Host.Outcome State Fault Refusal :=
  runCommand (.adcReadReg nbytes addr) (fun s =>
    match byteCount? nbytes, bits? 6 addr with
    | some nb, some a =>
      (prim (adcRead .cmd a nb) s).bind fun r s =>
      match r with
      | .ok bs => ret (.word (packBytes bs)) s
      | .busError => raise .busError s
    | _, _ => raise .invalidArgument s) s

end Sys2Proof.Machine
end

