-- ==== Sys2Proof/Machine/Amp.lean ====
section
/-! DEFINITION. The programmable-gain amplifier register encoder, 42_amp.md: the write-and-verify of R259 and one meaning per
command of section 2. -/

namespace Sys2Proof.Machine

/-- The readback compares equal under `AMP_ECHO_MASK`, R259. -/
def ampMatches (p : Params) (bs : List Byte) (v : Byte) : Bool :=
  decide ((packBytes bs).setWidth 8 &&& p.ampEchoMask = v &&& p.ampEchoMask)

/-- `WriteVerifyAmp(addr, v)`, R259: every failure inside is VerifyFailed. Two primitives. -/
def writeVerifyAmp (addr : BitVec 7) (v : Byte) (s : State) : Flow Unit :=
  (prim (ampWrite addr v) s).bind fun w s =>
  match w with
  | .ok _ =>
    (prim (ampRead addr) s).bind fun r s =>
    match r with
    | .ok bs => if ampMatches s.par bs v then .go () s else raise .verifyFailed s
    | .busError => raise .verifyFailed s
  | .busError => raise .verifyFailed s

/-- AMP_INIT, R253: identity, then the fault pin, then the two flags. -/
def execAmpInit (s : State) : Host.Outcome State Fault Refusal :=
  runCommand .ampInit (fun s =>
    (prim (ampRead s.par.ampRegId) s).bind fun r s =>
    match r with
    | .busError => raise .busError s
    | .ok bs =>
      if (packBytes bs).setWidth 8 = Config.ampIdExpected then
        (writeVerifyAmp s.par.ampRegFaultcfg s.par.ampFaultcfgValue s).bind fun _ s =>
        ret .nothing (s.setAmp { s.amp with faultIrqEn := true, idOk := true })
      else raise .identityMismatch (s.setAmp { s.amp with idOk := false })) s

/-- AMP_SET_GAIN, R254: gain-mux, then test-mux with the shared high bit, then the triple. -/
def execAmpSetGain (ig og : BitVec 8) (s : State) : Host.Outcome State Fault Refusal :=
  runCommand (.ampSetGain ig og) (fun s =>
    match index? 12 ig, index? 3 og with
    | some i, some o =>
      let tm := testMux o s.amp.tmP s.amp.tmN
      (writeVerifyAmp s.par.ampRegGain (gainMux i o) s).bind fun _ s =>
      (writeVerifyAmp s.par.ampRegTestmux tm s).bind fun _ s =>
      ret (.rational (ampGain s.par i o)) (s.setAmp { s.amp with ig := i, og := o, gain := ampGain s.par i o })
    | _, _ => raise .invalidArgument s) s

/-- AMP_SET_SWITCH, R255. -/
def execAmpSetSwitch (p n : BitVec 8) (s : State) : Host.Outcome State Fault Refusal :=
  runCommand (.ampSetSwitch p n) (fun s =>
    match switchPair? p n with
    | some (a, b) =>
      (writeVerifyAmp s.par.ampRegInmux (inMux a b) s).bind fun _ s =>
      ret .nothing (s.setAmp { s.amp with swP := a, swN := b })
    | none => raise .invalidArgument s) s

/-- AMP_SET_TESTMUX, R256: the held output gain's high bit is sent again. -/
def execAmpSetTestmux (p n : BitVec 8) (s : State) : Host.Outcome State Fault Refusal :=
  runCommand (.ampSetTestmux p n) (fun s =>
    match bits? 2 p, bits? 2 n with
    | some a, some b =>
      (writeVerifyAmp s.par.ampRegTestmux (testMux s.amp.og a b) s).bind fun _ s =>
      ret .nothing (s.setAmp { s.amp with tmP := a, tmN := b })
    | _, _ => raise .invalidArgument s) s

/-- AMP_WRITE_REG, R257: raw, unverified; no state. -/
def execAmpWriteReg (addr : BitVec 8) (value : BitVec 32) (s : State) : Host.Outcome State Fault Refusal :=
  runCommand (.ampWriteReg addr value) (fun s =>
    match bits? 7 addr, bits? 8 value with
    | some a, some v =>
      (prim (ampWrite a v) s).bind fun r s =>
      match r with
      | .ok _ => ret .nothing s
      | .busError => raise .busError s
    | _, _ => raise .invalidArgument s) s

/-- AMP_READ_REG, R258: raw; no state. -/
def execAmpReadReg (addr : BitVec 8) (s : State) : Host.Outcome State Fault Refusal :=
  runCommand (.ampReadReg addr) (fun s =>
    match bits? 7 addr with
    | some a =>
      (prim (ampRead a) s).bind fun r s =>
      match r with
      | .ok bs => ret (.word (packBytes bs)) s
      | .busError => raise .busError s
    | none => raise .invalidArgument s) s

end Sys2Proof.Machine
end

