-- ==== Sys2Proof/Machine/Convert.lean ====
section
/-! DEFINITION. The two query commands of the converter, 43_convert.md section 4: no I/O and no state. -/

namespace Sys2Proof.Machine

/-- SMU_VALUE_TO_CODE, R310. -/
def execSmuValueToCode (channel role : BitVec 4) (range : BitVec 8) (value : BitVec 32) (s : State) :
    Host.Outcome State Fault Refusal :=
  runCommand (.smuValueToCode channel role range value) (fun s =>
    match smuChannel? channel, role? role, index? 6 range, binary32? value with
    | some _, some ro, some r, some x => ret (.code (valueToCode s.par ro r x s.smu.ch.cllv s.smu.ch.clhv).1) s
    | _, _, _, _ => raise .invalidArgument s) s

/-- SMU_CODE_TO_VALUE, R311. -/
def execSmuCodeToValue (channel kind : BitVec 4) (range : BitVec 8) (code : BitVec 32) (s : State) :
    Host.Outcome State Fault Refusal :=
  runCommand (.smuCodeToValue channel kind range code) (fun s =>
    match smuChannel? channel, measKind? kind, index? 6 range, bits? 24 code with
    | some _, some .voltage, some _, some c => ret (.rational (adcToVolts s.par c * s.smu.ch.mvGainCorr)) s
    | some _, some .current, some r, some c => ret (.rational (adcToAmps s.par c r)) s
    | _, _, _, _ => raise .invalidArgument s) s

end Sys2Proof.Machine
end

