-- ==== Sys2Proof/Machine/Pmu.lean ====
section
/-! DEFINITION. The PMU register transactor with readback validation, 40_pmu.md: the shared procedures of section 1 and one
meaning per command of section 2. -/

namespace Sys2Proof.Machine

/-! ### Shared procedures -/

/-- A requirement on what has been read: run on, or fail. -/
def need (c : FailCode) (holds : Bool) (s : State) : Flow Unit := if holds then .go () s else raise c s

/-- The readback of a register compares equal under the echo mask, R141, 30_encoding.md R123. -/
def regMatches (rb : Word32) (v echo : BitVec 22) : Bool := decide (rb.setWidth 22 &&& echo = v &&& echo)

/-- The shape R141 and R142 share: a write, a read of the same register, and a comparison of the readback; every failure
inside is VerifyFailed (90_conflicts.md C10). Two primitives. -/
def writeThenVerify (chmask : BitVec 4) (mode : BitVec 2) (written request : BitVec 22) (holds : Word32 → Bool)
    (s : State) : Flow Unit :=
  (prim (pmuTx .write chmask mode written) s).bind fun w s =>
  match w with
  | .ok _ =>
    (prim (pmuTx .read chmask mode request) s).bind fun r s =>
    match r with
    | .ok rb => need .verifyFailed (holds rb) s
    | .busy => raise .verifyFailed s
    | .busError => raise .verifyFailed s
  | .busy => raise .verifyFailed s
  | .busError => raise .verifyFailed s

/-- `WriteVerifyReg(chmask, v, echoMask)`, R141: the compare is under the echo mask. -/
def writeVerifyReg (chmask : BitVec 4) (v echo : BitVec 22) (s : State) : Flow Unit :=
  writeThenVerify chmask s.par.modeReg v 0 (fun rb => regMatches rb v echo) s

/-- `WriteVerifyDac(c, sub, code)`, R142: the compare is of the low 16 bits. -/
def writeVerifyDac (c : Fin 4) (sub : BitVec 6) (code : BitVec 16) (s : State) : Flow Unit :=
  writeThenVerify (chMask c) s.par.modeDac (dacPayload sub code) (dacPayload sub 0)
    (fun rb => decide (rb.setWidth 16 = code)) s

/-- `S.sh.sys <- v`. -/
def commitSys (v : BitVec 22) (s : State) : State := s.setPmu { s.pmu with sys := v }

/-- `S.sh.ch[c] <- v`. -/
def commitCh (c : Fin 4) (v : BitVec 22) (s : State) : State := s.setPmu { s.pmu with ch := s.pmu.ch.set c v }

/-- `S.pmuPhase <- ph`. -/
def setPhase (ph : PmuPhase) (s : State) : State := s.setPmu { s.pmu with phase := ph }

/-- The commit rule for a channel register, R144: write and verify the new value, then assign the shadow. -/
def updateCh (c : Fin 4) (v : BitVec 22) (s : State) : Flow Unit :=
  (writeVerifyReg (chMask c) v s.par.chEchoMask s).bind fun _ s => .go () (commitCh c v s)

/-- The body of PMU_SET_CHSTATE, R148, and of `StateW`, 44_sequencer.md R350. -/
def updateChState (c : Fin 4) (st : ChanState) (s : State) : Flow Unit :=
  updateCh c (withChanState s.par.chLayout s.pmu.ch[c] st) s

/-- The body of PMU_SET_MODE, R155, and of `ModeW`, 44_sequencer.md R350. -/
def updateMode (c : Fin 4) (m : ForceMode) (s : State) : Flow Unit :=
  updateCh c (withForceMode s.par.chLayout s.pmu.ch[c] m) s

/-- The body of PMU_SET_RANGE, R149, and of `RangeW`, 44_sequencer.md R350. -/
def updateRange (c : Fin 4) (code : BitVec 3) (s : State) : Flow Unit :=
  updateCh c (withRangeCode s.par.chLayout s.pmu.ch[c] code) s

/-! ### PMU_INIT -/

/-- Primitive 1 of PMU_INIT, R150, one atomic step: the phase to Reset, the reset line low then high, the chip-select idle
high, the settle wait. -/
def pmuSettle (s : State) : Bool × State :=
  busyWait (driveCs .pmu true (drivePmuReset true (drivePmuReset false (setPhase .reset s))))

/-- One channel of PMU_INIT, R150: the default written and verified, then the shadow. -/
def initChannel (c : Fin 4) (s : State) : Flow Unit := updateCh c s.par.chctrlDefault s

/-- PMU_INIT, R150: 11 primitives in the successful case. DEDUCED, unsafe: R36 and R38 say that reserved bits are written
0, R150 sends the defaults as they are; a parameter SYSCTRL_DEFAULT or CHCTRL_DEFAULT in which reserved bits are set is sent as
given (log 28). -/
def execPmuInit (s : State) : Host.Outcome State Fault Refusal :=
  runCommand .pmuInit (fun s =>
    (prim pmuSettle s).bind fun ready s =>
    (need .busy ready s).bind fun _ s =>
    (writeVerifyReg 0 s.par.sysctrlDefault s.par.sysEchoMask s).bind fun _ s =>
    (initChannel 0 (setPhase .systemConfigured (commitSys s.par.sysctrlDefault s))).bind fun _ s =>
    (initChannel 1 s).bind fun _ s =>
    (initChannel 2 s).bind fun _ s =>
    (initChannel 3 s).bind fun _ s =>
    ret .nothing (setPhase .perChannelConfigured s)) s

/-! ### Raw and field commands -/

/-- PMU_TRANSACT, R145: one raw transaction; no shadow is updated. -/
def execPmuTransact (chmask dir : BitVec 4) (mode : BitVec 8) (data : BitVec 32) (s : State) :
    Host.Outcome State Fault Refusal :=
  runCommand (.pmuTransact chmask dir mode data) (fun s =>
    match dir? dir, bits? 2 mode, bits? 22 data with
    | some d, some m, some v =>
      (prim (pmuTx d chmask m v) s).bind fun r s =>
      match r with
      | .ok w => ret (.word w) s
      | .busError => raise .busError s
      | .busy => raise .busy s
    | _, _, _ => raise .invalidArgument s) s

/-- PMU_WRITE_SYSCTRL, R146. -/
def execPmuWriteSysctrl (value : BitVec 32) (s : State) : Host.Outcome State Fault Refusal :=
  runCommand (.pmuWriteSysctrl value) (fun s =>
    match bits? 22 value with
    | some v =>
      (writeVerifyReg 0 v s.par.sysEchoMask s).bind fun _ s => ret .nothing (commitSys v s)
    | none => raise .invalidArgument s) s

/-- PMU_WRITE_CHCTRL, R147. -/
def execPmuWriteChctrl (channel : BitVec 4) (value : BitVec 32) (s : State) : Host.Outcome State Fault Refusal :=
  runCommand (.pmuWriteChctrl channel value) (fun s =>
    match channel? channel, bits? 22 value with
    | some c, some v => (updateCh c v s).bind fun _ s => ret .nothing s
    | _, _ => raise .invalidArgument s) s

/-- PMU_SET_CHSTATE, R148. -/
def execPmuSetChstate (channel state : BitVec 4) (s : State) : Host.Outcome State Fault Refusal :=
  runCommand (.pmuSetChstate channel state) (fun s =>
    match channel? channel, chanState? state with
    | some c, some st => (updateChState c st s).bind fun _ s => ret .nothing s
    | _, _ => raise .invalidArgument s) s

/-- PMU_SET_MODE, R155. -/
def execPmuSetMode (channel mode : BitVec 4) (s : State) : Host.Outcome State Fault Refusal :=
  runCommand (.pmuSetMode channel mode) (fun s =>
    match channel? channel, forceMode? mode with
    | some c, some m => (updateMode c m s).bind fun _ s => ret .nothing s
    | _, _ => raise .invalidArgument s) s

/-- PMU_SET_RANGE, R149. -/
def execPmuSetRange (channel code : BitVec 4) (s : State) : Host.Outcome State Fault Refusal :=
  runCommand (.pmuSetRange channel code) (fun s =>
    match channel? channel, hwRange? code with
    | some c, some hw => (updateRange c hw s).bind fun _ s => ret .nothing s
    | _, _ => raise .invalidArgument s) s

/-- PMU_SET_DAC, R151: the code it returns is the code written; no state. -/
def execPmuSetDac (channel : BitVec 4) (subaddr : BitVec 8) (code : BitVec 32) (s : State) :
    Host.Outcome State Fault Refusal :=
  runCommand (.pmuSetDac channel subaddr code) (fun s =>
    match channel? channel, bits? 6 subaddr, bits? 16 code with
    | some c, some sub, some v => (writeVerifyDac c sub v s).bind fun _ s => ret (.code v) s
    | _, _, _ => raise .invalidArgument s) s

end Sys2Proof.Machine
end

