-- ==== Sys2Proof/Machine/Smu.lean ====
section
/-! DEFINITION. The range, mode and state sequencer with dirty-field publish, 44_sequencer.md: the write procedures of R350
and one meaning per command. -/

namespace Sys2Proof.Machine

/-! ### Shared procedures, R350, R351 -/

/-- `PC(c) = c`: the PMU channel an SMU channel drives, R350. -/
def pmuChannelOf (c : Fin 1) : Fin 4 := ⟨c.val, by omega⟩

/-- `DAC_ADDR(role)`, R350. -/
def dacAddr (p : Params) (role : Role) : BitVec 6 := p.dacAddr[role.idx]

/-- The active roles of a mode, force, low clamp, high clamp, R351. -/
def activeRoles : ForceMode → Role × Role × Role
  | .fv => (.fv, .clli, .clhi)
  | .fi => (.fi, .cllv, .clhv)

/-- `role in Active(mode)`, R351. -/
def isActive (mode : ForceMode) (role : Role) : Bool :=
  decide (role = (activeRoles mode).1) || decide (role = (activeRoles mode).2.1) ||
    decide (role = (activeRoles mode).2.2)

/-- `DacW(c, role, r)`, R350: program one DAC from the stored value, in range `r`; the stored value is not written. -/
def dacW (c : Fin 1) (role : Role) (r : Range) (s : State) : Flow Unit :=
  let ch := s.smu.ch
  writeVerifyDac (pmuChannelOf c) (dacAddr s.par role) (valueToCode s.par role r (ch.value role) ch.cllv ch.clhv).1 s

/-- `RangeW(c, hw)`, R350. -/
def rangeW (c : Fin 1) (hw : BitVec 3) (s : State) : Flow Unit := updateRange (pmuChannelOf c) hw s

/-- `ModeW(c, m)`, R350. -/
def modeW (c : Fin 1) (m : ForceMode) (s : State) : Flow Unit := updateMode (pmuChannelOf c) m s

/-- `StateW(c, st)`, R350. -/
def stateW (c : Fin 1) (st : ChanState) (s : State) : Flow Unit := updateChState (pmuChannelOf c) st s

/-- Write the channel state. -/
def setCh (ch : SmuChannel) (s : State) : State := s.setSmu { s.smu with ch := ch }

/-! ### SMU_SET_VALUE, R352 -/

/-- The end of SMU_SET_VALUE: the effective value stored, the role's dirty bit set, the code returned. -/
def storeValue (role : Role) (code : BitVec 16) (xe : Rat) (s : State) : Flow Unit :=
  ret (.code code) (setCh ((s.smu.ch.setValue role xe).mark (dbit role)) s)

/-- SMU_SET_VALUE, R352: the DAC of an active role is written and verified; an inactive role is stored only. -/
def execSmuSetValue (channel role : BitVec 4) (value : BitVec 32) (s : State) : Host.Outcome State Fault Refusal :=
  runCommand (.smuSetValue channel role value) (fun s =>
    match smuChannel? channel, role? role, binary32? value with
    | some c, some ro, some x =>
      let v := valueToCode s.par ro s.smu.ch.range x s.smu.ch.cllv s.smu.ch.clhv
      if isActive s.smu.ch.mode ro then
        (writeVerifyDac (pmuChannelOf c) (dacAddr s.par ro) v.1 s).bind fun _ s => storeValue ro v.1 v.2 s
      else storeValue ro v.1 v.2 s
    | _, _, _ => raise .invalidArgument s) s

/-! ### SMU_SET_RANGE, R353 -/

/-- Both current clamps programmed for range `r'`. -/
def clampsW (c : Fin 1) (r' : Range) (s : State) : Flow Unit :=
  (dacW c .clli r' s).bind fun _ s => dacW c .clhi r' s

/-- The hardware steps of a range switch in force-voltage mode, R353: clamps before the range when it grows, after when it
shrinks. -/
def switchRangeFv (c : Fin 1) (r r' : Range) (s : State) : Flow Unit :=
  let hw := s.par.rangeHwCode[r']
  if largerRange s.par r' r then (clampsW c r' s).bind fun _ s => rangeW c hw s
  else (rangeW c hw s).bind fun _ s => clampsW c r' s

/-- The hardware steps of a range switch in force-current mode, R353: between two extended ranges the conservative code
first; else the DAC before the range when it grows, after when it shrinks. -/
def switchRangeFi (c : Fin 1) (r r' : Range) (s : State) : Flow Unit :=
  let hw := s.par.rangeHwCode[r']
  if extendedRange s.par r && extendedRange s.par r' then
    (dacW c .fi (rCons s.par) s).bind fun _ s => (rangeW c hw s).bind fun _ s => dacW c .fi r' s
  else if largerRange s.par r' r then (dacW c .fi r' s).bind fun _ s => rangeW c hw s
  else (rangeW c hw s).bind fun _ s => dacW c .fi r' s

/-- The hardware steps of a range switch, by the channel's mode, R353. -/
def switchRange (c : Fin 1) (r' : Range) (s : State) : Flow Unit :=
  match s.smu.ch.mode with
  | .fv => switchRangeFv c s.smu.ch.range r' s
  | .fi => switchRangeFi c s.smu.ch.range r' s

/-- SMU_SET_RANGE, R353: the held range is a no-op (R359). -/
def execSmuSetRange (channel range : BitVec 4) (s : State) : Host.Outcome State Fault Refusal :=
  runCommand (.smuSetRange channel range) (fun s =>
    match smuChannel? channel, index? 6 range with
    | some c, some r' =>
      if r' = s.smu.ch.range then ret .nothing s
      else (switchRange c r' s).bind fun _ s =>
        ret .nothing (setCh (SmuChannel.mark { s.smu.ch with range := r' } dbitRange) s)
    | _, _ => raise .invalidArgument s) s

/-! ### SMU_SET_MODE, R354 -/

/-- The three DACs of the new mode, in the order force, low clamp, high clamp, in the present range, R354. -/
def pushMode (c : Fin 1) (m : ForceMode) (s : State) : Flow Unit :=
  let a := activeRoles m
  (dacW c a.1 s.smu.ch.range s).bind fun _ s =>
  (dacW c a.2.1 s.smu.ch.range s).bind fun _ s =>
  dacW c a.2.2 s.smu.ch.range s

/-- SMU_SET_MODE, R354: the held mode is a no-op. -/
def execSmuSetMode (channel mode : BitVec 4) (s : State) : Host.Outcome State Fault Refusal :=
  runCommand (.smuSetMode channel mode) (fun s =>
    match smuChannel? channel, forceMode? mode with
    | some c, some m =>
      if m = s.smu.ch.mode then ret .nothing s
      else
        (pushMode c m s).bind fun _ s =>
        (modeW c m s).bind fun _ s =>
        ret .nothing (setCh (SmuChannel.mark { s.smu.ch with mode := m } dbitMode) s)
    | _, _ => raise .invalidArgument s) s

/-! ### SMU_SET_STATE, R355 -/

/-- SMU_SET_STATE, R355: the held state is a no-op. -/
def execSmuSetState (channel state : BitVec 4) (s : State) : Host.Outcome State Fault Refusal :=
  runCommand (.smuSetState channel state) (fun s =>
    match smuChannel? channel, enableState? state with
    | some c, some st =>
      if st = s.smu.ch.state then ret .nothing s
      else (stateW c st.chanState s).bind fun _ s =>
        ret .nothing (setCh (SmuChannel.mark { s.smu.ch with state := st } dbitState) s)
    | _, _ => raise .invalidArgument s) s

/-! ### Publish commands -/

/-- SMU_PUBLISH_TICK, R372: the drain; no bus primitive. -/
def execSmuPublishTick (s : State) : Host.Outcome State Fault Refusal :=
  runCommand .smuPublishTick (fun s => ret .nothing (drain s)) s

/-- SMU_QUEUE_FULL_UPDATE, R373: every dirty bit and `forcePublish`; no bus primitive. -/
def execSmuQueueFullUpdate (s : State) : Host.Outcome State Fault Refusal :=
  runCommand .smuQueueFullUpdate (fun s =>
    ret .nothing (s.setSmu { ch := { s.smu.ch with dirty := dirtyAll }, forcePublish := true })) s

end Sys2Proof.Machine
end

