-- ==== Sys2Proof/Machine/Dispatch.lean ====
section
/-! DEFINITION. One arm per command: its meaning. -/

namespace Sys2Proof.Machine

def exec (i : Instr) (s : State) : Host.Outcome State Fault Refusal :=
  match i with
  | .pmuInit => Sys2Proof.Machine.execPmuInit s
  | .pmuTransact chmask dir mode data => Sys2Proof.Machine.execPmuTransact chmask dir mode data s
  | .pmuWriteSysctrl value => Sys2Proof.Machine.execPmuWriteSysctrl value s
  | .pmuWriteChctrl channel value => Sys2Proof.Machine.execPmuWriteChctrl channel value s
  | .pmuSetChstate channel state => Sys2Proof.Machine.execPmuSetChstate channel state s
  | .pmuSetMode channel mode => Sys2Proof.Machine.execPmuSetMode channel mode s
  | .pmuSetRange channel code => Sys2Proof.Machine.execPmuSetRange channel code s
  | .pmuSetDac channel subaddr code => Sys2Proof.Machine.execPmuSetDac channel subaddr code s
  | .adcStart => Sys2Proof.Machine.execAdcStart s
  | .adcStop => Sys2Proof.Machine.execAdcStop s
  | .adcConfigCh channel enable pos neg => Sys2Proof.Machine.execAdcConfigCh channel enable pos neg s
  | .adcWriteReg nbytes addr value => Sys2Proof.Machine.execAdcWriteReg nbytes addr value s
  | .adcReadReg nbytes addr => Sys2Proof.Machine.execAdcReadReg nbytes addr s
  | .ampInit => Sys2Proof.Machine.execAmpInit s
  | .ampSetGain ig og => Sys2Proof.Machine.execAmpSetGain ig og s
  | .ampSetSwitch p n => Sys2Proof.Machine.execAmpSetSwitch p n s
  | .ampSetTestmux p n => Sys2Proof.Machine.execAmpSetTestmux p n s
  | .ampWriteReg addr value => Sys2Proof.Machine.execAmpWriteReg addr value s
  | .ampReadReg addr => Sys2Proof.Machine.execAmpReadReg addr s
  | .smuSetValue channel role value => Sys2Proof.Machine.execSmuSetValue channel role value s
  | .smuSetRange channel range => Sys2Proof.Machine.execSmuSetRange channel range s
  | .smuSetMode channel mode => Sys2Proof.Machine.execSmuSetMode channel mode s
  | .smuSetState channel state => Sys2Proof.Machine.execSmuSetState channel state s
  | .smuValueToCode channel role range value => Sys2Proof.Machine.execSmuValueToCode channel role range value s
  | .smuCodeToValue channel kind range code => Sys2Proof.Machine.execSmuCodeToValue channel kind range code s
  | .smuPublishTick => Sys2Proof.Machine.execSmuPublishTick s
  | .smuQueueFullUpdate => Sys2Proof.Machine.execSmuQueueFullUpdate s

end Sys2Proof.Machine
end

