-- ==== Sys2Proof/Decode.lean ====
section
/-! DEFINITION. The command word: the decoder, total on every 64-bit word, and after it the encoder (30_encoding.md R110,
R112, R114, R115, R117). -/

namespace Sys2Proof

/-! ### The fields of a command word, 30_encoding.md R110 -/

/-- `OPC = CW[63:56]`. -/
def fieldOpc (w : CmdWord) : BitVec 8 := w.extractLsb' 56 8
/-- `CH = CW[55:52]`. -/
def fieldCh (w : CmdWord) : BitVec 4 := w.extractLsb' 52 4
/-- `SEL = CW[51:48]`. -/
def fieldSel (w : CmdWord) : BitVec 4 := w.extractLsb' 48 4
/-- `A = CW[47:40]`. -/
def fieldA (w : CmdWord) : BitVec 8 := w.extractLsb' 40 8
/-- `B = CW[39:32]`. -/
def fieldB (w : CmdWord) : BitVec 8 := w.extractLsb' 32 8
/-- `D = CW[31:0]`. -/
def fieldD (w : CmdWord) : BitVec 32 := w.extractLsb' 0 32

/-- Why a word is no command. -/
inductive DecodeError where
  /-- An opcode that 30_encoding.md R114 does not list: R115 calls it reserved. -/
  | reservedOpcode (opc : BitVec 8)
deriving DecidableEq, Repr, Inhabited

/-- The decoder, 30_encoding.md R114: the opcode selects the command and no other bit takes part; R112: every operand is
its field, without scaling or extension; R115: an unassigned opcode is reserved. -/
def decode (w : CmdWord) : Except DecodeError Instr :=
  match (fieldOpc w).toNat with
  | 0x10 => .ok .pmuInit
  | 0x11 => .ok (.pmuTransact (fieldCh w) (fieldSel w) (fieldA w) (fieldD w))
  | 0x12 => .ok (.pmuWriteSysctrl (fieldD w))
  | 0x13 => .ok (.pmuWriteChctrl (fieldCh w) (fieldD w))
  | 0x14 => .ok (.pmuSetChstate (fieldCh w) (fieldSel w))
  | 0x15 => .ok (.pmuSetMode (fieldCh w) (fieldSel w))
  | 0x16 => .ok (.pmuSetRange (fieldCh w) (fieldSel w))
  | 0x17 => .ok (.pmuSetDac (fieldCh w) (fieldA w) (fieldD w))
  | 0x20 => .ok .adcStart
  | 0x21 => .ok .adcStop
  | 0x22 => .ok (.adcConfigCh (fieldCh w) (fieldSel w) (fieldA w) (fieldB w))
  | 0x23 => .ok (.adcWriteReg (fieldSel w) (fieldA w) (fieldD w))
  | 0x24 => .ok (.adcReadReg (fieldSel w) (fieldA w))
  | 0x30 => .ok .ampInit
  | 0x31 => .ok (.ampSetGain (fieldA w) (fieldB w))
  | 0x32 => .ok (.ampSetSwitch (fieldA w) (fieldB w))
  | 0x33 => .ok (.ampSetTestmux (fieldA w) (fieldB w))
  | 0x34 => .ok (.ampWriteReg (fieldA w) (fieldD w))
  | 0x35 => .ok (.ampReadReg (fieldA w))
  | 0x40 => .ok (.smuSetValue (fieldCh w) (fieldSel w) (fieldD w))
  | 0x41 => .ok (.smuSetRange (fieldCh w) (fieldSel w))
  | 0x42 => .ok (.smuSetMode (fieldCh w) (fieldSel w))
  | 0x43 => .ok (.smuSetState (fieldCh w) (fieldSel w))
  | 0x44 => .ok (.smuValueToCode (fieldCh w) (fieldSel w) (fieldA w) (fieldD w))
  | 0x45 => .ok (.smuCodeToValue (fieldCh w) (fieldSel w) (fieldA w) (fieldD w))
  | 0x46 => .ok .smuPublishTick
  | 0x47 => .ok .smuQueueFullUpdate
  | _ => .error (.reservedOpcode (fieldOpc w))

/-- The command word that the low `nbits` bits of `w` are (a command word is one 64-bit word, so its table row and its
word are numbered alike). -/
def tableWord (nbits w : Nat) : CmdWord := BitVec.ofNat 64 (w % 2 ^ nbits)

/-- The instruction the decoder reads from an instruction whose bits are `w`, numbered as spec/opcode_table.json numbers
them. -/
def decodeTableWord (nbits w : Nat) : Option Instr :=
  match decode (tableWord nbits w) with
  | .ok i => some i
  | .error _ => none

/-! ### The encoder -/

/-- A command word from its fields, 30_encoding.md R110. -/
def packWord (opc : BitVec 8) (ch sel : BitVec 4) (a b : BitVec 8) (d : BitVec 32) : CmdWord :=
  opc ++ ch ++ sel ++ a ++ b ++ d

/-- The opcode of a command, 30_encoding.md R114. -/
def Instr.opcode : Instr → BitVec 8
  | .pmuInit => 0x10
  | .pmuTransact .. => 0x11
  | .pmuWriteSysctrl _ => 0x12
  | .pmuWriteChctrl .. => 0x13
  | .pmuSetChstate .. => 0x14
  | .pmuSetMode .. => 0x15
  | .pmuSetRange .. => 0x16
  | .pmuSetDac .. => 0x17
  | .adcStart => 0x20
  | .adcStop => 0x21
  | .adcConfigCh .. => 0x22
  | .adcWriteReg .. => 0x23
  | .adcReadReg .. => 0x24
  | .ampInit => 0x30
  | .ampSetGain .. => 0x31
  | .ampSetSwitch .. => 0x32
  | .ampSetTestmux .. => 0x33
  | .ampWriteReg .. => 0x34
  | .ampReadReg _ => 0x35
  | .smuSetValue .. => 0x40
  | .smuSetRange .. => 0x41
  | .smuSetMode .. => 0x42
  | .smuSetState .. => 0x43
  | .smuValueToCode .. => 0x44
  | .smuCodeToValue .. => 0x45
  | .smuPublishTick => 0x46
  | .smuQueueFullUpdate => 0x47

/-- The word of a command, its operands in the columns of 30_encoding.md R114 and its reserved fields zero (R112). -/
def encode (i : Instr) : CmdWord :=
  match i with
  | .pmuInit => packWord i.opcode 0 0 0 0 0
  | .pmuTransact chmask dir mode data => packWord i.opcode chmask dir mode 0 data
  | .pmuWriteSysctrl value => packWord i.opcode 0 0 0 0 value
  | .pmuWriteChctrl channel value => packWord i.opcode channel 0 0 0 value
  | .pmuSetChstate channel state => packWord i.opcode channel state 0 0 0
  | .pmuSetMode channel mode => packWord i.opcode channel mode 0 0 0
  | .pmuSetRange channel code => packWord i.opcode channel code 0 0 0
  | .pmuSetDac channel subaddr code => packWord i.opcode channel 0 subaddr 0 code
  | .adcStart => packWord i.opcode 0 0 0 0 0
  | .adcStop => packWord i.opcode 0 0 0 0 0
  | .adcConfigCh channel enable pos neg => packWord i.opcode channel enable pos neg 0
  | .adcWriteReg nbytes addr value => packWord i.opcode 0 nbytes addr 0 value
  | .adcReadReg nbytes addr => packWord i.opcode 0 nbytes addr 0 0
  | .ampInit => packWord i.opcode 0 0 0 0 0
  | .ampSetGain ig og => packWord i.opcode 0 0 ig og 0
  | .ampSetSwitch p n => packWord i.opcode 0 0 p n 0
  | .ampSetTestmux p n => packWord i.opcode 0 0 p n 0
  | .ampWriteReg addr value => packWord i.opcode 0 0 addr 0 value
  | .ampReadReg addr => packWord i.opcode 0 0 addr 0 0
  | .smuSetValue channel role value => packWord i.opcode channel role 0 0 value
  | .smuSetRange channel range => packWord i.opcode channel range 0 0 0
  | .smuSetMode channel mode => packWord i.opcode channel mode 0 0 0
  | .smuSetState channel state => packWord i.opcode channel state 0 0 0
  | .smuValueToCode channel role range value => packWord i.opcode channel role range 0 value
  | .smuCodeToValue channel kind range code => packWord i.opcode channel kind range 0 code
  | .smuPublishTick => packWord i.opcode 0 0 0 0 0
  | .smuQueueFullUpdate => packWord i.opcode 0 0 0 0 0

end Sys2Proof
end

