-- ==== Sys2Proof/Machine/Fetch.lean ====
section
/-! DEFINITION. Whose turn it is: the schedule between two commands, and the host command port (60_exceptions.md R405 to
R407). -/

namespace Sys2Proof.Machine

/-- What the next step of the machine is: settled (an agent's step, a reserved word, or nothing to do), or a command to
run. -/
inductive Turn where
  | settled (s : State)
  | run (i : Instr) (s : State)
deriving Repr

/-- The command sequencer's turn between two commands: it takes the next word from the port and decodes it (R405,
30_encoding.md R114). A reserved opcode ends at once with InvalidArgument (R115); an empty port leaves it waiting. -/
def portTurn (s : State) : Turn :=
  match s.port with
  | [] => .settled s
  | w :: ws =>
    match decode w with
    | .ok i => .run i (s.setPort ws)
    | .error _ => .settled (rejectWord (s.setPort ws))

/-- The turn when the schedule has run out: the enabled step of the highest priority, "scheduled preemptively by priority"
(R407): sample task, dispatch task, forced publish, then the next command (DESIGN CHOICE, log 2). -/
def defaultTurn (s : State) : Turn :=
  if s.adc.wakePending then .settled (sampleStep s)
  else if s.adc.dispatchPending then .settled (dispatchStep s)
  else if s.cmd.op = none ∧ s.smu.forcePublish = true then .settled (forcedPublishStep s)
  else portTurn s

/-- The next turn: the schedule's next move, if it has one. -/
def nextTurn (s : State) : Turn :=
  match s.env.sched with
  | [] => defaultTurn s
  | m :: ms =>
    match m with
    | .sequencer => portTurn (setSched ms s)
    | m => .settled (agentMove m (setSched ms s))

/-- A word put at the head of the command port and the next turn given to the command sequencer, as the host and the
scheduler do when a command is issued (DESIGN CHOICE, log 7). -/
def issueWord (w : CmdWord) (s : State) : State :=
  setSched (.sequencer :: s.env.sched) (s.setPort (w :: s.port))

end Sys2Proof.Machine
end

