-- ==== Sys2Proof/Machine/Step.lean ====
section
/-! DEFINITION. One step of the machine: one agent's step, or one whole command with the agent steps the schedule puts
between its primitives. -/

namespace Sys2Proof.Machine

/-- One step. -/
def step (s : State) : Host.Outcome State Fault Refusal :=
  match nextTurn s with
  | .settled s' => .next s'
  | .run i s' => exec i s'

/-- `s` with the word stored where the next step fetches its instruction: at the head of the command port, the sequencer
scheduled next. -/
def State.withFetchWord (s : State) (nbits w : Nat) : State := issueWord (tableWord nbits w) s

end Sys2Proof.Machine
end

