-- ==== Sys2Proof/WellFormed.lean ====
section
/-! DEFINITION. Which operands are legal: 30_encoding.md R112 (unused high bits of a used field are zero), R113 (no NaN, no
infinity), R116 (ranges), and the one rule of 42_amp.md R255 over two operands. A command that is not well-formed still
executes: it answers InvalidArgument. -/

namespace Sys2Proof

namespace WellFormed

/-- A PMU or ADC channel is below 4, R116. -/
def channel4 (ch : BitVec 4) : Bool := decide (ch < 4)

/-- The SMU channel is below `N_SMU_CH = 1`, R116. -/
def smuChannel (ch : BitVec 4) : Bool := decide (ch = 0)

/-- A field of `n` bits inside a wider operand: the bits above are zero, R112. -/
def fits (n : Nat) (v : BitVec w) : Bool := decide (v.toNat < 2 ^ n)

/-- An enumeration or table index below `n`, R116. -/
def below (n : Nat) (v : BitVec w) : Bool := decide (v.toNat < n)

/-- A byte count of 1 to 4, R116. -/
def byteCount (nb : BitVec 4) : Bool := decide (1 ≤ nb.toNat) && decide (nb.toNat ≤ 4)

/-- A binary32 that is neither a NaN nor an infinity: the exponent field is not 0xFF, R113. -/
def finite32 (d : BitVec 32) : Bool := decide (d.extractLsb' 23 8 ≠ 0xFF)

/-- SHORT (3) on both sides or on neither, 42_amp.md R255. -/
def shortTogether (p n : BitVec 8) : Bool := decide (p = 3) == decide (n = 3)

end WellFormed

open WellFormed in
/-- Every operand of the command is one its rule accepts. -/
def Instr.wellFormed : Instr → Bool
  | .pmuInit => true
  | .pmuTransact _ dir mode data => fits 1 dir && fits 2 mode && fits 22 data
  | .pmuWriteSysctrl value => fits 22 value
  | .pmuWriteChctrl channel value => channel4 channel && fits 22 value
  | .pmuSetChstate channel state => channel4 channel && below 3 state
  | .pmuSetMode channel mode => channel4 channel && below 2 mode
  | .pmuSetRange channel code => channel4 channel && below 5 code
  | .pmuSetDac channel subaddr code => channel4 channel && fits 6 subaddr && fits 16 code
  | .adcStart => true
  | .adcStop => true
  | .adcConfigCh channel enable pos neg => channel4 channel && fits 1 enable && fits 5 pos && fits 5 neg
  | .adcWriteReg nbytes addr value => byteCount nbytes && fits 6 addr && fits (8 * nbytes.toNat) value
  | .adcReadReg nbytes addr => byteCount nbytes && fits 6 addr
  | .ampInit => true
  | .ampSetGain ig og => below 12 ig && below 3 og
  | .ampSetSwitch p n => below 4 p && below 4 n && shortTogether p n
  | .ampSetTestmux p n => below 4 p && below 4 n
  | .ampWriteReg addr value => fits 7 addr && fits 8 value
  | .ampReadReg addr => fits 7 addr
  | .smuSetValue channel role value => smuChannel channel && below 6 role && finite32 value
  | .smuSetRange channel range => smuChannel channel && below 6 range
  | .smuSetMode channel mode => smuChannel channel && below 2 mode
  | .smuSetState channel state => smuChannel channel && below 3 state
  | .smuValueToCode channel role range value => smuChannel channel && below 6 role && below 6 range && finite32 value
  | .smuCodeToValue channel kind range code => smuChannel channel && below 2 kind && below 6 range && fits 24 code
  | .smuPublishTick => true
  | .smuQueueFullUpdate => true

end Sys2Proof
end

