-- ==== Sys2Proof/Safety.lean ====
section
/-! DEFINITION. What a good state and a quiet run are, in the terms the claims use: the invariants the spec names, the
command's plan of wire frames (44_sequencer.md R357), and the conditions under which the environment stays out of a
command's way. -/

namespace Sys2Proof.Machine

/-! ### Invariants the spec names -/

/-- Between steps no command is in progress (10_state.md R31), the bus lock is free (R52) and the ADC and amplifier
chip-selects are deasserted (R53). -/
def BetweenSteps (s : State) : Prop :=
  s.cmd = .idle ∧ s.bus.owner = .none ∧ s.bus.csADC = true ∧ s.bus.csAMP = true

/-- 42_amp.md R252: the derived gain is the product of the selected gains. -/
def AmpGainConsistent (s : State) : Prop := s.amp.gain = s.par.ig[s.amp.ig] * s.par.og[s.amp.og]

/-- 43_convert.md R314: the stored voltage clamps stay in their windows and at least 500 mV apart. -/
def VoltageClampsSeparated (s : State) : Prop :=
  -(45 / 4) ≤ s.smu.ch.cllv ∧ s.smu.ch.cllv ≤ 43 / 4 ∧
  -(43 / 4) ≤ s.smu.ch.clhv ∧ s.smu.ch.clhv ≤ 45 / 4 ∧
  1 / 2 ≤ s.smu.ch.clhv - s.smu.ch.cllv

/-- 10_state.md R48, 93_implementation_defined.md: `sense`, `mvGainCorr` and `miMult` are stuck at their reset values. -/
def StuckFields (s : State) : Prop :=
  s.smu.ch.sense = .loc ∧ s.smu.ch.mvGainCorr = s.par.mvGainCorr0 ∧ s.smu.ch.miMult = s.par.miMult0

/-- A value 43_convert.md R302 and R303 let a role hold in a range, beside the stored voltage clamps: in the extended window,
and a current clamp outside its zone, a voltage clamp at least 500 mV from its partner. -/
def LegalValue (p : Params) (role : Role) (r : Range) (cllv clhv x : Rat) : Prop :=
  (extendedWindow p role r).1 ≤ x ∧ x ≤ (extendedWindow p role r).2 ∧
  match role with
  | .fv => True
  | .fi => True
  | .clli => x ≤ -ieq p r
  | .clhi => ieq p r ≤ x
  | .cllv => x ≤ clhv - 1 / 2
  | .clhv => cllv + 1 / 2 ≤ x

/-! ### Quiet conditions -/

/-- The schedule puts no other agent's step inside the command. -/
def Quiet (s : State) : Prop := s.env.sched = []

/-- The environment does not reset the block before the schedule runs out. -/
def NoReset (s : State) : Prop := Move.reset ∉ s.env.sched

/-! ### What a command leaves -/

/-- The state after a command that used the PMU quietly: its result, its PMU and SMU state, the events on the wires, and
what is left of the answers; the PMU chip-select is deasserted; nothing else changes. -/
def afterPmu (s : State) (r : Result) (pmu : PmuState) (smu : SmuState) (events : List BusEvent)
    (answers : List Answer) (busy : List Bool) : State :=
  { s with
    cmd := .idle, pmu := pmu, smu := smu
    bus := { s.bus with owner := .none, csPMU := true }
    results := s.results ++ [r], trace := s.trace ++ events
    env := { s.env with pmu := answers, busy := busy } }

/-- The same for a command that used the ADC. -/
def afterAdc (s : State) (r : Result) (adc : AdcState) (events : List BusEvent) (answers : List Answer) : State :=
  { s with
    cmd := .idle, adc := adc
    bus := { s.bus with owner := .none, csADC := true }
    results := s.results ++ [r], trace := s.trace ++ events
    env := { s.env with adc := answers } }

/-- The same for a command that used the amplifier. -/
def afterAmp (s : State) (r : Result) (amp : AmpState) (events : List BusEvent) (answers : List Answer) : State :=
  { s with
    cmd := .idle, amp := amp
    bus := { s.bus with owner := .none, csAMP := true }
    results := s.results ++ [r], trace := s.trace ++ events
    env := { s.env with amp := answers } }

/-- The state after a command that touched neither bus nor anything but its result. -/
def afterResult (s : State) (r : Result) : State := { s with cmd := .idle, results := s.results ++ [r] }

/-- The block state of 70_reset_and_hazards.md R450: everything but the ports, the history and the environment is what reset
makes it. `s.bus = .atReset` includes `csPMU` and `pmuReset`, which R451 leaves unspecified: the model's values (log 11). -/
def BlockReset (s : State) : Prop :=
  s.cmd = .idle ∧ s.pmu = .resetFor s.par ∧ s.adc = .atReset ∧ s.smu = ⟨.resetFor s.par, false⟩ ∧ s.amp = .atReset ∧
  s.bus = .atReset

/-! ### The wires of a write-and-verify, 40_pmu.md R141, R142, 42_amp.md R259 -/

/-- The wires of one PMU write-and-verify whose transfers succeed and whose busy line is ready at its first samples. -/
def pmuVerifyEvents (p : Params) (mask : BitVec 4) (mode : BitVec 2) (wdata rdata : BitVec 22) (rb : Word32) :
    List BusEvent :=
  [.xfer .pmu (pmuFrame .write mask mode wdata) 0 (.ok []), .busySample true,
   .pmuRead (pmuFrame .read mask mode rdata) p.pmuReadFill 3 (.ok (bytesOf 3 rb)), .busySample true]

/-- The wires of one amplifier write-and-verify whose transfers succeed. -/
def ampVerifyEvents (addr : BitVec 7) (v : Byte) (rb : Word32) : List BusEvent :=
  [.xfer .amp [ampCommand .write addr, v] 0 (.ok []), .xfer .amp [ampCommand .read addr] 1 (.ok (bytesOf 1 rb))]

/-- What a device answers a row of write-and-verifies with: of each pair the first to the write, the second to its
readback. -/
def verifyScript (ans : List (Word32 × Word32)) : List Answer := ans.flatMap fun a => [.shift a.1, .shift a.2]

/-- The two frames of one register's write-and-verify, 40_pmu.md R141. -/
def regFrames (p : Params) (mask : BitVec 4) (v : BitVec 22) : List (List Byte) :=
  [pmuFrame .write mask p.modeReg v, pmuFrame .read mask p.modeReg 0]

/-- The frames PMU_INIT has sent when it comes to channel `k`, 40_pmu.md R150: the system register's and those of the channels
below `k`. -/
def initFrames (p : Params) (k : Nat) : List (List Byte) :=
  regFrames p 0 p.sysctrlDefault ++ (List.range k).flatMap fun n => regFrames p (1#4 <<< n) p.chctrlDefault

/-! ### The field commands of the PMU, 40_pmu.md R147 to R149, R155 -/

/-- The channel and the new register value of a PMU channel command with legal operands. -/
def channelTarget (s : State) : Instr → Option (Fin 4 × BitVec 22)
  | .pmuWriteChctrl channel value =>
    (channel? channel).bind fun c => (bits? 22 value).map fun v => (c, v)
  | .pmuSetChstate channel state =>
    (channel? channel).bind fun c => (chanState? state).map fun st =>
      (c, withChanState s.par.chLayout s.pmu.ch[c] st)
  | .pmuSetMode channel mode =>
    (channel? channel).bind fun c => (forceMode? mode).map fun m => (c, withForceMode s.par.chLayout s.pmu.ch[c] m)
  | .pmuSetRange channel code =>
    (channel? channel).bind fun c => (hwRange? code).map fun hw => (c, withRangeCode s.par.chLayout s.pmu.ch[c] hw)
  | _ => none

/-! ### The sequencer's plans, 44_sequencer.md R357 -/

/-- One write-and-verify of a plan: a DAC code of a role, or a channel register value. -/
inductive HwStep where
  | dac (role : Role) (code : BitVec 16)
  | reg (v : BitVec 22)
deriving DecidableEq, Repr

/-- The readback a plan's step takes as its write's, 40_pmu.md R141, R142: the code in the low 16 bits, whatever stands above
them, or the register value under CH_ECHO_MASK. -/
def HwStep.verified (p : Params) : HwStep → Word32 → Bool
  | .dac _ code, rb => decide (rb.extractLsb' 0 16 = code)
  | .reg v, rb => decide (rb.extractLsb' 0 22 &&& p.chEchoMask = v &&& p.chEchoMask)

/-- The wires of a plan's step on PMU channel 0 whose readback is `rb`. -/
def HwStep.events (p : Params) : HwStep → Word32 → List BusEvent
  | .dac role code, rb =>
    pmuVerifyEvents p 1 p.modeDac (dacPayload (dacAddr p role) code) (dacPayload (dacAddr p role) 0) rb
  | .reg v, rb => pmuVerifyEvents p 1 p.modeReg v 0 rb

/-- The wires of a whole plan, its steps paired with what the device answers. -/
def planEvents (p : Params) (plan : List HwStep) (ans : List (Word32 × Word32)) : List BusEvent :=
  (plan.zip ans).flatMap fun x => x.1.events p x.2.2

/-- The two frames of a plan's step, the write and its readback request. -/
def HwStep.frames (p : Params) : HwStep → List (List Byte)
  | .dac role code =>
    [pmuFrame .write 1 p.modeDac (dacPayload (dacAddr p role) code),
     pmuFrame .read 1 p.modeDac (dacPayload (dacAddr p role) 0)]
  | .reg v => regFrames p 1 v

/-- The stored value of a role, by name (10_state.md R48). -/
def storedValue (ch : SmuChannel) : Role → Rat
  | .fv => ch.fv
  | .fi => ch.fi
  | .clli => ch.clli
  | .clhi => ch.clhi
  | .cllv => ch.cllv
  | .clhv => ch.clhv

/-- The channel after SMU_SET_VALUE of a role stores `xe`: the role's field and the role's dirty bit, by name and number
(10_state.md R49, 44_sequencer.md R352). -/
def valueStored (ch : SmuChannel) (xe : Rat) : Role → SmuChannel
  | .fv => { ch with fv := xe, dirty := ch.dirty ||| 0x001 }
  | .fi => { ch with fi := xe, dirty := ch.dirty ||| 0x002 }
  | .clli => { ch with clli := xe, dirty := ch.dirty ||| 0x010 }
  | .clhi => { ch with clhi := xe, dirty := ch.dirty ||| 0x020 }
  | .cllv => { ch with cllv := xe, dirty := ch.dirty ||| 0x040 }
  | .clhv => { ch with clhv := xe, dirty := ch.dirty ||| 0x080 }

/-- `D(role, r)` of R357: the DAC of a role, programmed from the stored value in range `r`. -/
def planDac (s : State) (role : Role) (r : Range) : HwStep :=
  .dac role (valueToCode s.par role r (storedValue s.smu.ch role) s.smu.ch.cllv s.smu.ch.clhv).1

/-- `R` of R357: the range select written for range `r'`. -/
def planRange (s : State) (r' : Range) : HwStep :=
  .reg (withRangeCode s.par.chLayout s.pmu.ch[(0 : Fin 4)] s.par.rangeHwCode[r'])

/-- `M` of R357: the mode select. -/
def planMode (s : State) (m : ForceMode) : HwStep :=
  .reg (withForceMode s.par.chLayout s.pmu.ch[(0 : Fin 4)] m)

/-- The SET_RANGE rows of R357. -/
def rangePlan (s : State) (r' : Range) : List HwStep :=
  if r' = s.smu.ch.range then []
  else match s.smu.ch.mode with
    | .fv =>
      if s.par.iFs[s.smu.ch.range] < s.par.iFs[r'] then [planDac s .clli r', planDac s .clhi r', planRange s r']
      else [planRange s r', planDac s .clli r', planDac s .clhi r']
    | .fi =>
      if s.par.extended[s.smu.ch.range] = true ∧ s.par.extended[r'] = true then
        [planDac s .fi (rCons s.par), planRange s r', planDac s .fi r']
      else if s.par.iFs[s.smu.ch.range] < s.par.iFs[r'] then [planDac s .fi r', planRange s r']
      else [planRange s r', planDac s .fi r']

/-- The SET_MODE rows of R357. -/
def modePlan (s : State) (m : ForceMode) : List HwStep :=
  if m = s.smu.ch.mode then []
  else match m with
    | .fv =>
      [planDac s .fv s.smu.ch.range, planDac s .clli s.smu.ch.range, planDac s .clhi s.smu.ch.range, planMode s .fv]
    | .fi =>
      [planDac s .fi s.smu.ch.range, planDac s .cllv s.smu.ch.range, planDac s .clhv s.smu.ch.range, planMode s .fi]

/-- The bytes the PMU was sent, in order: writes and readback requests. -/
def pmuFrames (h : List BusEvent) : List (List Byte) :=
  h.filterMap fun
    | .xfer .pmu out _ _ => some out
    | .pmuRead out _ _ _ => some out
    | _ => none

/-- What the SMU channel keeps when only the callback and the drain have touched it: all but the measured values and the
dirty bitmap (20_memory.md R96). -/
def SameSettings (a b : SmuChannel) : Prop :=
  a.fv = b.fv ∧ a.fi = b.fi ∧ a.clli = b.clli ∧ a.clhi = b.clhi ∧ a.cllv = b.cllv ∧ a.clhv = b.clhv ∧
  a.range = b.range ∧ a.state = b.state ∧ a.mode = b.mode ∧ a.sense = b.sense ∧ a.mvGainCorr = b.mvGainCorr ∧
  a.miMult = b.miMult

/-! ### Result codes a command may return, 60_exceptions.md R400 -/

/-- The failure codes the "raised by" column of R400 gives a command. -/
def failCodes : Instr → List FailCode
  | .pmuInit => [.busy, .verifyFailed]
  | .pmuTransact .. => [.invalidArgument, .busy, .busError]
  | .pmuWriteSysctrl _ => [.invalidArgument, .verifyFailed]
  | .pmuWriteChctrl .. => [.invalidArgument, .verifyFailed]
  | .pmuSetChstate .. => [.invalidArgument, .verifyFailed]
  | .pmuSetMode .. => [.invalidArgument, .verifyFailed]
  | .pmuSetRange .. => [.invalidArgument, .verifyFailed]
  | .pmuSetDac .. => [.invalidArgument, .verifyFailed]
  | .adcStart => []
  | .adcStop => []
  | .adcConfigCh .. => [.invalidArgument, .busError]
  | .adcWriteReg .. => [.invalidArgument, .busError]
  | .adcReadReg .. => [.invalidArgument, .busError]
  | .ampInit => [.busError, .verifyFailed, .identityMismatch]
  | .ampSetGain .. => [.invalidArgument, .verifyFailed]
  | .ampSetSwitch .. => [.invalidArgument, .verifyFailed]
  | .ampSetTestmux .. => [.invalidArgument, .verifyFailed]
  | .ampWriteReg .. => [.invalidArgument, .busError]
  | .ampReadReg _ => [.invalidArgument, .busError]
  | .smuSetValue .. => [.invalidArgument, .verifyFailed]
  | .smuSetRange .. => [.invalidArgument, .verifyFailed]
  | .smuSetMode .. => [.invalidArgument, .verifyFailed]
  | .smuSetState .. => [.invalidArgument, .verifyFailed]
  | .smuValueToCode .. => [.invalidArgument]
  | .smuCodeToValue .. => [.invalidArgument]
  | .smuPublishTick => []
  | .smuQueueFullUpdate => []

/-- The kind of value a successful command returns, 30_encoding.md R111. -/
def returnsKind (i : Instr) (v : Value) : Bool :=
  match i, v with
  | .pmuTransact .., .word _ => true
  | .adcReadReg .., .word _ => true
  | .ampReadReg _, .word _ => true
  | .pmuSetDac .., .code _ => true
  | .smuSetValue .., .code _ => true
  | .smuValueToCode .., .code _ => true
  | .ampSetGain .., .rational _ => true
  | .smuCodeToValue .., .rational _ => true
  | .pmuTransact .., .nothing | .adcReadReg .., .nothing | .ampReadReg _, .nothing | .pmuSetDac .., .nothing
  | .smuSetValue .., .nothing | .smuValueToCode .., .nothing | .ampSetGain .., .nothing
  | .smuCodeToValue .., .nothing => false
  | _, .nothing => true
  | _, _ => false

/-! ### What a configuration command means to write -/

/-- The raw commands of 70_reset_and_hazards.md R466. -/
def isRaw : Instr → Bool
  | .pmuTransact .. | .adcWriteReg .. | .adcReadReg .. | .ampWriteReg .. | .ampReadReg _ => true
  | _ => false

/-- The amplifier state and the value a successful amplifier configuration command leaves, 42_amp.md R254 to R256. -/
def ampTarget (s : State) : Instr → Option (AmpState × Value)
  | .ampSetGain ig og =>
    (index? 12 ig).bind fun i => (index? 3 og).map fun o =>
      ({ s.amp with ig := i, og := o, gain := s.par.ig[i] * s.par.og[o] }, .rational (s.par.ig[i] * s.par.og[o]))
  | .ampSetSwitch p n => (switchPair? p n).map fun x => ({ s.amp with swP := x.1, swN := x.2 }, .nothing)
  | .ampSetTestmux p n =>
    (bits? 2 p).bind fun a => (bits? 2 n).map fun b => ({ s.amp with tmP := a, tmN := b }, .nothing)
  | _ => none

/-- The writes of an amplifier configuration command, in order, 42_amp.md R254 to R256. -/
def ampWrites (s : State) : Instr → List (BitVec 7 × Byte)
  | .ampSetGain ig og =>
    match index? 12 ig, index? 3 og with
    | some i, some o => [(s.par.ampRegGain, gainMux i o), (s.par.ampRegTestmux, testMux o s.amp.tmP s.amp.tmN)]
    | _, _ => []
  | .ampSetSwitch p n =>
    match switchPair? p n with
    | some (a, b) => [(s.par.ampRegInmux, inMux a b)]
    | none => []
  | .ampSetTestmux p n =>
    match bits? 2 p, bits? 2 n with
    | some a, some b => [(s.par.ampRegTestmux, testMux s.amp.og a b)]
    | _, _ => []
  | _ => []

/-- The channel an SMU setter that is no no-op leaves when it succeeds and nothing else steps, its dirty bit set, and its
value: 44_sequencer.md R352 to R355. -/
def smuTarget (s : State) : Instr → Option (SmuChannel × Value)
  | .smuSetValue channel role value =>
    (smuChannel? channel).bind fun _ => (role? role).bind fun ro => (binary32? value).map fun x =>
      let v := valueToCode s.par ro s.smu.ch.range x s.smu.ch.cllv s.smu.ch.clhv
      (valueStored s.smu.ch v.2 ro, .code v.1)
  | .smuSetRange channel range =>
    (smuChannel? channel).bind fun _ => (index? 6 range).bind fun r =>
      if r = s.smu.ch.range then none else some ({ s.smu.ch with range := r, dirty := s.smu.ch.dirty ||| 0x100 }, .nothing)
  | .smuSetMode channel mode =>
    (smuChannel? channel).bind fun _ => (forceMode? mode).bind fun m =>
      if m = s.smu.ch.mode then none else some ({ s.smu.ch with mode := m, dirty := s.smu.ch.dirty ||| 0x400 }, .nothing)
  | .smuSetState channel state =>
    (smuChannel? channel).bind fun _ => (enableState? state).bind fun st =>
      if st = s.smu.ch.state then none else some ({ s.smu.ch with state := st, dirty := s.smu.ch.dirty ||| 0x200 }, .nothing)
  | _ => none

/-! ### Which bits of a command word a command uses, 30_encoding.md R114 -/

/-- The opcode and the fields R114 gives a command, as a mask over the command word; the other fields are reserved (R112). -/
def usedBits : Instr → CmdWord
  | .pmuInit | .adcStart | .adcStop | .ampInit | .smuPublishTick | .smuQueueFullUpdate => 0xFF00000000000000
  | .pmuTransact .. => 0xFFFFFF00FFFFFFFF
  | .pmuWriteSysctrl _ => 0xFF000000FFFFFFFF
  | .pmuWriteChctrl .. => 0xFFF00000FFFFFFFF
  | .pmuSetChstate .. | .pmuSetMode .. | .pmuSetRange .. => 0xFFFF000000000000
  | .pmuSetDac .. => 0xFFF0FF00FFFFFFFF
  | .adcConfigCh .. => 0xFFFFFFFF00000000
  | .adcWriteReg .. => 0xFF0FFF00FFFFFFFF
  | .adcReadReg .. => 0xFF0FFF0000000000
  | .ampSetGain .. | .ampSetSwitch .. | .ampSetTestmux .. => 0xFF00FFFF00000000
  | .ampWriteReg .. => 0xFF00FF00FFFFFFFF
  | .ampReadReg _ => 0xFF00FF0000000000
  | .smuSetValue .. => 0xFFFF0000FFFFFFFF
  | .smuSetRange .. | .smuSetMode .. | .smuSetState .. => 0xFFFF000000000000
  | .smuValueToCode .. | .smuCodeToValue .. => 0xFFFFFF00FFFFFFFF

end Sys2Proof.Machine
end

