-- ==== Sys2Proof/Certificates/Slice0/Obligations.lean ====
section
/-! DEFINITION. The statements for the provers, from the numbered rules of spec/. Where a statement says nothing of the
schedule it holds for every interleaving; `Quiet` means that the schedule puts no other agent's step inside the command. The
block has no memory (20_memory.md R89), so no frame speaks of memory bytes; what a command puts on the wires is `trace`. -/

open Sys2Proof Sys2Proof.Machine

/-! ### Encoding -/

/-- 30_encoding.md R110, R112, R114: the decoder reads back every command the encoder writes, every operand at every value,
the ill-formed ones too. -/
def Obligations.DecodeOfEncodeIsTheCommand : Prop :=
  ∀ i : Instr, decode (encode i) = .ok i

/-- 30_encoding.md R112, R114: a decoded command, encoded again, is its word with the reserved fields cleared; so no used
bit is dropped and no reserved bit takes part. -/
def Obligations.DecodedWordKeepsItsUsedBits : Prop :=
  ∀ (w : CmdWord) (i : Instr), decode w = .ok i → encode i = w &&& usedBits i

/-- 30_encoding.md R115: the reserved opcodes are exactly those the rule lists, and a word with one returns InvalidArgument,
performs no I/O and changes no block state (that the word leaves the port and the turn the schedule is the model's form of the
port and the schedule, logs 1, 7 and 13). -/
def Obligations.ReservedOpcodesReturnInvalidArgument : Prop :=
  (∀ w : CmdWord, (∃ e, decode w = .error e) ↔
    let n := (fieldOpc w).toNat
    n ≤ 0x0F ∨ (0x18 ≤ n ∧ n ≤ 0x1F) ∨ (0x25 ≤ n ∧ n ≤ 0x2F) ∨ (0x36 ≤ n ∧ n ≤ 0x3F) ∨ 0x48 ≤ n) ∧
  ∀ (s : State) (w : CmdWord) (ws : List CmdWord) (ms : List Move) (e : DecodeError),
    s.env.sched = .sequencer :: ms → s.port = w :: ws → decode w = .error e →
    step s = .next { s with
      port := ws, results := s.results ++ [.fail .invalidArgument], env := { s.env with sched := ms } }

/-- Words of 95_test_vectors.md decode to the commands they stand for. -/
def Obligations.SpecWordsDecode : Prop :=
  decode 0x17300D000000FFFF = .ok (.pmuSetDac 3 0x0D 0xFFFF) ∧
  decode 0x2230020300000000 = .ok (.adcConfigCh 3 0 2 3) ∧
  decode 0x31000B0200000000 = .ok (.ampSetGain 11 2) ∧
  decode 0x4501030000C00000 = .ok (.smuCodeToValue 0 1 3 0xC00000) ∧
  decode 0x40050000C1200000 = .ok (.smuSetValue 0 5 0xC1200000)

/-- 30_encoding.md R121: the four bytes of a PMU frame, the first holding bits 31:24: three zeros, the R/W bit, the channel mask
(bit 24 + c for channel c), the mode and the 22 data bits; the two mode values; and the rule's example. -/
def Obligations.PmuFrameLayout : Prop :=
  (∀ (dir : Dir) (mask : BitVec 4) (mode : BitVec 2) (data : BitVec 22),
    let w : BitVec 32 := 0#3 ++ BitVec.ofBool (decide (dir = .read)) ++ mask ++ mode ++ data
    pmuFrame dir mask mode data =
      [w.extractLsb' 24 8, w.extractLsb' 16 8, w.extractLsb' 8 8, w.extractLsb' 0 8]) ∧
  (∀ c b : Fin 4, (chMask c).getLsbD b.val = decide (b = c)) ∧
  Params.reference.modeReg = 0b00 ∧ Params.reference.modeDac = 0b01 ∧
  pmuFrame .write 0 Params.reference.modeReg 0x000040 = [0x00, 0x00, 0x00, 0x40]

/-- 30_encoding.md R124, R125: the ADC and amplifier command bytes; R126: the sample code and the channel index of a data frame;
R128, R129: the two amplifier gain registers, which share the output gain's high bit; R130: the input mux, bit by bit, for
the legal pairs of selects. -/
def Obligations.AdcAndAmplifierFrameLayouts : Prop :=
  (∀ addr : BitVec 6, (adcCommand .write addr).toNat = addr.toNat ∧ (adcCommand .read addr).toNat = 64 + addr.toNat) ∧
  (∀ addr : BitVec 7, (ampCommand .write addr).toNat = addr.toNat ∧ (ampCommand .read addr).toNat = 128 + addr.toNat) ∧
  (∀ f0 f1 f2 f3 : Byte, frameCode [f0, f1, f2, f3] = f0 ++ f1 ++ f2 ∧
    (frameIndex [f0, f1, f2, f3]).val = f3.toNat % 4) ∧
  (∀ (ig : Fin 12) (og : Fin 3), (gainMux ig og).extractLsb' 0 4 = BitVec.ofNat 4 ig.val ∧
    (gainMux ig og).getLsbD 4 = og.val.testBit 0 ∧ (gainMux ig og).extractLsb' 5 3 = 0) ∧
  (∀ (og : Fin 3) (p n : BitVec 2), (testMux og p n).getLsbD 7 = og.val.testBit 1 ∧
    (testMux og p n).extractLsb' 4 3 = 0 ∧ (testMux og p n).extractLsb' 2 2 = p ∧
    (testMux og p n).extractLsb' 0 2 = n) ∧
  ∀ p n : SwitchSel, (p = .short ↔ n = .short) →
    let v := inMux p n
    v.getLsbD 0 = decide (p = .in1) ∧ v.getLsbD 1 = decide (p = .in2) ∧ v.getLsbD 2 = decide (p = .test) ∧
    v.getLsbD 3 = decide (n = .in1) ∧ v.getLsbD 4 = decide (n = .in2) ∧ v.getLsbD 5 = decide (n = .test) ∧
    v.getLsbD 6 = decide (p = .short) ∧ v.getLsbD 7 = false

/-- 30_encoding.md section 4, the input-pair register in its reference layout (which R127 takes from general knowledge, log 22): enable, five zeros,
the two inputs; and its example. -/
def Obligations.AdcInputPairLayout : Prop :=
  (∀ (en : Bool) (pos neg : BitVec 5),
    let r := adcChannelReg .reference en pos neg
    r.getLsbD 15 = en ∧ r.extractLsb' 10 5 = 0 ∧ r.extractLsb' 5 5 = pos ∧ r.extractLsb' 0 5 = neg) ∧
  adcChannelReg .reference true 0 1 = 0x8001 ∧ Params.reference.adcChLayout = .reference

/-! ### The step -/

/-- A command word at the head of the port is taken and run when it is the command sequencer's turn: the step is `exec` of the
decoded command on the state without the word and without the scheduled turn. It is the sequencer's turn when the schedule
says so (60_exceptions.md R405, R407), and with nothing scheduled when no task is pending (the model's order, log 2). -/
def Obligations.StepRunsDecodedCommand : Prop :=
  ∀ (s : State) (w : CmdWord) (ws : List CmdWord) (i : Instr), s.port = w :: ws → decode w = .ok i →
    (∀ ms, s.env.sched = .sequencer :: ms →
      step s = exec i { s with port := ws, env := { s.env with sched := ms } }) ∧
    (Quiet s → s.adc.wakePending = false → s.adc.dispatchPending = false → s.smu.forcePublish = false →
      step s = exec i { s with port := ws })

/-- 60_exceptions.md R401: no step stops the block. -/
def Obligations.EveryStepAnswersNext : Prop :=
  ∀ s : State, ∃ t, step s = .next t

/-! ### Results -/

/-- 30_encoding.md R112, R113, R116, 42_amp.md R255: a command with an illegal operand returns InvalidArgument before any
I/O and before any state change, whatever the schedule; a command with legal operands never returns it. And the code tables:
what a narrow number or an index in a wider field selects, and
what each value of an enumerated operand selects, and which select nothing (10_state.md R39, R40, R47, 40_pmu.md R145,
41_adc.md R202, R207, 42_amp.md R255, 43_convert.md R311). -/
def Obligations.InvalidArgumentExactlyOnIllegalOperands : Prop :=
  (∀ (i : Instr) (s : State), i.wellFormed = false → exec i s = .next (afterResult s (.fail .invalidArgument))) ∧
  (∀ (i : Instr) (s t : State), i.wellFormed = true → exec i s = .next t →
    t.results ≠ s.results ++ [.fail .invalidArgument]) ∧
  (∀ (w n : Nat) (v : BitVec w),
    bits? n v = (if v.toNat < 2 ^ n then some (v.setWidth n) else none) ∧
    index? n v = (if h : v.toNat < n then some ⟨v.toNat, h⟩ else none)) ∧
  (∀ sel : BitVec 4,
    dir? sel = (if sel = 0 then some .write else if sel = 1 then some .read else none) ∧
    flag? sel = (if sel = 0 then some false else if sel = 1 then some true else none) ∧
    chanState? sel = (if sel = 0 then some .disabled else if sel = 1 then some .hiz
      else if sel = 2 then some .enabled else none) ∧
    enableState? sel = (if sel = 0 then some .disabled else if sel = 1 then some .standby
      else if sel = 2 then some .enabled else none) ∧
    forceMode? sel = (if sel = 0 then some .fv else if sel = 1 then some .fi else none) ∧
    role? sel = (if sel = 0 then some .fv else if sel = 1 then some .fi else if sel = 2 then some .clli
      else if sel = 3 then some .clhi else if sel = 4 then some .cllv else if sel = 5 then some .clhv else none) ∧
    measKind? sel = (if sel = 0 then some .voltage else if sel = 1 then some .current else none) ∧
    hwRange? sel = (if sel < 5 then some (sel.extractLsb' 0 3) else none) ∧
    byteCount? sel = (if 1 ≤ sel ∧ sel ≤ 4 then some sel.toNat else none) ∧
    channel? sel = (if h : sel.toNat < 4 then some ⟨sel.toNat, h⟩ else none) ∧
    (smuChannel? sel).isSome = decide (sel = 0)) ∧
  ∀ v : BitVec 8, switchSel? v = (if v = 0 then some .in1 else if v = 1 then some .in2 else if v = 2 then some .test
    else if v = 3 then some .short else none)

/-- 30_encoding.md R111, 60_exceptions.md R400, 70_reset_and_hazards.md R450: a command ends with exactly one result, of
the kind R111 gives it or of a code R400 lists for it, unless a scheduled reset ends it with none (then the two PMU lines
R451 leaves unspecified have the model's values, log 11). -/
def Obligations.EveryCommandReturnsOneResult : Prop :=
  ∀ (i : Instr) (s t : State), exec i s = .next t →
    (∃ v, returnsKind i v = true ∧ t.results = s.results ++ [.ok v]) ∨
    (∃ c ∈ failCodes i, t.results = s.results ++ [.fail c]) ∨
    (Move.reset ∈ s.env.sched ∧ t.results = s.results ∧ BlockReset t)

/-! ### Invariants every step keeps -/

/-- 10_state.md R52, R53: between steps the lock is free and the ADC and amplifier chip-selects are deasserted; and no command
is in progress. The model's own here: that a step runs a whole command, so that R31's `S.cmd` is idle between two steps (logs 1
and 24), and that a failed transfer, too, leaves the lock free and the chip-selects deasserted (log 19). -/
def Obligations.StepKeepsBusIdleBetweenSteps : Prop :=
  ∀ s t : State, BetweenSteps s → step s = .next t → BetweenSteps t

/-- 42_amp.md R252: the amplifier's gain invariant, for parameters under which the reset gain is consistent (for the others the
model keeps the reset gain 1, log 32). -/
def Obligations.StepKeepsAmpGainConsistent : Prop :=
  ∀ s t : State, s.par.ig[4] * s.par.og[0] = 1 → s.amp.gain = s.par.ig[s.amp.ig] * s.par.og[s.amp.og] →
    step s = .next t → t.par = s.par ∧ t.amp.gain = s.par.ig[t.amp.ig] * s.par.og[t.amp.og]

/-- 43_convert.md R314, with the reference parameters: the stored voltage clamps stay in their windows and 0.5 V apart. -/
def Obligations.StepKeepsVoltageClampsSeparated : Prop :=
  ∀ s t : State, s.par = Params.reference → VoltageClampsSeparated s → step s = .next t →
    t.par = Params.reference ∧ VoltageClampsSeparated t

/-- 10_state.md R48: no command writes the sense topology, the two calibration factors or the parameters. -/
def Obligations.StepKeepsStuckFields : Prop :=
  ∀ s t : State, StuckFields s → step s = .next t → t.par = s.par ∧ StuckFields t

/-- The reset state meets all four invariants. -/
def Obligations.ResetMeetsTheInvariants : Prop :=
  BetweenSteps State.reset ∧ State.reset.par.ig[4] * State.reset.par.og[0] = 1 ∧ AmpGainConsistent State.reset ∧
  State.reset.par = Params.reference ∧ VoltageClampsSeparated State.reset ∧ StuckFields State.reset

/-- 10_state.md R55, and the reset values of R31, R32, R34, R41, R43 to R45, R50 to R53 that the spec states; the two bus lines it
leaves unspecified are not among them. -/
def Obligations.ResetValuesOfTheSpec : Prop :=
  State.reset.cmd = ⟨none, 0⟩ ∧ State.reset.pmu.sys = 0x000040 ∧ (∀ c : Fin 4, State.reset.pmu.ch[c] = 0x00091A) ∧
  State.reset.pmu.phase = .reset ∧ State.reset.adc.active = false ∧ State.reset.adc.armed = false ∧
  State.reset.adc.discardNext = false ∧ State.reset.adc.wakePending = false ∧
  State.reset.adc.dispatchPending = false ∧ State.reset.adc.activeMask = 0 ∧ State.reset.adc.validMask = 0 ∧
  (∀ n : Fin 4, State.reset.adc.slot[n] = 0) ∧ State.reset.smu.ch.state = .disabled ∧ State.reset.smu.ch.mode = .fv ∧
  State.reset.smu.ch.range = 3 ∧ State.reset.smu.ch.sense = .loc ∧ State.reset.smu.ch.fv = 0 ∧
  State.reset.smu.ch.fi = 0 ∧ State.reset.smu.ch.clli = -(2 / 1000) ∧ State.reset.smu.ch.clhi = 2 / 1000 ∧
  State.reset.smu.ch.cllv = -10 ∧ State.reset.smu.ch.clhv = 10 ∧ State.reset.smu.ch.mv = 0 ∧
  State.reset.smu.ch.mi = 0 ∧ State.reset.smu.ch.dirty = 0 ∧ State.reset.smu.ch.mvGainCorr = 1 ∧
  State.reset.smu.ch.miMult = 1 ∧ State.reset.smu.forcePublish = false ∧
  State.reset.amp = ⟨4, 0, 1, .in1, .in1, 0, 0, false, false⟩ ∧ State.reset.bus.owner = .none ∧
  State.reset.bus.csADC = true ∧ State.reset.bus.csAMP = true ∧
  (∀ b : Fin 2, State.reset.adc.snap[b] = ⟨#v[0, 0, 0, 0], 0⟩) ∧ State.reset.adc.wbuf = 0 ∧ State.reset.adc.rbuf = 0

/-! ### The agents that are not commands -/

/-- 41_adc.md R203: the edge interrupt's whole effect, and that an edge while unarmed is lost. -/
def Obligations.EdgeInterruptEffect : Prop :=
  ∀ s : State, edgeStep s =
    if s.adc.armed = true then
      { s with adc := { s.adc with armed := false, wakePending := true }, bus := { s.bus with csADC := true } }
    else s

/-- 41_adc.md R204, R205: the sample task on a frame whose 32 bits are `w`: its one read, then discard, keep or complete, then
the re-arm; a failed transfer loses the sample and re-arms all the same (the lock and the chip-select after it: log 19); a
task not woken does nothing (log 12). -/
def Obligations.SampleTaskHandlesItsFrame : Prop :=
  (∀ (s : State) (w : Word32) (rest : List Answer),
    s.adc.wakePending = true → s.env.adc = .shift w :: rest →
    let idx : Fin 4 := (w.extractLsb' 0 2).toFin
    let slot := s.adc.slot.set idx (w.extractLsb' 8 24)
    let valid := s.adc.validMask ||| (1#4 <<< idx.val)
    let a := { s.adc with wakePending := false, armed := s.adc.armed || s.adc.active }
    sampleStep s = { s with
      adc :=
        if s.adc.discardNext = true then { a with discardNext := false }
        else if valid = s.adc.activeMask then
          { a with
            slot := slot, validMask := 0, snap := s.adc.snap.set s.adc.wbuf ⟨slot, valid⟩
            rbuf := s.adc.wbuf, wbuf := 1 - s.adc.wbuf, dispatchPending := true }
        else { a with slot := slot, validMask := valid }
      bus := { s.bus with owner := .none, csADC := true }
      trace := s.trace ++ [.xfer .adc [adcCommand .read s.par.adcRegData] 4 (.ok (bytesOf 4 w))]
      env := { s.env with adc := rest } }) ∧
  (∀ (s : State) (rest : List Answer), s.adc.wakePending = true → s.env.adc = .fails :: rest →
    sampleStep s = { s with
      adc := { s.adc with wakePending := false, armed := s.adc.armed || s.adc.active }
      bus := { s.bus with owner := .none, csADC := true }
      trace := s.trace ++ [.xfer .adc [adcCommand .read s.par.adcRegData] 4 .busError]
      env := { s.env with adc := rest } }) ∧
  ∀ s : State, s.adc.wakePending = false → sampleStep s = s

/-- 41_adc.md R206, R209: the dispatch task delivers the read buffer once: measured voltage and current, each with its dirty
bit, each only if the snapshot carries its channel. -/
def Obligations.DispatchTaskDeliversSnapshot : Prop :=
  ∀ s : State, s.adc.dispatchPending = true →
    let sn := s.adc.snap[s.adc.rbuf]
    let hasV := sn.mask.getLsbD s.par.adcChMv.val
    let hasI := sn.mask.getLsbD s.par.adcChMi.val
    dispatchStep s = { s with
      adc := { s.adc with dispatchPending := false }
      smu := { s.smu with ch := { s.smu.ch with
        mv := if hasV then adcToVolts s.par sn.codes[s.par.adcChMv] * s.smu.ch.mvGainCorr else s.smu.ch.mv
        mi := if hasI then adcToAmps s.par sn.codes[s.par.adcChMi] s.smu.ch.range else s.smu.ch.mi
        dirty := s.smu.ch.dirty ||| (if hasV then 4 else 0) ||| (if hasI then 8 else 0) } } }

/-- 41_adc.md R210: with channels 0 and 1 active, a discarded sample and then one kept sample of each channel in either order
complete one group: nothing is delivered before the dispatch step, which delivers both values once, and the valid mask is
back at 0. -/
def Obligations.PipelineDeliversOneGroup : Prop :=
  ∀ (s : State) (d a b : Word32) (rest : List Answer),
    s.par = Params.reference → s.adc.armed = true → s.adc.active = true → s.adc.discardNext = true →
    s.adc.dispatchPending = false → s.adc.activeMask = 0b0011 → s.adc.validMask = 0 →
    s.env.adc = .shift d :: .shift a :: .shift b :: rest →
    s.env.sched = [.edge, .sample, .edge, .sample, .edge, .sample, .dispatch] →
    (a.toNat % 4 = 0 ∧ b.toNat % 4 = 1 ∨ a.toNat % 4 = 1 ∧ b.toNat % 4 = 0) →
    let v := if a.toNat % 4 = 0 then a else b
    let i := if a.toNat % 4 = 0 then b else a
    (∃ u, Host.Core.run Sys2Proof.core 6 s = .next u ∧ u.smu = s.smu ∧ u.adc.dispatchPending = true ∧
      u.adc.validMask = 0 ∧ u.adc.snap[u.adc.rbuf].mask = 0b0011) ∧
    ∃ t, Host.Core.run Sys2Proof.core 7 s = .next t ∧ t.adc.dispatchPending = false ∧ t.adc.validMask = 0 ∧
      t.adc.armed = true ∧ t.smu.ch.mv = adcToVolts s.par (v.extractLsb' 8 24) * s.smu.ch.mvGainCorr ∧
      t.smu.ch.mi = adcToAmps s.par (i.extractLsb' 8 24) s.smu.ch.range ∧ t.smu.ch.dirty = s.smu.ch.dirty ||| 0x00C

/-- 41_adc.md R211, 20_memory.md R96: no scheduled move but a reset writes the PMU shadows, the amplifier state, the command
sequencer, the results or an SMU setting. -/
def Obligations.AgentsKeepTheCommandsState : Prop :=
  ∀ (m : Move) (s : State), m ≠ .reset →
    let t := agentMove m s
    t.par = s.par ∧ t.cmd = s.cmd ∧ t.pmu = s.pmu ∧ t.amp = s.amp ∧ t.port = s.port ∧ t.results = s.results ∧
    SameSettings t.smu.ch s.smu.ch ∧ t.adc.active = s.adc.active ∧ t.adc.activeMask = s.adc.activeMask

/-- 70_reset_and_hazards.md R450: reset sets the whole block state to the reset table, touches no device and leaves the publish
port as it is. The model's own choices here: the two PMU lines R451 leaves unspecified (log 11), and that the waiting command
words (log 30) and the returned results (log 8) stay, and that nothing on the wires, and so no device, changes with those two
lines (log 31). -/
def Obligations.ResetEventResetsTheBlock : Prop :=
  ∀ s : State,
    let t := resetEvent s
    BlockReset t ∧ t.par = s.par ∧ t.pubOut = s.pubOut ∧ t.results = s.results ∧ t.trace = s.trace ∧ t.env = s.env ∧
    t.port = s.port

/-- 70_reset_and_hazards.md R450: a reset scheduled right after a command's first bus primitive ends the command with no
result; a command that has no primitive on these operands is over before. The two PMU lines R451 leaves unspecified after the
reset have the model's values (log 11). -/
def Obligations.ResetEndsTheCommandWithNoResult : Prop :=
  ∀ (i : Instr) (s t : State) (ms : List Move), s.env.sched = .reset :: ms → exec i s = .next t →
    (t.trace = s.trace ∧ t.results.length = s.results.length + 1) ∨
    (BlockReset t ∧ t.results = s.results ∧ t.pubOut = s.pubOut ∧ t.env.sched = ms)

/-! ### PMU -/

/-- 40_pmu.md R143: the poll stops at the first READY sample, and answers Busy after exactly BUSY_POLL_LIMIT BUSY ones. -/
def Obligations.BusyPollIsBounded : Prop :=
  (∀ (s : State) (j : Nat) (rest : List Bool), j < s.par.busyPollLimit →
    s.env.busy = List.replicate j false ++ true :: rest →
    busyWait s = (true, { s with
      trace := s.trace ++ List.replicate j (.busySample false) ++ [.busySample true]
      env := { s.env with busy := rest } })) ∧
  ∀ (s : State) (rest : List Bool), s.env.busy = List.replicate s.par.busyPollLimit false ++ rest →
    busyWait s = (false, { s with
      trace := s.trace ++ List.replicate s.par.busyPollLimit (.busySample false)
      env := { s.env with busy := rest } })

/-- 40_pmu.md R145: PMU_TRANSACT sends its one frame and returns 0 for a write and the 24-bit readback for a read. -/
def Obligations.PmuTransactReturnsReadback : Prop :=
  ∀ (s : State) (chmask dir : BitVec 4) (mode : BitVec 8) (data : BitVec 32) (d : Dir) (m : BitVec 2) (v : BitVec 22)
    (w : Word32) (rest : List Answer) (brest : List Bool),
    Quiet s → 0 < s.par.busyPollLimit → dir? dir = some d → bits? 2 mode = some m → bits? 22 data = some v →
    s.env.pmu = .shift w :: rest → s.env.busy = true :: brest →
    exec (.pmuTransact chmask dir mode data) s = .next (match d with
      | .write => afterPmu s (.ok (.word 0)) s.pmu s.smu
          [.xfer .pmu (pmuFrame .write chmask m v) 0 (.ok []), .busySample true] rest brest
      | .read => afterPmu s (.ok (.word (w &&& 0x00FFFFFF))) s.pmu s.smu
          [.pmuRead (pmuFrame .read chmask m v) s.par.pmuReadFill 3 (.ok (bytesOf 3 w)), .busySample true] rest brest)

/-- 40_pmu.md R145: PMU_TRANSACT reports a failed transfer as BusError and a line that never settles as Busy. -/
def Obligations.PmuTransactReportsBusErrorAndBusy : Prop :=
  ∀ (s : State) (chmask dir : BitVec 4) (mode : BitVec 8) (data : BitVec 32),
    Quiet s → (Instr.pmuTransact chmask dir mode data).wellFormed = true →
    (∀ rest, s.env.pmu = .fails :: rest →
      ∃ t, exec (.pmuTransact chmask dir mode data) s = .next t ∧ t.results = s.results ++ [.fail .busError] ∧
        t.env = { s.env with pmu := rest } ∧ t.pmu = s.pmu) ∧
    ∀ w rest brest, s.env.pmu = .shift w :: rest →
      s.env.busy = List.replicate s.par.busyPollLimit false ++ brest →
      ∃ t, exec (.pmuTransact chmask dir mode data) s = .next t ∧ t.results = s.results ++ [.fail .busy] ∧
        t.env = { s.env with pmu := rest, busy := brest } ∧ t.pmu = s.pmu

/-- 40_pmu.md R146, R141: PMU_WRITE_SYSCTRL writes, reads back, compares under SYS_ECHO_MASK, and commits the shadow or answers
VerifyFailed. -/
def Obligations.PmuWriteSysctrlVerifies : Prop :=
  ∀ (s : State) (value : BitVec 32) (v : BitVec 22) (w rb : Word32) (rest : List Answer) (brest : List Bool),
    Quiet s → 0 < s.par.busyPollLimit → bits? 22 value = some v →
    s.env.pmu = .shift w :: .shift rb :: rest → s.env.busy = true :: true :: brest →
    let events := pmuVerifyEvents s.par 0 s.par.modeReg v 0 rb
    exec (.pmuWriteSysctrl value) s = .next (
      if rb.extractLsb' 0 22 &&& s.par.sysEchoMask = v &&& s.par.sysEchoMask then
        afterPmu s (.ok .nothing) { s.pmu with sys := v } s.smu events rest brest
      else afterPmu s (.fail .verifyFailed) s.pmu s.smu events rest brest)

/-- 40_pmu.md R147 to R149, R155, R144: PMU_WRITE_CHCTRL, PMU_SET_CHSTATE, PMU_SET_MODE and PMU_SET_RANGE write their new
channel value, read it back, compare under CH_ECHO_MASK, and commit the one shadow or answer VerifyFailed. That the new value
of the three field commands has the shadow's reserved bits cleared is the model's choice (log 28: R38
and 30_encoding.md R131 against the pseudocode of R148, R149, R155). -/
def Obligations.PmuChannelCommandsVerify : Prop :=
  ∀ (i : Instr) (s : State) (c : Fin 4) (v : BitVec 22) (w rb : Word32) (rest : List Answer) (brest : List Bool),
    Quiet s → 0 < s.par.busyPollLimit → channelTarget s i = some (c, v) →
    s.env.pmu = .shift w :: .shift rb :: rest → s.env.busy = true :: true :: brest →
    let events := pmuVerifyEvents s.par (1#4 <<< c.val) s.par.modeReg v 0 rb
    exec i s = .next (
      if rb.extractLsb' 0 22 &&& s.par.chEchoMask = v &&& s.par.chEchoMask then
        afterPmu s (.ok .nothing) { s.pmu with ch := s.pmu.ch.set c v } s.smu events rest brest
      else afterPmu s (.fail .verifyFailed) s.pmu s.smu events rest brest)

/-- 10_state.md R38, R40, 40_pmu.md R148, R149, R155: in the reference layout the field commands change exactly bits 1:0, bit 2
and bits 5:3 of the defined bits 13:0 and write the reserved bits 21:14 as 0. That the reserved bits follow R38 and
30_encoding.md R131 and not the pseudocode's `with` is the model's choice (log 28). -/
def Obligations.FieldCommandsChangeOnlyTheirField : Prop :=
  ∀ v : BitVec 22,
    (∀ st : ChanState, withChanState .reference v st =
      (v &&& 0x003FFC) ||| (match st with
        | .disabled => 0b10
        | .hiz => 0b11
        | .enabled => 0b01)) ∧
    (∀ m : ForceMode, withForceMode .reference v m =
      (v &&& 0x003FFB) ||| (match m with
        | .fv => 0
        | .fi => 0b100)) ∧
    ∀ code : BitVec 3, withRangeCode .reference v code = (v &&& 0x003FC7) ||| (code.setWidth 22 <<< 3)

/-- 40_pmu.md R151, R142: PMU_SET_DAC writes, reads back, compares the low 16 bits, returns the code; no state. -/
def Obligations.PmuSetDacVerifies : Prop :=
  ∀ (s : State) (channel : BitVec 4) (subaddr : BitVec 8) (code : BitVec 32) (c : Fin 4) (sub : BitVec 6)
    (v : BitVec 16) (w rb : Word32) (rest : List Answer) (brest : List Bool),
    Quiet s → 0 < s.par.busyPollLimit → channel? channel = some c → bits? 6 subaddr = some sub →
    bits? 16 code = some v → s.env.pmu = .shift w :: .shift rb :: rest → s.env.busy = true :: true :: brest →
    exec (.pmuSetDac channel subaddr code) s = .next (afterPmu s
      (if rb.extractLsb' 0 16 = v then .ok (.code v) else .fail .verifyFailed) s.pmu s.smu
      (pmuVerifyEvents s.par (1#4 <<< c.val) s.par.modeDac (sub ++ v) (sub ++ 0#16) rb) rest brest)

/-- 40_pmu.md R150: PMU_INIT on a device whose line is ready at once and whose five readbacks match: 11 primitives, the
shadows at the defaults, the phase PerChannelConfigured. That a default with reserved bits set is sent as given is the model's
reading (log 28). -/
def Obligations.PmuInitConfiguresEveryRegister : Prop :=
  ∀ (s : State) (w0 r0 w1 r1 w2 r2 w3 r3 w4 r4 : Word32) (rest : List Answer) (brest : List Bool),
    Quiet s → 0 < s.par.busyPollLimit →
    s.env.pmu = [.shift w0, .shift r0, .shift w1, .shift r1, .shift w2, .shift r2, .shift w3, .shift r3, .shift w4,
      .shift r4] ++ rest →
    s.env.busy = List.replicate 11 true ++ brest →
    r0.extractLsb' 0 22 &&& s.par.sysEchoMask = s.par.sysctrlDefault &&& s.par.sysEchoMask →
    (∀ r ∈ [r1, r2, r3, r4],
      r.extractLsb' 0 22 &&& s.par.chEchoMask = s.par.chctrlDefault &&& s.par.chEchoMask) →
    let d := s.par.chctrlDefault
    let reg := s.par.modeReg
    exec .pmuInit s = .next (afterPmu { s with bus := { s.bus with pmuReset := true } } (.ok .nothing)
      ⟨s.par.sysctrlDefault, #v[d, d, d, d], .perChannelConfigured⟩ s.smu
      ([.pmuResetLine false, .pmuResetLine true, .busySample true] ++
        pmuVerifyEvents s.par 0b0000 reg s.par.sysctrlDefault 0 r0 ++ pmuVerifyEvents s.par 0b0001 reg d 0 r1 ++
        pmuVerifyEvents s.par 0b0010 reg d 0 r2 ++ pmuVerifyEvents s.par 0b0100 reg d 0 r3 ++
        pmuVerifyEvents s.par 0b1000 reg d 0 r4)
      rest brest)

/-- 40_pmu.md R150: what PMU_INIT leaves whenever it returns a failure, for every device and every schedule, by the frames it has
sent. Busy: no frame, the phase Reset, no shadow written. VerifyFailed in the system register's frames: the same. VerifyFailed
in the frames of channel `k`, after all those before: SystemConfigured, the channels below `k` committed. That a default with
reserved bits set is sent as given is the model's reading (log 28). -/
def Obligations.PmuInitFailureLeavesPrefix : Prop :=
  ∀ (s t : State) (c : FailCode), exec .pmuInit s = .next t → t.results = s.results ++ [.fail c] →
    ∃ l, pmuFrames t.trace = pmuFrames s.trace ++ l ∧
      ((c = .busy ∧ l = [] ∧ t.pmu = { s.pmu with phase := .reset }) ∨
      (c = .verifyFailed ∧ l ≠ [] ∧ l <+: regFrames s.par 0 s.par.sysctrlDefault ∧
        t.pmu = { s.pmu with phase := .reset }) ∨
      (c = .verifyFailed ∧ ∃ (k : Fin 4) (m : List (List Byte)),
        m ≠ [] ∧ m <+: regFrames s.par (1#4 <<< k.val) s.par.chctrlDefault ∧ l = initFrames s.par k.val ++ m ∧
        t.pmu.phase = .systemConfigured ∧ t.pmu.sys = s.par.sysctrlDefault ∧
        ∀ n : Fin 4, t.pmu.ch[n] = if n.val < k.val then s.par.chctrlDefault else s.pmu.ch[n]))

/-- 40_pmu.md R144, 10_state.md R33: a PMU register command assigns its shadow exactly when it returns Ok, and touches no
other; for every device and every schedule (where a reset ends it, the two PMU lines R451 leaves unspecified have the model's
values, log 11). That the value a field command commits has the reserved bits cleared is the model's choice (log 28: R38 and
30_encoding.md R131). -/
def Obligations.PmuShadowCommitsExactlyOnSuccess : Prop :=
  (∀ (i : Instr) (s t : State) (c : Fin 4) (v : BitVec 22), channelTarget s i = some (c, v) → exec i s = .next t →
    (t.results = s.results ++ [.ok .nothing] ∧ t.pmu = { s.pmu with ch := s.pmu.ch.set c v }) ∨
    (t.results = s.results ++ [.fail .verifyFailed] ∧ t.pmu = s.pmu) ∨
    (t.results = s.results ∧ BlockReset t)) ∧
  ∀ (value : BitVec 32) (s t : State) (v : BitVec 22), bits? 22 value = some v →
    exec (.pmuWriteSysctrl value) s = .next t →
    (t.results = s.results ++ [.ok .nothing] ∧ t.pmu = { s.pmu with sys := v }) ∨
    (t.results = s.results ++ [.fail .verifyFailed] ∧ t.pmu = s.pmu) ∨
    (t.results = s.results ∧ BlockReset t)

/-- 70_reset_and_hazards.md R466: raw commands update no shadow, no mask and no SMU setting, for every device and every
schedule without a reset. -/
def Obligations.RawCommandsBypassTheBookkeeping : Prop :=
  ∀ (i : Instr) (s t : State), isRaw i = true → NoReset s → exec i s = .next t →
    t.pmu = s.pmu ∧ t.amp = s.amp ∧ t.adc.activeMask = s.adc.activeMask ∧ SameSettings t.smu.ch s.smu.ch

/-! ### ADC -/

/-- 41_adc.md R200, R201: the opcodes and the whole effects of ADC_START and of ADC_STOP. -/
def Obligations.AdcStartAndStopSetTheirFlags : Prop :=
  (∀ rest : BitVec 56, decode (0x20#8 ++ rest) = .ok .adcStart ∧ decode (0x21#8 ++ rest) = .ok .adcStop) ∧
  ∀ s : State,
    exec .adcStart s = .next (afterResult
      { s with adc := { s.adc with validMask := 0, discardNext := true, active := true, armed := true } }
      (.ok .nothing)) ∧
    exec .adcStop s = .next (afterResult
      { s with adc := { s.adc with armed := false, active := false }, bus := { s.bus with csADC := true } }
      (.ok .nothing))

/-- 41_adc.md R202: ADC_CONFIG_CH sends the input-pair register once and updates its mask bit exactly when the transfer
succeeds (the lock and the chip-select after a failed transfer: log 19). -/
def Obligations.AdcConfigChWritesPairAndMask : Prop :=
  ∀ (s : State) (channel enable : BitVec 4) (pos neg : BitVec 8) (n : Fin 4) (en : Bool) (p q : BitVec 5)
    (a : Answer) (rest : List Answer),
    Quiet s → channel? channel = some n → flag? enable = some en → bits? 5 pos = some p → bits? 5 neg = some q →
    s.env.adc = a :: rest →
    let r := a.result 0
    let events := [BusEvent.xfer .adc
      (adcCommand .write s.par.adcRegCh[n] :: bytesOf 2 ((adcChannelReg s.par.adcChLayout en p q).setWidth 32)) 0 r]
    exec (.adcConfigCh channel enable pos neg) s = .next (match a with
      | .shift _ => afterAdc s (.ok .nothing)
          { s.adc with activeMask :=
              if en then s.adc.activeMask ||| (1#4 <<< n.val) else s.adc.activeMask &&& ~~~(1#4 <<< n.val) }
          events rest
      | .fails => afterAdc s (.fail .busError) s.adc events rest)

/-- 41_adc.md R207, R208, 42_amp.md R257, R258: the raw register accesses: one transfer, the value most significant byte
first, the readback in the low bytes; a failed transfer is BusError (the lock and the chip-select after it: log 19); no
state. -/
def Obligations.RawRegisterAccesses : Prop :=
  (∀ (s : State) (nbytes : BitVec 4) (addr : BitVec 8) (nb : Nat) (ad : BitVec 6) (a : Answer) (rest : List Answer),
    Quiet s → byteCount? nbytes = some nb → bits? 6 addr = some ad → s.env.adc = a :: rest →
    (∀ value : BitVec 32, value.toNat < 2 ^ (8 * nb) →
      exec (.adcWriteReg nbytes addr value) s = .next (afterAdc s
        (match a with
          | .shift _ => .ok .nothing
          | .fails => .fail .busError) s.adc
        [.xfer .adc (adcCommand .write ad :: bytesOf nb value) 0 (a.result 0)] rest)) ∧
    exec (.adcReadReg nbytes addr) s = .next (afterAdc s
      (match a with
        | .shift w => .ok (.word (BitVec.ofNat 32 (w.toNat % 2 ^ (8 * nb))))
        | .fails => .fail .busError) s.adc
      [.xfer .adc [adcCommand .read ad] nb (a.result nb)] rest)) ∧
  ∀ (s : State) (addr : BitVec 8) (ad : BitVec 7) (a : Answer) (rest : List Answer),
    Quiet s → bits? 7 addr = some ad → s.env.amp = a :: rest →
    (∀ (value : BitVec 32) (v : Byte), bits? 8 value = some v →
      exec (.ampWriteReg addr value) s = .next (afterAmp s
        (match a with
          | .shift _ => .ok .nothing
          | .fails => .fail .busError) s.amp [.xfer .amp [ampCommand .write ad, v] 0 (a.result 0)] rest)) ∧
    exec (.ampReadReg addr) s = .next (afterAmp s
      (match a with
        | .shift w => .ok (.word (w &&& 0xFF))
        | .fails => .fail .busError) s.amp [.xfer .amp [ampCommand .read ad] 1 (a.result 1)] rest)

/-! ### Amplifier -/

/-- 42_amp.md R253, 60_exceptions.md R402: AMP_INIT on an amplifier with the expected identity that takes the fault
configuration makes three transfers and sets both flags; a fault configuration whose readback differs, whose write fails or
whose readback fails (R259) ends it with VerifyFailed and no state; a wrong identity ends it after exactly one transaction with
`idOk` 0; a failed identity read ends it with BusError and no state (the lock and the chip-select after a failed transfer:
log 19). -/
def Obligations.AmpInitChecksTheIdentity : Prop :=
  ∀ (s : State) (rest : List Answer), Quiet s →
    (∀ id w rb : Word32, s.env.amp = .shift id :: .shift w :: .shift rb :: rest → id.extractLsb' 0 8 = 0x30 →
      rb.extractLsb' 0 8 &&& s.par.ampEchoMask = s.par.ampFaultcfgValue &&& s.par.ampEchoMask →
      exec .ampInit s = .next (afterAmp s (.ok .nothing) { s.amp with idOk := true, faultIrqEn := true }
        (.xfer .amp [ampCommand .read s.par.ampRegId] 1 (.ok [0x30]) ::
          ampVerifyEvents s.par.ampRegFaultcfg s.par.ampFaultcfgValue rb) rest)) ∧
    (∀ id w rb : Word32, s.env.amp = .shift id :: .shift w :: .shift rb :: rest → id.extractLsb' 0 8 = 0x30 →
      rb.extractLsb' 0 8 &&& s.par.ampEchoMask ≠ s.par.ampFaultcfgValue &&& s.par.ampEchoMask →
      exec .ampInit s = .next (afterAmp s (.fail .verifyFailed) s.amp
        (.xfer .amp [ampCommand .read s.par.ampRegId] 1 (.ok [0x30]) ::
          ampVerifyEvents s.par.ampRegFaultcfg s.par.ampFaultcfgValue rb) rest)) ∧
    (∀ id : Word32, s.env.amp = .shift id :: .fails :: rest → id.extractLsb' 0 8 = 0x30 →
      exec .ampInit s = .next (afterAmp s (.fail .verifyFailed) s.amp
        [.xfer .amp [ampCommand .read s.par.ampRegId] 1 (.ok [0x30]),
         .xfer .amp [ampCommand .write s.par.ampRegFaultcfg, s.par.ampFaultcfgValue] 0 .busError] rest)) ∧
    (∀ id w : Word32, s.env.amp = .shift id :: .shift w :: .fails :: rest → id.extractLsb' 0 8 = 0x30 →
      exec .ampInit s = .next (afterAmp s (.fail .verifyFailed) s.amp
        [.xfer .amp [ampCommand .read s.par.ampRegId] 1 (.ok [0x30]),
         .xfer .amp [ampCommand .write s.par.ampRegFaultcfg, s.par.ampFaultcfgValue] 0 (.ok []),
         .xfer .amp [ampCommand .read s.par.ampRegFaultcfg] 1 .busError] rest)) ∧
    (∀ id : Word32, s.env.amp = .shift id :: rest → id.extractLsb' 0 8 ≠ 0x30 →
      exec .ampInit s = .next (afterAmp s (.fail .identityMismatch) { s.amp with idOk := false }
        [.xfer .amp [ampCommand .read s.par.ampRegId] 1 (.ok [id.extractLsb' 0 8])] rest)) ∧
    (s.env.amp = .fails :: rest →
      exec .ampInit s = .next (afterAmp s (.fail .busError) s.amp
        [.xfer .amp [ampCommand .read s.par.ampRegId] 1 .busError] rest))

/-- 42_amp.md R254 to R256, R259: AMP_SET_GAIN, AMP_SET_SWITCH and AMP_SET_TESTMUX on an amplifier whose readbacks equal the
writes under AMP_ECHO_MASK: the writes in order, each read back, then the new fields. -/
def Obligations.AmpConfigurationCommandsComplete : Prop :=
  ∀ (i : Instr) (s : State) (a : AmpState) (v : Value) (ans : List (Word32 × Word32)) (rest : List Answer),
    Quiet s → ampTarget s i = some (a, v) →
    List.Forall₂ (fun w x => x.2.extractLsb' 0 8 &&& s.par.ampEchoMask = w.2 &&& s.par.ampEchoMask) (ampWrites s i) ans →
    s.env.amp = verifyScript ans ++ rest →
    exec i s = .next (afterAmp s (.ok v) a
      (((ampWrites s i).zip ans).flatMap fun x => ampVerifyEvents x.1.1 x.1.2 x.2.2) rest)

/-- 42_amp.md R259: an amplifier configuration command assigns its fields exactly when it returns Ok; on any failure no field
changes; for every device and every schedule (where a reset ends it, the two PMU lines R451 leaves unspecified have the model's
values, log 11). -/
def Obligations.AmpConfigurationIsAllOrNothing : Prop :=
  ∀ (i : Instr) (s t : State) (a : AmpState) (v : Value), ampTarget s i = some (a, v) → exec i s = .next t →
    (t.results = s.results ++ [.ok v] ∧ t.amp = a) ∨
    (t.results = s.results ++ [.fail .verifyFailed] ∧ t.amp = s.amp) ∨
    (t.results = s.results ∧ BlockReset t)

/-! ### Converter -/

/-- 43_convert.md R310, R311: the two queries return the converted value and change nothing, in any state. -/
def Obligations.QueriesReturnTheConversion : Prop :=
  (∀ (s : State) (role : BitVec 4) (range : BitVec 8) (value : BitVec 32) (ro : Role) (r : Range) (x : Rat),
    role? role = some ro → index? 6 range = some r → binary32? value = some x →
    exec (.smuValueToCode 0 role range value) s =
      .next (afterResult s (.ok (.code (valueToCode s.par ro r x s.smu.ch.cllv s.smu.ch.clhv).1)))) ∧
  ∀ (s : State) (range : BitVec 8) (code : BitVec 32) (r : Range) (c : BitVec 24),
    index? 6 range = some r → bits? 24 code = some c →
    exec (.smuCodeToValue 0 0 range code) s =
      .next (afterResult s (.ok (.rational (adcToVolts s.par c * s.smu.ch.mvGainCorr)))) ∧
    exec (.smuCodeToValue 0 1 range code) s = .next (afterResult s (.ok (.rational (adcToAmps s.par c r))))

/-- 43_convert.md R312, R308: the DAC code is non-decreasing in the value and within [0, 65535], for every table with a positive
scale. And for every table it is the calibrated effective value `y`, rounded to nearest with exact halves up, and saturated: the
code `n` has n - 1/2 ≤ y < n + 1/2; below 1/2 it is 0, from 65534.5 on 65535. Zero volts are code 32768. -/
def Obligations.ValueToCodeIsMonotone : Prop :=
  (∀ (p : Params) (role : Role) (r : Range) (x y cllv clhv : Rat), 0 < calScale p role r → x ≤ y →
    (valueToCode p role r x cllv clhv).1.toNat ≤ (valueToCode p role r y cllv clhv).1.toNat ∧
    (valueToCode p role r y cllv clhv).1.toNat ≤ 65535) ∧
  (∀ (p : Params) (role : Role) (r : Range) (x cllv clhv : Rat),
    let v := valueToCode p role r x cllv clhv
    let y := calScale p role r * v.2 + calOffset p role r
    (y < 1 / 2 → v.1 = 0) ∧ (131069 / 2 ≤ y → v.1 = 65535) ∧
    (1 / 2 ≤ y → y < 131069 / 2 → (v.1.toNat : Rat) - 1 / 2 ≤ y ∧ y < (v.1.toNat : Rat) + 1 / 2)) ∧
  ∀ (r : Range) (cllv clhv : Rat), valueToCode .reference .fv r 0 cllv clhv = (32768, 0)

/-- 43_convert.md R313: with the reference table, a value in the extended window that separation leaves alone comes back from
its code within half a step. -/
def Obligations.DacRoundTripWithinHalfAStep : Prop :=
  ∀ (role : Role) (r : Range) (v cllv clhv : Rat),
    separate Params.reference role r v cllv clhv = v →
    (extendedWindow Params.reference role r).1 ≤ v → v ≤ (extendedWindow Params.reference role r).2 →
    |dacToValue Params.reference role r (valueToCode Params.reference role r v cllv clhv).1 - v| ≤
      1 / (2 * calScale Params.reference role r)

/-- 43_convert.md R302, R303, R308: in the reference windows the effective value is the legal value nearest to the requested
one: it is legal (in the extended window, a current clamp outside its zone, a voltage clamp at least 0.5 V from its stored
partner), it is the requested value where that is legal, and no legal value is nearer. -/
def Obligations.EffectiveValueIsLegal : Prop :=
  ∀ (role : Role) (r : Range) (x cllv clhv : Rat), -(45 / 4) ≤ cllv → cllv ≤ 43 / 4 → -(43 / 4) ≤ clhv → clhv ≤ 45 / 4 →
    let xe := (valueToCode Params.reference role r x cllv clhv).2
    LegalValue Params.reference role r cllv clhv xe ∧
    (LegalValue Params.reference role r cllv clhv x → xe = x) ∧
    ∀ y, LegalValue Params.reference role r cllv clhv y → |xe - x| ≤ |y - x|

/-- 43_convert.md R303, R306, 44_sequencer.md R353: the reference windows, the zone edge I_FS/8, the calibration table that
maps each window onto the code range, R_CONS; of each role the DAC address (00_scope.md R11), the dirty bit (R352), the
stored field, and the active roles of each mode (R351); every other reference value of R11 (10_state.md R36, R38, R46 for the
layouts and the ranges; the ADC register addresses are the spec's general knowledge, log 22); and the gain tables of
42_amp.md R250, R251. -/
def Obligations.ReferenceTablesAgree : Prop :=
  (∀ r : Range, extendedWindow .reference .fv r = (-(21 / 2), 21 / 2) ∧
    extendedWindow .reference .cllv r = (-(45 / 4), 45 / 4) ∧ extendedWindow .reference .clhv r = (-(45 / 4), 45 / 4) ∧
    extendedWindow .reference .fi r = (-(21 / 20 * Params.reference.iFs[r]), 21 / 20 * Params.reference.iFs[r]) ∧
    extendedWindow .reference .clli r = (-(9 / 8 * Params.reference.iFs[r]), 9 / 8 * Params.reference.iFs[r]) ∧
    extendedWindow .reference .clhi r = (-(9 / 8 * Params.reference.iFs[r]), 9 / 8 * Params.reference.iFs[r]) ∧
    ieq .reference r = Params.reference.iFs[r] / 8) ∧
  (∀ (role : Role) (r : Range),
    let w := extendedWindow .reference role r
    calScale .reference role r = 65535 / (w.2 - w.1) ∧
    calOffset .reference role r = -w.1 * calScale .reference role r) ∧
  rCons .reference = Range.rExt200mA ∧
  (dacAddr .reference .fv = 0x08 ∧ dacAddr .reference .fi = 0x09 ∧ dacAddr .reference .clli = 0x0A ∧
    dacAddr .reference .clhi = 0x0B ∧ dacAddr .reference .cllv = 0x0C ∧ dacAddr .reference .clhv = 0x0D) ∧
  (dbit .fv = 0 ∧ dbit .fi = 1 ∧ dbit .clli = 4 ∧ dbit .clhi = 5 ∧ dbit .cllv = 6 ∧ dbit .clhv = 7) ∧
  (∀ (ch : SmuChannel) (role : Role), ch.value role = storedValue ch role) ∧
  activeRoles .fv = (.fv, .clli, .clhi) ∧ activeRoles .fi = (.fi, .cllv, .clhv) ∧
  (let p := Params.reference;
    (p.iFs = #v[5 / 10 ^ 6, 20 / 10 ^ 6, 200 / 10 ^ 6, 2 / 10 ^ 3, 20 / 10 ^ 3, 200 / 10 ^ 3] ∧
      p.rSense = #v[40000, 10000, 1000, 100, 10, 1] ∧ p.rangeHwCode = #v[0, 1, 2, 3, 4, 4] ∧
      p.extended = #v[false, false, false, false, true, true] ∧ p.miGain = 10 ∧ p.miOffset = 0 ∧ p.vWinLo = -10 ∧
      p.vWinHi = 10 ∧ p.adcVref = 5 / 2) ∧
    (p.busyPollLimit = 5 ∧ p.modeReg = 0b00 ∧ p.modeDac = 0b01 ∧ p.pmuReadFill = 0x00 ∧ p.sysEchoMask = 0x0003FF ∧
      p.chEchoMask = 0x003FFF ∧ p.sysctrlDefault = 0x000040 ∧ p.chctrlDefault = 0x00091A ∧
      p.sysLayout = ⟨⟨0, 1⟩, ⟨1, 1⟩, ⟨2, 1⟩, ⟨3, 1⟩, ⟨4, 1⟩, ⟨5, 1⟩, ⟨6, 1⟩, ⟨7, 2⟩, ⟨9, 1⟩⟩ ∧
      p.chLayout = ⟨⟨0, 1⟩, ⟨1, 1⟩, ⟨2, 1⟩, ⟨3, 3⟩, ⟨6, 2⟩, ⟨8, 1⟩, ⟨9, 1⟩, ⟨10, 1⟩, ⟨11, 1⟩, ⟨12, 1⟩, ⟨13, 1⟩⟩) ∧
    (p.adcRegData = 0x04 ∧ p.adcRegCh = #v[0x10, 0x11, 0x12, 0x13] ∧ p.adcChMv = 0 ∧ p.adcChMi = 1 ∧
      p.ampRegGain = 0x00 ∧ p.ampRegInmux = 0x01 ∧ p.ampRegTestmux = 0x02 ∧ p.ampRegFaultcfg = 0x03 ∧ p.ampRegId = 0x0F ∧
      p.ampFaultcfgValue = 0x01 ∧ p.ampEchoMask = 0xFF) ∧
    (p.resetRange = Range.r2mA ∧ p.clISafe = 2 / 10 ^ 3 ∧ p.clVSafe = 10 ∧ p.mvGainCorr0 = 1 ∧ p.miMult0 = 1) ∧
    (∀ k : Fin 12, p.ig[k] = 2 ^ k.val / 2 ^ 4) ∧ p.og = #v[1, 5 / 4, 11 / 8])

/-- 43_convert.md R304, R305: the ADC conversions, their range, and the hook that is the identity. -/
def Obligations.AdcConversionIsLinear : Prop :=
  ∀ (p : Params) (code : BitVec 24) (r : Range),
    adcToVolts p code = ((code.toNat : Rat) - 2 ^ 23) * p.adcVref / 2 ^ 23 ∧
    adcToAmps p code r = (adcToVolts p code - p.miOffset) / (p.miGain * p.rSense[r]) ∧
    (0 ≤ p.adcVref → -p.adcVref ≤ adcToVolts p code ∧ adcToVolts p code ≤ p.adcVref * (1 - 1 / 2 ^ 23))

/-- 30_encoding.md R113: a binary32 with a positive exponent field below 255 denotes its signed significand times a power of
two, a zero field a subnormal, and the field 255 nothing. -/
def Obligations.Binary32DenotesItsRational : Prop :=
  ∀ (neg : Bool) (e : BitVec 8) (f : BitVec 23),
    let d : BitVec 32 := BitVec.ofBool neg ++ e ++ f
    let sign : Rat := if neg then -1 else 1
    (e = 0xFF → binary32? d = none) ∧
    (e = 0 → binary32? d = some (sign * f.toNat / 2 ^ 149)) ∧
    (e ≠ 0xFF → e ≠ 0 → binary32? d = some (sign * (2 ^ 23 + f.toNat) * 2 ^ e.toNat / 2 ^ 150))

/-! ### Sequencer -/

/-- 44_sequencer.md R352, R351: SMU_SET_VALUE of an inactive role stores the effective value, sets the role's dirty bit and
returns the code, with no I/O, whatever the schedule. -/
def Obligations.SetValueStoresInactiveRole : Prop :=
  ∀ (s : State) (role : BitVec 4) (value : BitVec 32) (ro : Role) (x : Rat),
    role? role = some ro → binary32? value = some x →
    ro ≠ (activeRoles s.smu.ch.mode).1 → ro ≠ (activeRoles s.smu.ch.mode).2.1 → ro ≠ (activeRoles s.smu.ch.mode).2.2 →
    let v := valueToCode s.par ro s.smu.ch.range x s.smu.ch.cllv s.smu.ch.clhv
    let stored := match ro with
      | .fv => { s.smu.ch with fv := v.2, dirty := s.smu.ch.dirty ||| 0x001 }
      | .fi => { s.smu.ch with fi := v.2, dirty := s.smu.ch.dirty ||| 0x002 }
      | .clli => { s.smu.ch with clli := v.2, dirty := s.smu.ch.dirty ||| 0x010 }
      | .clhi => { s.smu.ch with clhi := v.2, dirty := s.smu.ch.dirty ||| 0x020 }
      | .cllv => { s.smu.ch with cllv := v.2, dirty := s.smu.ch.dirty ||| 0x040 }
      | .clhv => { s.smu.ch with clhv := v.2, dirty := s.smu.ch.dirty ||| 0x080 }
    exec (.smuSetValue 0 role value) s =
      .next (afterResult { s with smu := { s.smu with ch := stored } } (.ok (.code v.1)))

/-- 44_sequencer.md R352: SMU_SET_VALUE of an active role writes its DAC and compares, and then stores, or answers
VerifyFailed and stores nothing. -/
def Obligations.SetValueProgramsActiveRole : Prop :=
  ∀ (s : State) (role : BitVec 4) (value : BitVec 32) (ro : Role) (x : Rat) (w rb : Word32) (rest : List Answer)
    (brest : List Bool),
    Quiet s → 0 < s.par.busyPollLimit → role? role = some ro → binary32? value = some x →
    ro ∈ [(activeRoles s.smu.ch.mode).1, (activeRoles s.smu.ch.mode).2.1, (activeRoles s.smu.ch.mode).2.2] →
    s.env.pmu = .shift w :: .shift rb :: rest → s.env.busy = true :: true :: brest →
    let v := valueToCode s.par ro s.smu.ch.range x s.smu.ch.cllv s.smu.ch.clhv
    let addr : BitVec 6 := match ro with
      | .fv => s.par.dacAddr[0]
      | .fi => s.par.dacAddr[1]
      | .clli => s.par.dacAddr[2]
      | .clhi => s.par.dacAddr[3]
      | .cllv => s.par.dacAddr[4]
      | .clhv => s.par.dacAddr[5]
    let stored := match ro with
      | .fv => { s.smu.ch with fv := v.2, dirty := s.smu.ch.dirty ||| 0x001 }
      | .fi => { s.smu.ch with fi := v.2, dirty := s.smu.ch.dirty ||| 0x002 }
      | .clli => { s.smu.ch with clli := v.2, dirty := s.smu.ch.dirty ||| 0x010 }
      | .clhi => { s.smu.ch with clhi := v.2, dirty := s.smu.ch.dirty ||| 0x020 }
      | .cllv => { s.smu.ch with cllv := v.2, dirty := s.smu.ch.dirty ||| 0x040 }
      | .clhv => { s.smu.ch with clhv := v.2, dirty := s.smu.ch.dirty ||| 0x080 }
    let events := pmuVerifyEvents s.par 1 s.par.modeDac (addr ++ v.1) (addr ++ 0#16) rb
    exec (.smuSetValue 0 role value) s = .next (
      if rb.extractLsb' 0 16 = v.1 then
        afterPmu s (.ok (.code v.1)) s.pmu { s.smu with ch := stored } events rest brest
      else afterPmu s (.fail .verifyFailed) s.pmu s.smu events rest brest)

/-- 44_sequencer.md R353, R357: on a PMU whose readbacks verify (40_pmu.md R141, R142; 20_memory.md R85's among them), a range
switch runs exactly its plan's write-and-verifies in order, then stores the range and sets its dirty bit; no stored value
changes. The model's choices here: the range select and the shadow have the reserved bits cleared (log 28: R38, 30_encoding.md
R131), and which range R_CONS is for parameters other than the reference ones (log 14). -/
def Obligations.SetRangeRunsItsPlan : Prop :=
  ∀ (s : State) (sel : BitVec 4) (r' : Range) (ans : List (Word32 × Word32)) (rest : List Answer) (brest : List Bool),
    Quiet s → 0 < s.par.busyPollLimit → index? 6 sel = some r' → r' ≠ s.smu.ch.range →
    List.Forall₂ (fun step x => step.verified s.par x.2 = true) (rangePlan s r') ans →
    s.env.pmu = verifyScript ans ++ rest →
    s.env.busy = List.replicate (2 * (rangePlan s r').length) true ++ brest →
    exec (.smuSetRange 0 sel) s = .next (afterPmu s (.ok .nothing)
      { s.pmu with ch := s.pmu.ch.set 0 (withRangeCode s.par.chLayout s.pmu.ch[(0 : Fin 4)] s.par.rangeHwCode[r']) }
      { s.smu with ch := { s.smu.ch with range := r', dirty := s.smu.ch.dirty ||| 0x100 } }
      (planEvents s.par (rangePlan s r') ans) rest brest)

/-- 44_sequencer.md R354, R357: on a PMU whose readbacks verify (40_pmu.md R141, R142; 20_memory.md R85's among them), a mode
switch runs exactly its plan's write-and-verifies in order, then stores the mode and sets its dirty bit. That the mode select
and the shadow have the reserved bits cleared is the model's choice (log 28: R38, 30_encoding.md R131). -/
def Obligations.SetModeRunsItsPlan : Prop :=
  ∀ (s : State) (sel : BitVec 4) (m : ForceMode) (ans : List (Word32 × Word32)) (rest : List Answer)
    (brest : List Bool),
    Quiet s → 0 < s.par.busyPollLimit → forceMode? sel = some m → m ≠ s.smu.ch.mode →
    List.Forall₂ (fun step x => step.verified s.par x.2 = true) (modePlan s m) ans →
    s.env.pmu = verifyScript ans ++ rest →
    s.env.busy = List.replicate (2 * (modePlan s m).length) true ++ brest →
    exec (.smuSetMode 0 sel) s = .next (afterPmu s (.ok .nothing)
      { s.pmu with ch := s.pmu.ch.set 0 (withForceMode s.par.chLayout s.pmu.ch[(0 : Fin 4)] m) }
      { s.smu with ch := { s.smu.ch with mode := m, dirty := s.smu.ch.dirty ||| 0x400 } }
      (planEvents s.par (modePlan s m) ans) rest brest)

/-- 44_sequencer.md R357, R358: whatever the devices answer and whatever the schedule, the frames a range or mode switch
sends the PMU are an initial part of its plan's: in force-voltage mode the clamp writes of a growing range always precede the
range select, and the reverse for a shrinking one. The model's choices here: the register frames carry the shadow with its
reserved bits cleared (log 28: R38, 30_encoding.md R131, against R350's pseudocode), and R_CONS for other parameters than the
reference ones (log 14). -/
def Obligations.SwitchFramesFollowThePlan : Prop :=
  (∀ (s t : State) (sel : BitVec 4) (r' : Range), index? 6 sel = some r' → exec (.smuSetRange 0 sel) s = .next t →
    ∃ l, pmuFrames t.trace = pmuFrames s.trace ++ l ∧ l <+: (rangePlan s r').flatMap (HwStep.frames s.par)) ∧
  ∀ (s t : State) (sel : BitVec 4) (m : ForceMode), forceMode? sel = some m → exec (.smuSetMode 0 sel) s = .next t →
    ∃ l, pmuFrames t.trace = pmuFrames s.trace ++ l ∧ l <+: (modePlan s m).flatMap (HwStep.frames s.par)

/-- 44_sequencer.md R355: SMU_SET_STATE writes the two enable bits, and then stores the state, or answers VerifyFailed and
stores nothing. That the register value has the shadow's reserved bits cleared is the model's choice (log 28: R38,
30_encoding.md R131, against R350's pseudocode). -/
def Obligations.SetStateWritesEnableBits : Prop :=
  ∀ (s : State) (sel : BitVec 4) (st : EnableState) (w rb : Word32) (rest : List Answer) (brest : List Bool),
    Quiet s → 0 < s.par.busyPollLimit → enableState? sel = some st → st ≠ s.smu.ch.state →
    s.env.pmu = .shift w :: .shift rb :: rest → s.env.busy = true :: true :: brest →
    let pst := match st with
      | .disabled => ChanState.disabled
      | .standby => .hiz
      | .enabled => .enabled
    let v := withChanState s.par.chLayout s.pmu.ch[(0 : Fin 4)] pst
    let events := pmuVerifyEvents s.par 1 s.par.modeReg v 0 rb
    exec (.smuSetState 0 sel) s = .next (
      if rb.extractLsb' 0 22 &&& s.par.chEchoMask = v &&& s.par.chEchoMask then
        afterPmu s (.ok .nothing) { s.pmu with ch := s.pmu.ch.set 0 v }
          { s.smu with ch := { s.smu.ch with state := st, dirty := s.smu.ch.dirty ||| 0x200 } } events rest brest
      else afterPmu s (.fail .verifyFailed) s.pmu s.smu events rest brest)

/-- 44_sequencer.md R353 to R355, R359: setting the held range, mode or state is a no-op that returns Ok. -/
def Obligations.SettingTheHeldValueIsANoOp : Prop :=
  ∀ (s : State) (sel : BitVec 4),
    (index? 6 sel = some s.smu.ch.range → exec (.smuSetRange 0 sel) s = .next (afterResult s (.ok .nothing))) ∧
    (forceMode? sel = some s.smu.ch.mode → exec (.smuSetMode 0 sel) s = .next (afterResult s (.ok .nothing))) ∧
    (enableState? sel = some s.smu.ch.state → exec (.smuSetState 0 sel) s = .next (afterResult s (.ok .nothing)))

/-- 44_sequencer.md R351, R356, R375: a setter assigns its field and sets its own dirty bit exactly when it returns Ok; on any
failure no setting and no dirty bit but the callback's two changes; for every device and every schedule (where a reset ends
it, the two PMU lines R451 leaves unspecified have the model's values, log 11). -/
def Obligations.SetterCommitsExactlyOnSuccess : Prop :=
  ∀ (i : Instr) (s t : State) (ch : SmuChannel) (v : Value), smuTarget s i = some (ch, v) →
    exec i s = .next t →
    (t.results = s.results ++ [.ok v] ∧ SameSettings t.smu.ch ch ∧
      t.smu.ch.dirty &&& 0xFF3 = ch.dirty &&& 0xFF3) ∨
    (t.results = s.results ++ [.fail .verifyFailed] ∧ SameSettings t.smu.ch s.smu.ch ∧
      t.smu.ch.dirty &&& 0xFF3 = s.smu.ch.dirty &&& 0xFF3) ∨
    (t.results = s.results ∧ BlockReset t)

/-- 44_sequencer.md R370: no command but SMU_QUEUE_FULL_UPDATE sets the SENSE dirty bit, whatever steps of other agents the
schedule puts inside it. -/
def Obligations.OnlyFullUpdateMarksSense : Prop :=
  ∀ (i : Instr) (s t : State), exec i s = .next t → i ≠ .smuQueueFullUpdate →
    t.smu.ch.dirty.getLsbD 11 = true → s.smu.ch.dirty.getLsbD 11 = true

/-- 44_sequencer.md R372, R374: the opcode and the whole effect of SMU_PUBLISH_TICK (one record of the dirty fields if there are any, the
bitmap and the forced request cleared), and of the forced publish step, which runs the same drain between two commands while
it is requested and otherwise does nothing (log 12). -/
def Obligations.PublishDrainsTheDirtyFields : Prop :=
  (∀ rest : BitVec 56, decode (0x46#8 ++ rest) = .ok .smuPublishTick) ∧
  ∀ s : State,
    let drained := { s with
      pubOut := s.pubOut ++ (if s.smu.ch.dirty = 0 then [] else [⟨0, publishFields s.smu.ch⟩])
      smu := ⟨{ s.smu.ch with dirty := 0 }, false⟩ }
    exec .smuPublishTick s = .next (afterResult drained (.ok .nothing)) ∧
    (s.cmd.op = none → s.smu.forcePublish = true → forcedPublishStep s = drained) ∧
    (s.cmd.op ≠ none ∨ s.smu.forcePublish = false → forcedPublishStep s = s)

/-- 44_sequencer.md R371: a record carries a field exactly when its dirty bit is set, `unit` with `range`, and `mi` is
multiplied by `miMult`; and the numbers the rule's table gives the published range, state, mode and sense (10_state.md R47). -/
def Obligations.RecordCarriesExactlyTheDirtyFields : Prop :=
  (∀ r : Range, (PubField.range r).number = some r.val) ∧
  ((PubField.state .disabled).number = some 0 ∧ (PubField.state .standby).number = some 1 ∧
    (PubField.state .enabled).number = some 2) ∧
  ((PubField.mode .fv).number = some 0 ∧ (PubField.mode .fi).number = some 1) ∧
  ((PubField.sense .loc).number = some 0 ∧ (PubField.sense .remote).number = some 1) ∧
  ∀ (ch : SmuChannel) (f : PubField), f ∈ publishFields ch ↔
    (ch.dirty.getLsbD 0 = true ∧ f = .fv ch.fv) ∨ (ch.dirty.getLsbD 1 = true ∧ f = .fi ch.fi) ∨
    (ch.dirty.getLsbD 2 = true ∧ f = .mv ch.mv) ∨ (ch.dirty.getLsbD 3 = true ∧ f = .mi (ch.mi * ch.miMult)) ∨
    (ch.dirty.getLsbD 4 = true ∧ f = .clli ch.clli) ∨ (ch.dirty.getLsbD 5 = true ∧ f = .clhi ch.clhi) ∨
    (ch.dirty.getLsbD 6 = true ∧ f = .cllv ch.cllv) ∨ (ch.dirty.getLsbD 7 = true ∧ f = .clhv ch.clhv) ∨
    (ch.dirty.getLsbD 8 = true ∧
      (f = .range ch.range ∨ f = .unit (if ch.range.val ≤ 2 then .ua else .ma))) ∨
    (ch.dirty.getLsbD 9 = true ∧ f = .state ch.state) ∨ (ch.dirty.getLsbD 10 = true ∧ f = .mode ch.mode) ∨
    (ch.dirty.getLsbD 11 = true ∧ f = .sense ch.sense)

/-- 44_sequencer.md R373: SMU_QUEUE_FULL_UPDATE's opcode and whole effect. -/
def Obligations.QueueFullUpdateMarksEverything : Prop :=
  (∀ rest : BitVec 56, decode (0x47#8 ++ rest) = .ok .smuQueueFullUpdate) ∧
  ∀ s : State, exec .smuQueueFullUpdate s = .next (afterResult
    { s with smu := { ch := { s.smu.ch with dirty := 0xFFF }, forcePublish := true } } (.ok .nothing))
end

