-- ==== Sys2Proof/Laws/State.lean ====
section
/-! SUPPORT. One lemma per field per update of the state (Machine/State.lean): what the update leaves there. -/

namespace Sys2Proof.Machine.State

/-! ### `setCmd` -/

@[simp] theorem setCmd_par (s : State) (x : Sequencer) : (s.setCmd x).par = s.par := rfl
@[simp] theorem setCmd_cmd (s : State) (x : Sequencer) : (s.setCmd x).cmd = x := rfl
@[simp] theorem setCmd_pmu (s : State) (x : Sequencer) : (s.setCmd x).pmu = s.pmu := rfl
@[simp] theorem setCmd_adc (s : State) (x : Sequencer) : (s.setCmd x).adc = s.adc := rfl
@[simp] theorem setCmd_smu (s : State) (x : Sequencer) : (s.setCmd x).smu = s.smu := rfl
@[simp] theorem setCmd_amp (s : State) (x : Sequencer) : (s.setCmd x).amp = s.amp := rfl
@[simp] theorem setCmd_bus (s : State) (x : Sequencer) : (s.setCmd x).bus = s.bus := rfl
@[simp] theorem setCmd_port (s : State) (x : Sequencer) : (s.setCmd x).port = s.port := rfl
@[simp] theorem setCmd_results (s : State) (x : Sequencer) : (s.setCmd x).results = s.results := rfl
@[simp] theorem setCmd_pubOut (s : State) (x : Sequencer) : (s.setCmd x).pubOut = s.pubOut := rfl
@[simp] theorem setCmd_trace (s : State) (x : Sequencer) : (s.setCmd x).trace = s.trace := rfl
@[simp] theorem setCmd_env (s : State) (x : Sequencer) : (s.setCmd x).env = s.env := rfl

/-! ### `setPmu` -/

@[simp] theorem setPmu_par (s : State) (x : PmuState) : (s.setPmu x).par = s.par := rfl
@[simp] theorem setPmu_cmd (s : State) (x : PmuState) : (s.setPmu x).cmd = s.cmd := rfl
@[simp] theorem setPmu_pmu (s : State) (x : PmuState) : (s.setPmu x).pmu = x := rfl
@[simp] theorem setPmu_adc (s : State) (x : PmuState) : (s.setPmu x).adc = s.adc := rfl
@[simp] theorem setPmu_smu (s : State) (x : PmuState) : (s.setPmu x).smu = s.smu := rfl
@[simp] theorem setPmu_amp (s : State) (x : PmuState) : (s.setPmu x).amp = s.amp := rfl
@[simp] theorem setPmu_bus (s : State) (x : PmuState) : (s.setPmu x).bus = s.bus := rfl
@[simp] theorem setPmu_port (s : State) (x : PmuState) : (s.setPmu x).port = s.port := rfl
@[simp] theorem setPmu_results (s : State) (x : PmuState) : (s.setPmu x).results = s.results := rfl
@[simp] theorem setPmu_pubOut (s : State) (x : PmuState) : (s.setPmu x).pubOut = s.pubOut := rfl
@[simp] theorem setPmu_trace (s : State) (x : PmuState) : (s.setPmu x).trace = s.trace := rfl
@[simp] theorem setPmu_env (s : State) (x : PmuState) : (s.setPmu x).env = s.env := rfl

/-! ### `setAdc` -/

@[simp] theorem setAdc_par (s : State) (x : AdcState) : (s.setAdc x).par = s.par := rfl
@[simp] theorem setAdc_cmd (s : State) (x : AdcState) : (s.setAdc x).cmd = s.cmd := rfl
@[simp] theorem setAdc_pmu (s : State) (x : AdcState) : (s.setAdc x).pmu = s.pmu := rfl
@[simp] theorem setAdc_adc (s : State) (x : AdcState) : (s.setAdc x).adc = x := rfl
@[simp] theorem setAdc_smu (s : State) (x : AdcState) : (s.setAdc x).smu = s.smu := rfl
@[simp] theorem setAdc_amp (s : State) (x : AdcState) : (s.setAdc x).amp = s.amp := rfl
@[simp] theorem setAdc_bus (s : State) (x : AdcState) : (s.setAdc x).bus = s.bus := rfl
@[simp] theorem setAdc_port (s : State) (x : AdcState) : (s.setAdc x).port = s.port := rfl
@[simp] theorem setAdc_results (s : State) (x : AdcState) : (s.setAdc x).results = s.results := rfl
@[simp] theorem setAdc_pubOut (s : State) (x : AdcState) : (s.setAdc x).pubOut = s.pubOut := rfl
@[simp] theorem setAdc_trace (s : State) (x : AdcState) : (s.setAdc x).trace = s.trace := rfl
@[simp] theorem setAdc_env (s : State) (x : AdcState) : (s.setAdc x).env = s.env := rfl

/-! ### `setSmu` -/

@[simp] theorem setSmu_par (s : State) (x : SmuState) : (s.setSmu x).par = s.par := rfl
@[simp] theorem setSmu_cmd (s : State) (x : SmuState) : (s.setSmu x).cmd = s.cmd := rfl
@[simp] theorem setSmu_pmu (s : State) (x : SmuState) : (s.setSmu x).pmu = s.pmu := rfl
@[simp] theorem setSmu_adc (s : State) (x : SmuState) : (s.setSmu x).adc = s.adc := rfl
@[simp] theorem setSmu_smu (s : State) (x : SmuState) : (s.setSmu x).smu = x := rfl
@[simp] theorem setSmu_amp (s : State) (x : SmuState) : (s.setSmu x).amp = s.amp := rfl
@[simp] theorem setSmu_bus (s : State) (x : SmuState) : (s.setSmu x).bus = s.bus := rfl
@[simp] theorem setSmu_port (s : State) (x : SmuState) : (s.setSmu x).port = s.port := rfl
@[simp] theorem setSmu_results (s : State) (x : SmuState) : (s.setSmu x).results = s.results := rfl
@[simp] theorem setSmu_pubOut (s : State) (x : SmuState) : (s.setSmu x).pubOut = s.pubOut := rfl
@[simp] theorem setSmu_trace (s : State) (x : SmuState) : (s.setSmu x).trace = s.trace := rfl
@[simp] theorem setSmu_env (s : State) (x : SmuState) : (s.setSmu x).env = s.env := rfl

/-! ### `setAmp` -/

@[simp] theorem setAmp_par (s : State) (x : AmpState) : (s.setAmp x).par = s.par := rfl
@[simp] theorem setAmp_cmd (s : State) (x : AmpState) : (s.setAmp x).cmd = s.cmd := rfl
@[simp] theorem setAmp_pmu (s : State) (x : AmpState) : (s.setAmp x).pmu = s.pmu := rfl
@[simp] theorem setAmp_adc (s : State) (x : AmpState) : (s.setAmp x).adc = s.adc := rfl
@[simp] theorem setAmp_smu (s : State) (x : AmpState) : (s.setAmp x).smu = s.smu := rfl
@[simp] theorem setAmp_amp (s : State) (x : AmpState) : (s.setAmp x).amp = x := rfl
@[simp] theorem setAmp_bus (s : State) (x : AmpState) : (s.setAmp x).bus = s.bus := rfl
@[simp] theorem setAmp_port (s : State) (x : AmpState) : (s.setAmp x).port = s.port := rfl
@[simp] theorem setAmp_results (s : State) (x : AmpState) : (s.setAmp x).results = s.results := rfl
@[simp] theorem setAmp_pubOut (s : State) (x : AmpState) : (s.setAmp x).pubOut = s.pubOut := rfl
@[simp] theorem setAmp_trace (s : State) (x : AmpState) : (s.setAmp x).trace = s.trace := rfl
@[simp] theorem setAmp_env (s : State) (x : AmpState) : (s.setAmp x).env = s.env := rfl

/-! ### `setBus` -/

@[simp] theorem setBus_par (s : State) (x : BusState) : (s.setBus x).par = s.par := rfl
@[simp] theorem setBus_cmd (s : State) (x : BusState) : (s.setBus x).cmd = s.cmd := rfl
@[simp] theorem setBus_pmu (s : State) (x : BusState) : (s.setBus x).pmu = s.pmu := rfl
@[simp] theorem setBus_adc (s : State) (x : BusState) : (s.setBus x).adc = s.adc := rfl
@[simp] theorem setBus_smu (s : State) (x : BusState) : (s.setBus x).smu = s.smu := rfl
@[simp] theorem setBus_amp (s : State) (x : BusState) : (s.setBus x).amp = s.amp := rfl
@[simp] theorem setBus_bus (s : State) (x : BusState) : (s.setBus x).bus = x := rfl
@[simp] theorem setBus_port (s : State) (x : BusState) : (s.setBus x).port = s.port := rfl
@[simp] theorem setBus_results (s : State) (x : BusState) : (s.setBus x).results = s.results := rfl
@[simp] theorem setBus_pubOut (s : State) (x : BusState) : (s.setBus x).pubOut = s.pubOut := rfl
@[simp] theorem setBus_trace (s : State) (x : BusState) : (s.setBus x).trace = s.trace := rfl
@[simp] theorem setBus_env (s : State) (x : BusState) : (s.setBus x).env = s.env := rfl

/-! ### `setPort` -/

@[simp] theorem setPort_par (s : State) (x : List CmdWord) : (s.setPort x).par = s.par := rfl
@[simp] theorem setPort_cmd (s : State) (x : List CmdWord) : (s.setPort x).cmd = s.cmd := rfl
@[simp] theorem setPort_pmu (s : State) (x : List CmdWord) : (s.setPort x).pmu = s.pmu := rfl
@[simp] theorem setPort_adc (s : State) (x : List CmdWord) : (s.setPort x).adc = s.adc := rfl
@[simp] theorem setPort_smu (s : State) (x : List CmdWord) : (s.setPort x).smu = s.smu := rfl
@[simp] theorem setPort_amp (s : State) (x : List CmdWord) : (s.setPort x).amp = s.amp := rfl
@[simp] theorem setPort_bus (s : State) (x : List CmdWord) : (s.setPort x).bus = s.bus := rfl
@[simp] theorem setPort_port (s : State) (x : List CmdWord) : (s.setPort x).port = x := rfl
@[simp] theorem setPort_results (s : State) (x : List CmdWord) : (s.setPort x).results = s.results := rfl
@[simp] theorem setPort_pubOut (s : State) (x : List CmdWord) : (s.setPort x).pubOut = s.pubOut := rfl
@[simp] theorem setPort_trace (s : State) (x : List CmdWord) : (s.setPort x).trace = s.trace := rfl
@[simp] theorem setPort_env (s : State) (x : List CmdWord) : (s.setPort x).env = s.env := rfl

/-! ### `setResults` -/

@[simp] theorem setResults_par (s : State) (x : List Result) : (s.setResults x).par = s.par := rfl
@[simp] theorem setResults_cmd (s : State) (x : List Result) : (s.setResults x).cmd = s.cmd := rfl
@[simp] theorem setResults_pmu (s : State) (x : List Result) : (s.setResults x).pmu = s.pmu := rfl
@[simp] theorem setResults_adc (s : State) (x : List Result) : (s.setResults x).adc = s.adc := rfl
@[simp] theorem setResults_smu (s : State) (x : List Result) : (s.setResults x).smu = s.smu := rfl
@[simp] theorem setResults_amp (s : State) (x : List Result) : (s.setResults x).amp = s.amp := rfl
@[simp] theorem setResults_bus (s : State) (x : List Result) : (s.setResults x).bus = s.bus := rfl
@[simp] theorem setResults_port (s : State) (x : List Result) : (s.setResults x).port = s.port := rfl
@[simp] theorem setResults_results (s : State) (x : List Result) : (s.setResults x).results = x := rfl
@[simp] theorem setResults_pubOut (s : State) (x : List Result) : (s.setResults x).pubOut = s.pubOut := rfl
@[simp] theorem setResults_trace (s : State) (x : List Result) : (s.setResults x).trace = s.trace := rfl
@[simp] theorem setResults_env (s : State) (x : List Result) : (s.setResults x).env = s.env := rfl

/-! ### `setPubOut` -/

@[simp] theorem setPubOut_par (s : State) (x : List PubRecord) : (s.setPubOut x).par = s.par := rfl
@[simp] theorem setPubOut_cmd (s : State) (x : List PubRecord) : (s.setPubOut x).cmd = s.cmd := rfl
@[simp] theorem setPubOut_pmu (s : State) (x : List PubRecord) : (s.setPubOut x).pmu = s.pmu := rfl
@[simp] theorem setPubOut_adc (s : State) (x : List PubRecord) : (s.setPubOut x).adc = s.adc := rfl
@[simp] theorem setPubOut_smu (s : State) (x : List PubRecord) : (s.setPubOut x).smu = s.smu := rfl
@[simp] theorem setPubOut_amp (s : State) (x : List PubRecord) : (s.setPubOut x).amp = s.amp := rfl
@[simp] theorem setPubOut_bus (s : State) (x : List PubRecord) : (s.setPubOut x).bus = s.bus := rfl
@[simp] theorem setPubOut_port (s : State) (x : List PubRecord) : (s.setPubOut x).port = s.port := rfl
@[simp] theorem setPubOut_results (s : State) (x : List PubRecord) : (s.setPubOut x).results = s.results := rfl
@[simp] theorem setPubOut_pubOut (s : State) (x : List PubRecord) : (s.setPubOut x).pubOut = x := rfl
@[simp] theorem setPubOut_trace (s : State) (x : List PubRecord) : (s.setPubOut x).trace = s.trace := rfl
@[simp] theorem setPubOut_env (s : State) (x : List PubRecord) : (s.setPubOut x).env = s.env := rfl

/-! ### `setTrace` -/

@[simp] theorem setTrace_par (s : State) (x : List BusEvent) : (s.setTrace x).par = s.par := rfl
@[simp] theorem setTrace_cmd (s : State) (x : List BusEvent) : (s.setTrace x).cmd = s.cmd := rfl
@[simp] theorem setTrace_pmu (s : State) (x : List BusEvent) : (s.setTrace x).pmu = s.pmu := rfl
@[simp] theorem setTrace_adc (s : State) (x : List BusEvent) : (s.setTrace x).adc = s.adc := rfl
@[simp] theorem setTrace_smu (s : State) (x : List BusEvent) : (s.setTrace x).smu = s.smu := rfl
@[simp] theorem setTrace_amp (s : State) (x : List BusEvent) : (s.setTrace x).amp = s.amp := rfl
@[simp] theorem setTrace_bus (s : State) (x : List BusEvent) : (s.setTrace x).bus = s.bus := rfl
@[simp] theorem setTrace_port (s : State) (x : List BusEvent) : (s.setTrace x).port = s.port := rfl
@[simp] theorem setTrace_results (s : State) (x : List BusEvent) : (s.setTrace x).results = s.results := rfl
@[simp] theorem setTrace_pubOut (s : State) (x : List BusEvent) : (s.setTrace x).pubOut = s.pubOut := rfl
@[simp] theorem setTrace_trace (s : State) (x : List BusEvent) : (s.setTrace x).trace = x := rfl
@[simp] theorem setTrace_env (s : State) (x : List BusEvent) : (s.setTrace x).env = s.env := rfl

/-! ### `setEnv` -/

@[simp] theorem setEnv_par (s : State) (x : Env) : (s.setEnv x).par = s.par := rfl
@[simp] theorem setEnv_cmd (s : State) (x : Env) : (s.setEnv x).cmd = s.cmd := rfl
@[simp] theorem setEnv_pmu (s : State) (x : Env) : (s.setEnv x).pmu = s.pmu := rfl
@[simp] theorem setEnv_adc (s : State) (x : Env) : (s.setEnv x).adc = s.adc := rfl
@[simp] theorem setEnv_smu (s : State) (x : Env) : (s.setEnv x).smu = s.smu := rfl
@[simp] theorem setEnv_amp (s : State) (x : Env) : (s.setEnv x).amp = s.amp := rfl
@[simp] theorem setEnv_bus (s : State) (x : Env) : (s.setEnv x).bus = s.bus := rfl
@[simp] theorem setEnv_port (s : State) (x : Env) : (s.setEnv x).port = s.port := rfl
@[simp] theorem setEnv_results (s : State) (x : Env) : (s.setEnv x).results = s.results := rfl
@[simp] theorem setEnv_pubOut (s : State) (x : Env) : (s.setEnv x).pubOut = s.pubOut := rfl
@[simp] theorem setEnv_trace (s : State) (x : Env) : (s.setEnv x).trace = s.trace := rfl
@[simp] theorem setEnv_env (s : State) (x : Env) : (s.setEnv x).env = x := rfl

end Sys2Proof.Machine.State
end

