-- ==== Sys2Proof/Laws/Ops.lean ====
section
/-! SUPPORT. What the shared bus operations (Machine/Ops.lean) can do, said once for each: first whatever the oracle answers,
then on a scripted answer. -/

namespace Sys2Proof.Machine

/-! ### Bytes, 20_memory.md R90 -/

theorem bytesOf_length (n : Nat) (w : Word32) : (bytesOf n w).length = n := by
  induction n with
  | zero => rfl
  | succ n ih => simp [bytesOf, ih]

/-- Bytes cut from a word and assembled again are the word's low bytes. -/
theorem packBytes_bytesOf (n : Nat) (hn : n ≤ 4) (w : Word32) :
    packBytes (bytesOf n w) = BitVec.ofNat 32 (w.toNat % 2 ^ (8 * n)) := by
  have h : n = 0 ∨ n = 1 ∨ n = 2 ∨ n = 3 ∨ n = 4 := by omega
  rcases h with rfl | rfl | rfl | rfl | rfl <;>
    · apply BitVec.eq_of_getLsbD_eq
      intro i hi
      simp only [packBytes, bytesOf, List.foldl_cons, List.foldl_nil, BitVec.getLsbD_or, BitVec.getLsbD_shiftLeft,
        BitVec.getLsbD_setWidth, BitVec.getLsbD_ushiftRight, BitVec.getLsbD_ofNat,
        Nat.testBit_mod_two_pow, BitVec.testBit_toNat]
      interval_cases i <;> simp

theorem packBytes_bytesOf_four (w : Word32) : packBytes (bytesOf 4 w) = w := by
  rw [packBytes_bytesOf 4 (by omega)]
  apply BitVec.eq_of_toNat_eq
  have := w.isLt
  simp only [BitVec.toNat_ofNat]
  omega

/-! ### The oracle -/

@[simp] theorem Env.setAnswers_sched (e : Env) (dev : Dev) (l : List Answer) : (e.setAnswers dev l).sched = e.sched := by
  cases dev <;> rfl

@[simp] theorem Env.setAnswers_device (e : Env) (dev : Dev) (l : List Answer) :
    (e.setAnswers dev l).device = e.device := by cases dev <;> rfl

@[simp] theorem Env.setAnswers_busy (e : Env) (dev : Dev) (l : List Answer) : (e.setAnswers dev l).busy = e.busy := by
  cases dev <;> rfl

/-- A drawn answer uses up at most a lined-up answer. -/
theorem drawAnswer_state (dev : Dev) (out : List Byte) (nIn : Nat) (s : State) :
    ∃ e : Env, (drawAnswer dev out nIn s).2 = s.setEnv e ∧ e.sched = s.env.sched ∧ e.device = s.env.device ∧
      e.busy = s.env.busy := by
  unfold drawAnswer
  split
  · exact ⟨_, rfl, by simp, by simp, by simp⟩
  · exact ⟨s.env, rfl, rfl, rfl, rfl⟩

theorem drawAnswer_scripted {dev : Dev} {s : State} {a : Answer} {rest : List Answer} (out : List Byte) (nIn : Nat)
    (h : s.env.answers dev = a :: rest) :
    drawAnswer dev out nIn s = (a, s.setEnv (s.env.setAnswers dev rest)) := by
  unfold drawAnswer
  rw [h]

/-- A transfer brings back a failure or exactly the requested number of bytes (20_memory.md R84). -/
theorem Answer.result_cases (a : Answer) (nIn : Nat) :
    a.result nIn = .busError ∨ ∃ bits, a.result nIn = .ok (bytesOf nIn bits) := by
  cases a with
  | shift bits => exact .inr ⟨bits, rfl⟩
  | fails => exact .inl rfl

/-! ### What a bus operation may change -/

/-- `t` is `s` but for the bus lines, the wires' history and what is left of the environment's answers. -/
def BusOnly (s t : State) : Prop :=
  t = ((s.setBus t.bus).setTrace t.trace).setEnv t.env ∧ t.env.sched = s.env.sched ∧ t.env.device = s.env.device

theorem BusOnly.refl (s : State) : BusOnly s s := ⟨rfl, rfl, rfl⟩

theorem BusOnly.trans {s t u : State} (h : BusOnly s t) (k : BusOnly t u) : BusOnly s u := by
  refine ⟨?_, k.2.1.trans h.2.1, k.2.2.trans h.2.2⟩
  have hk := k.1
  rw [h.1] at hk
  exact hk

theorem BusOnly.par {s t : State} (h : BusOnly s t) : t.par = s.par := by rw [h.1]; rfl
theorem BusOnly.cmd {s t : State} (h : BusOnly s t) : t.cmd = s.cmd := by rw [h.1]; rfl
theorem BusOnly.pmu {s t : State} (h : BusOnly s t) : t.pmu = s.pmu := by rw [h.1]; rfl
theorem BusOnly.adc {s t : State} (h : BusOnly s t) : t.adc = s.adc := by rw [h.1]; rfl
theorem BusOnly.smu {s t : State} (h : BusOnly s t) : t.smu = s.smu := by rw [h.1]; rfl
theorem BusOnly.amp {s t : State} (h : BusOnly s t) : t.amp = s.amp := by rw [h.1]; rfl
theorem BusOnly.port {s t : State} (h : BusOnly s t) : t.port = s.port := by rw [h.1]; rfl
theorem BusOnly.results {s t : State} (h : BusOnly s t) : t.results = s.results := by rw [h.1]; rfl
theorem BusOnly.pubOut {s t : State} (h : BusOnly s t) : t.pubOut = s.pubOut := by rw [h.1]; rfl

theorem BusOnly.of_setBus (s : State) (b : BusState) : BusOnly s (s.setBus b) := ⟨rfl, rfl, rfl⟩

theorem BusOnly.driveCs (dev : Dev) (level : Bool) (s : State) : BusOnly s (driveCs dev level s) := by
  cases dev <;> exact ⟨rfl, rfl, rfl⟩

theorem BusOnly.record (e : BusEvent) (s : State) : BusOnly s (record e s) := ⟨rfl, rfl, rfl⟩

@[simp] theorem driveCs_trace (dev : Dev) (level : Bool) (s : State) : (driveCs dev level s).trace = s.trace := by
  cases dev <;> rfl

@[simp] theorem driveCs_env (dev : Dev) (level : Bool) (s : State) : (driveCs dev level s).env = s.env := by
  cases dev <;> rfl

@[simp] theorem driveCs_par (dev : Dev) (level : Bool) (s : State) : (driveCs dev level s).par = s.par := by
  cases dev <;> rfl

@[simp] theorem driveCs_owner (dev : Dev) (level : Bool) (s : State) :
    (driveCs dev level s).bus.owner = s.bus.owner := by cases dev <;> rfl

/-! ### Transfers -/

/-- `SpiXfer`, whatever the device answers: one event on the wires, the device's chip-select deasserted at the end, nothing
else of the block changed. -/
theorem spiXfer_spec (dev : Dev) (out : List Byte) (nIn : Nat) (s : State) :
    ∃ (r : XferResult) (e : Env), e.sched = s.env.sched ∧ e.device = s.env.device ∧ e.busy = s.env.busy ∧
      (r = .busError ∨ ∃ bits, r = .ok (bytesOf nIn bits)) ∧
      spiXfer dev out nIn s =
        (r, driveCs dev true ((s.setTrace (s.trace ++ [.xfer dev out nIn r])).setEnv e)) := by
  obtain ⟨e, he, h1, h2, h3⟩ := drawAnswer_state dev out nIn (driveCs dev false s)
  refine ⟨_, e, by simpa using h1, by simpa using h2, by simpa using h3,
    (drawAnswer dev out nIn (driveCs dev false s)).1.result_cases nIn, ?_⟩
  simp only [spiXfer, he]
  cases dev <;> rfl

/-- `SpiXfer` on a lined-up answer. -/
theorem spiXfer_scripted {dev : Dev} {s : State} {a : Answer} {rest : List Answer} (out : List Byte) (nIn : Nat)
    (h : s.env.answers dev = a :: rest) :
    spiXfer dev out nIn s = (a.result nIn, driveCs dev true
      ((s.setTrace (s.trace ++ [.xfer dev out nIn (a.result nIn)])).setEnv (s.env.setAnswers dev rest))) := by
  have hd := drawAnswer_scripted (a := a) (rest := rest) (s := driveCs dev false s) out nIn (by simpa using h)
  simp only [spiXfer, hd]
  cases dev <;> rfl

/-- `PmuXfer2`, whatever the PMU answers. -/
theorem pmuXfer2_spec (out : List Byte) (nIn : Nat) (s : State) :
    ∃ (r : XferResult) (e : Env), e.sched = s.env.sched ∧ e.device = s.env.device ∧ e.busy = s.env.busy ∧
      (r = .busError ∨ ∃ bits, r = .ok (bytesOf nIn bits)) ∧
      pmuXfer2 out nIn s =
        (r, driveCs .pmu true ((s.setTrace (s.trace ++ [.pmuRead out s.par.pmuReadFill nIn r])).setEnv e)) := by
  obtain ⟨e, he, h1, h2, h3⟩ :=
    drawAnswer_state .pmu out nIn (driveCs .pmu false (driveCs .pmu true (driveCs .pmu false s)))
  refine ⟨_, e, by simpa using h1, by simpa using h2, by simpa using h3,
    (drawAnswer .pmu out nIn (driveCs .pmu false (driveCs .pmu true (driveCs .pmu false s)))).1.result_cases nIn, ?_⟩
  simp only [pmuXfer2, he]
  rfl

/-- `PmuXfer2` on a lined-up answer. -/
theorem pmuXfer2_scripted {s : State} {a : Answer} {rest : List Answer} (out : List Byte) (nIn : Nat)
    (h : s.env.pmu = a :: rest) :
    pmuXfer2 out nIn s = (a.result nIn, driveCs .pmu true
      ((s.setTrace (s.trace ++ [.pmuRead out s.par.pmuReadFill nIn (a.result nIn)])).setEnv
        (s.env.setAnswers .pmu rest))) := by
  have hd := drawAnswer_scripted (dev := .pmu) (a := a) (rest := rest)
    (s := driveCs .pmu false (driveCs .pmu true (driveCs .pmu false s))) out nIn (by simpa [Env.answers] using h)
  simp only [pmuXfer2, hd]
  rfl

/-! ### The busy line, 40_pmu.md R143 -/

/-- One sample of the busy line, whatever it reads. -/
theorem sampleBusy_spec (s : State) :
    ∃ (b : Bool) (e : Env), e.sched = s.env.sched ∧ e.device = s.env.device ∧ e.pmu = s.env.pmu ∧
      sampleBusy s = (b, (s.setTrace (s.trace ++ [.busySample b])).setEnv e) := by
  cases h : s.env.busy with
  | nil =>
    refine ⟨(sampleBusy s).1, s.env, rfl, rfl, rfl, ?_⟩
    simp only [sampleBusy, h]
    rfl
  | cons b rest =>
    refine ⟨b, { s.env with busy := rest }, rfl, rfl, rfl, ?_⟩
    simp only [sampleBusy, h]
    rfl

/-- The poll takes at most `n` samples, answers READY exactly when its last sample is READY, and changes nothing but the
history and the answers left. -/
theorem pollBusy_spec (n : Nat) (s : State) :
    ∃ (b : Bool) (l : List Bool) (e : Env), l.length ≤ n ∧ e.sched = s.env.sched ∧ e.device = s.env.device ∧
      e.pmu = s.env.pmu ∧ pollBusy n s = (b, (s.setTrace (s.trace ++ l.map .busySample)).setEnv e) := by
  induction n generalizing s with
  | zero => exact ⟨false, [], s.env, by simp, rfl, rfl, rfl, by simp [pollBusy, State.setTrace, State.setEnv]⟩
  | succ n ih =>
    obtain ⟨b, e, h1, h2, h3, hs⟩ := sampleBusy_spec s
    unfold pollBusy
    rw [hs]
    cases b with
    | true => exact ⟨true, [true], e, by simp, h1, h2, h3, rfl⟩
    | false =>
      obtain ⟨b', l, e', hl, k1, k2, k3, hp⟩ := ih ((s.setTrace (s.trace ++ [.busySample false])).setEnv e)
      refine ⟨b', false :: l, e', by simpa using hl, k1.trans h1, k2.trans h2, k3.trans h3, ?_⟩
      simp only [hp, Bool.false_eq_true, if_false]
      simp [State.setTrace, State.setEnv]

/-- The busy wait, whatever the line reads (40_pmu.md R143, R153): at most `BUSY_POLL_LIMIT` samples. -/
theorem busyWait_spec (s : State) :
    ∃ (b : Bool) (l : List Bool) (e : Env), l.length ≤ s.par.busyPollLimit ∧ e.sched = s.env.sched ∧
      e.device = s.env.device ∧ e.pmu = s.env.pmu ∧
      busyWait s = (b, (s.setTrace (s.trace ++ l.map .busySample)).setEnv e) :=
  pollBusy_spec s.par.busyPollLimit s

/-- The poll when the first lined-up sample is READY. -/
theorem busyWait_ready {s : State} {rest : List Bool} (hn : 0 < s.par.busyPollLimit) (h : s.env.busy = true :: rest) :
    busyWait s =
      (true, (s.setTrace (s.trace ++ [.busySample true])).setEnv { s.env with busy := rest }) := by
  unfold busyWait
  cases hk : s.par.busyPollLimit with
  | zero => omega
  | succ k => simp [pollBusy, sampleBusy, h, record, State.setTrace, State.setEnv]

/-! ### Transactions under the bus lock, 20_memory.md R80 to R83 -/

/-- The event a PMU transaction's transfer leaves on the wires. -/
def pmuShiftEvent (p : Params) (dir : Dir) (frame : List Byte) (r : XferResult) : BusEvent :=
  match dir with
  | .write => .xfer .pmu frame 0 r
  | .read => .pmuRead frame p.pmuReadFill 3 r

/-- The value a PMU transaction returns when the device shifts out `bits` (20_memory.md R81). -/
def Dir.readback (dir : Dir) (bits : Word32) : Word32 :=
  match dir with
  | .write => 0
  | .read => packBytes (bytesOf 3 bits)

/-- How many bytes a PMU transaction brings back. -/
def Dir.pmuBytesIn : Dir → Nat
  | .write => 0
  | .read => 3

theorem pmuShift_spec (dir : Dir) (frame : List Byte) (s : State) :
    ∃ (r : XferResult) (e : Env), e.sched = s.env.sched ∧ e.device = s.env.device ∧
      (r = .busError ∨ ∃ bits, r = .ok (bytesOf dir.pmuBytesIn bits)) ∧
      pmuShift dir frame s =
        (r, driveCs .pmu true ((s.setTrace (s.trace ++ [pmuShiftEvent s.par dir frame r])).setEnv e)) := by
  cases dir with
  | write =>
    obtain ⟨r, e, h1, h2, -, h3, h⟩ := spiXfer_spec .pmu frame 0 s
    exact ⟨r, e, h1, h2, h3, h⟩
  | read =>
    obtain ⟨r, e, h1, h2, -, h3, h⟩ := pmuXfer2_spec frame 3 s
    exact ⟨r, e, h1, h2, h3, h⟩

theorem pmuShift_scripted {s : State} {a : Answer} {rest : List Answer} (dir : Dir) (frame : List Byte)
    (h : s.env.pmu = a :: rest) :
    pmuShift dir frame s = (a.result dir.pmuBytesIn, driveCs .pmu true
      ((s.setTrace (s.trace ++ [pmuShiftEvent s.par dir frame (a.result dir.pmuBytesIn)])).setEnv
        (s.env.setAnswers .pmu rest))) := by
  cases dir with
  | write => exact spiXfer_scripted (dev := .pmu) frame 0 h
  | read => exact pmuXfer2_scripted frame 3 h

/-- `PmuTx`, whatever the devices answer: its frame, then busy samples; the lock is free and the chip-select deasserted
afterwards; no shadow, no flag and no result is touched. -/
theorem pmuTx_spec (dir : Dir) (chmask : BitVec 4) (mode : BitVec 2) (data : BitVec 22) (s : State) :
    ∃ (r : TxResult) (x : XferResult) (l : List Bool) (e : Env),
      e.sched = s.env.sched ∧ e.device = s.env.device ∧ l.length ≤ s.par.busyPollLimit ∧
      ((r = .busError ∧ x = .busError) ∨
        ∃ bits, x = .ok (bytesOf dir.pmuBytesIn bits) ∧ (r = .busy ∨ r = .ok (dir.readback bits))) ∧
      pmuTx dir chmask mode data s = (r,
        (((s.setBus { s.bus with owner := .none, csPMU := true }).setTrace
          (s.trace ++ pmuShiftEvent s.par dir (pmuFrame dir chmask mode data) x :: l.map .busySample)).setEnv e)) := by
  obtain ⟨x, e, h1, h2, h3, hx⟩ := pmuShift_spec dir (pmuFrame dir chmask mode data) (setOwner .cmd s)
  rcases h3 with rfl | ⟨bits, rfl⟩
  · refine ⟨.busError, .busError, [], e, h1, h2, by simp, .inl ⟨rfl, rfl⟩, ?_⟩
    simp only [pmuTx, withBus, hx]
    rfl
  · obtain ⟨b, l, e', hl, k1, k2, -, hp⟩ := busyWait_spec
      (driveCs .pmu true (((setOwner .cmd s).setTrace ((setOwner .cmd s).trace ++
        [pmuShiftEvent (setOwner .cmd s).par dir (pmuFrame dir chmask mode data)
          (.ok (bytesOf dir.pmuBytesIn bits))])).setEnv e))
    refine ⟨if b = true then .ok (dir.readback bits) else .busy,
      .ok (bytesOf dir.pmuBytesIn bits), l, e', k1.trans h1, k2.trans h2, hl, .inr ⟨bits, rfl, ?_⟩, ?_⟩
    · cases b
      · exact .inl rfl
      · exact .inr rfl
    · simp only [pmuTx, withBus, hx, hp]
      cases b <;> cases dir <;>
        simp [driveCs, State.setBus, State.setTrace, State.setEnv, Dir.pmuBytesIn, Dir.readback, setOwner]

/-- `PmuTx` on a lined-up answer and a line that is READY at its first sample. -/
theorem pmuTx_scripted {s : State} {w : Word32} {rest : List Answer} {brest : List Bool} (dir : Dir)
    (chmask : BitVec 4) (mode : BitVec 2) (data : BitVec 22) (hn : 0 < s.par.busyPollLimit)
    (h : s.env.pmu = .shift w :: rest) (hb : s.env.busy = true :: brest) :
    pmuTx dir chmask mode data s = (.ok (dir.readback w),
      ((s.setBus { s.bus with owner := .none, csPMU := true }).setTrace
        (s.trace ++ [pmuShiftEvent s.par dir (pmuFrame dir chmask mode data) (.ok (bytesOf dir.pmuBytesIn w)),
          .busySample true])).setEnv { s.env with pmu := rest, busy := brest }) := by
  have hx := pmuShift_scripted (s := setOwner .cmd s) dir (pmuFrame dir chmask mode data) h
  have hy := busyWait_ready (rest := brest) (s := (driveCs .pmu true (((setOwner .cmd s).setTrace
    ((setOwner .cmd s).trace ++ [pmuShiftEvent (setOwner .cmd s).par dir (pmuFrame dir chmask mode data)
      (.ok (bytesOf dir.pmuBytesIn w))])).setEnv ((setOwner .cmd s).env.setAnswers .pmu rest)))) hn hb
  simp only [pmuTx, withBus, hx, Answer.result, hy, if_true]
  cases dir <;> simp [setOwner, driveCs, State.setBus, State.setTrace, State.setEnv, Env.setAnswers, Dir.pmuBytesIn,
    Dir.readback, pmuShiftEvent]

/-- An ADC or amplifier transaction, whatever the device answers. -/
theorem withBus_spiXfer_spec (who : Owner) (dev : Dev) (out : List Byte) (nIn : Nat) (s : State) :
    ∃ (r : XferResult) (e : Env), e.sched = s.env.sched ∧ e.device = s.env.device ∧
      (r = .busError ∨ ∃ bits, r = .ok (bytesOf nIn bits)) ∧
      withBus who (spiXfer dev out nIn) s = (r, (driveCs dev true
        (((setOwner .none s)).setTrace (s.trace ++ [.xfer dev out nIn r]))).setEnv e) := by
  obtain ⟨r, e, h1, h2, -, h4, h⟩ := spiXfer_spec dev out nIn (setOwner who s)
  refine ⟨r, e, h1, h2, h4, ?_⟩
  unfold withBus
  rw [h]
  cases dev <;> rfl

/-- The same on a lined-up answer. -/
theorem withBus_spiXfer_scripted {dev : Dev} {s : State} {a : Answer} {rest : List Answer} (who : Owner)
    (out : List Byte) (nIn : Nat) (h : s.env.answers dev = a :: rest) :
    withBus who (spiXfer dev out nIn) s = (a.result nIn, (driveCs dev true
      (((setOwner .none s)).setTrace (s.trace ++ [.xfer dev out nIn (a.result nIn)]))).setEnv
        (s.env.setAnswers dev rest)) := by
  unfold withBus
  rw [spiXfer_scripted (s := setOwner who s) (rest := rest) out nIn h]
  cases dev <;> rfl

/-! ### The end of a command, and the interrupt -/

theorem Flow.bind_eq_go {f : Flow α} {g : α → State → Flow β} {b : β} {t : State} (h : f.bind g = .go b t) :
    ∃ a s, f = .go a s ∧ g a s = .go b t := by
  cases f with
  | go a s => exact ⟨a, s, rfl, h⟩
  | ended s => cases h

theorem Flow.bind_eq_ended {f : Flow α} {g : α → State → Flow β} {t : State} (h : f.bind g = .ended t) :
    f = .ended t ∨ ∃ a s, f = .go a s ∧ g a s = .ended t := by
  cases f with
  | go a s => exact .inr ⟨a, s, rfl, h⟩
  | ended s => exact .inl (by cases h; rfl)

/-- The edge interrupt writes only `armed`, `wakePending` and the ADC chip-select (41_adc.md R211). -/
theorem edgeStep_spec (s : State) :
    edgeStep s = s ∨ edgeStep s = (s.setAdc { s.adc with armed := false, wakePending := true }).setBus
      { s.bus with csADC := true } := by
  unfold edgeStep
  split
  · exact .inr rfl
  · exact .inl rfl

/-- The re-arm sets `armed` exactly while acquisition is active (41_adc.md R204). -/
theorem rearm_spec (s : State) : rearm s = s.setAdc { s.adc with armed := s.adc.armed || s.adc.active } := by
  unfold rearm
  cases h : s.adc.active <;> simp [State.setAdc]

/-! ### The reference device, 20_memory.md R85 -/

/-- The latest match of a longer history: the last event's, or else the earlier one's. -/
theorem lastMatch_concat (f : BusEvent → Option β) (h : List BusEvent) (e : BusEvent) :
    lastMatch f (h ++ [e]) = (f e).or (lastMatch f h) := by
  simp [lastMatch]

/-- What an event does to a register: a value it leaves there, an open value, or nothing. -/
theorem lastWritten_concat (f : BusEvent → Option (Option β)) (h : List BusEvent) (e : BusEvent) :
    lastWritten f (h ++ [e]) = match f e with
      | some x => x
      | none => lastWritten f h := by
  rw [lastWritten, lastMatch_concat]
  cases f e <;> rfl

/-- A request that names no PMU register answers an open value. -/
theorem refPmuRead_unnamed {p : Params} {w : Word32} (h : namesPmuRegister p w = false) (hist : List BusEvent) :
    refPmuRead p hist w = none := by
  simp [refPmuRead, h]

end Sys2Proof.Machine
end

