-- ==== Sys2Proof/Laws/Agents.lean ====
section
/-! SUPPORT. What the agents' steps (Machine/Agents.lean) can do to a command in progress, and what one bus primitive with its
scheduling point can do. -/

namespace Sys2Proof.Machine

/-! ### What the other agents leave a command -/

/-- `t` is a state the other agents can make of `s` while a command is in progress, without a reset (20_memory.md R96,
41_adc.md R211): they write no shadow, no amplifier field, no setting and no result, publish nothing, send the PMU nothing,
and leave the lines as R52 and R53 say. -/
structure Interfered (s t : State) : Prop where
  par : t.par = s.par
  cmd : t.cmd = s.cmd
  pmu : t.pmu = s.pmu
  amp : t.amp = s.amp
  port : t.port = s.port
  results : t.results = s.results
  pubOut : t.pubOut = s.pubOut
  forcePublish : t.smu.forcePublish = s.smu.forcePublish
  settings : SameSettings t.smu.ch s.smu.ch
  dirty : t.smu.ch.dirty &&& 0xFF3 = s.smu.ch.dirty &&& 0xFF3
  active : t.adc.active = s.adc.active
  activeMask : t.adc.activeMask = s.adc.activeMask
  frames : pmuFrames t.trace = pmuFrames s.trace
  csPMU : t.bus.csPMU = s.bus.csPMU
  csAMP : t.bus.csAMP = s.bus.csAMP
  pmuReset : t.bus.pmuReset = s.bus.pmuReset
  owner : s.bus.owner = .none → t.bus.owner = .none
  csADC : s.bus.csADC = true → t.bus.csADC = true

theorem SameSettings.refl (a : SmuChannel) : SameSettings a a := by simp [SameSettings]

theorem SameSettings.trans {a b c : SmuChannel} (h : SameSettings b a) (k : SameSettings c b) : SameSettings c a := by
  simp only [SameSettings] at *
  simp [k, h]

theorem Interfered.refl (s : State) : Interfered s s := by
  constructor <;> first | rfl | exact SameSettings.refl _ | exact id

theorem Interfered.trans {s t u : State} (h : Interfered s t) (k : Interfered t u) : Interfered s u where
  par := k.par.trans h.par
  cmd := k.cmd.trans h.cmd
  pmu := k.pmu.trans h.pmu
  amp := k.amp.trans h.amp
  port := k.port.trans h.port
  results := k.results.trans h.results
  pubOut := k.pubOut.trans h.pubOut
  forcePublish := k.forcePublish.trans h.forcePublish
  settings := h.settings.trans k.settings
  dirty := k.dirty.trans h.dirty
  active := k.active.trans h.active
  activeMask := k.activeMask.trans h.activeMask
  frames := k.frames.trans h.frames
  csPMU := k.csPMU.trans h.csPMU
  csAMP := k.csAMP.trans h.csAMP
  pmuReset := k.pmuReset.trans h.pmuReset
  owner := fun x => k.owner (h.owner x)
  csADC := fun x => k.csADC (h.csADC x)

theorem Interfered.edge (s : State) : Interfered s (edgeStep s) := by
  unfold edgeStep
  split
  · constructor <;> first | rfl | exact SameSettings.refl _ | exact id | exact fun _ => rfl
  · exact .refl s

/-! ### The pipeline -/

/-- A frame handled changes no flag but `discardNext` and `dispatchPending` (41_adc.md R211). -/
theorem handleFrame_keeps (a : AdcState) (f : List Byte) :
    (handleFrame a f).active = a.active ∧ (handleFrame a f).armed = a.armed ∧
    (handleFrame a f).wakePending = a.wakePending ∧ (handleFrame a f).activeMask = a.activeMask := by
  unfold handleFrame keepSample
  split
  · exact ⟨rfl, rfl, rfl, rfl⟩
  · dsimp only
    split <;> exact ⟨rfl, rfl, rfl, rfl⟩

/-- The sample task's step, whatever the ADC answers: one read on the wires, the lock free afterwards, and no change but to the
pipeline. -/
theorem takeSample_spec (s : State) :
    ∃ (r : XferResult) (a : AdcState) (e : Env), e.sched = s.env.sched ∧ e.device = s.env.device ∧
      a.active = s.adc.active ∧ a.activeMask = s.adc.activeMask ∧ a.wakePending = false ∧
      takeSample s = (((s.setAdc a).setBus { s.bus with owner := .none, csADC := true }).setTrace
        (s.trace ++ [.xfer .adc [adcCommand .read s.par.adcRegData] 4 r])).setEnv e := by
  obtain ⟨r, e, h1, h2, -, h⟩ := withBus_spiXfer_spec .sample .adc [adcCommand .read s.par.adcRegData] 4
    (s.setAdc { s.adc with wakePending := false })
  have h' : adcRead .sample s.par.adcRegData 4 (s.setAdc { s.adc with wakePending := false }) = _ := h
  cases r with
  | busError =>
    refine ⟨.busError, { s.adc with wakePending := false, armed := s.adc.armed || s.adc.active }, e, h1, h2, rfl, rfl, rfl, ?_⟩
    simp only [takeSample, h', rearm_spec]
    rfl
  | ok f =>
    obtain ⟨k1, k2, k3, k4⟩ := handleFrame_keeps { s.adc with wakePending := false } f
    refine ⟨.ok f, { handleFrame { s.adc with wakePending := false } f with
      armed := (handleFrame { s.adc with wakePending := false } f).armed ||
        (handleFrame { s.adc with wakePending := false } f).active }, e, h1, h2, k1, k4, k3, ?_⟩
    simp only [takeSample, h', rearm_spec]
    rfl

theorem pmuFrames_append (h k : List BusEvent) : pmuFrames (h ++ k) = pmuFrames h ++ pmuFrames k := by
  simp [pmuFrames]

theorem Interfered.sample (s : State) : Interfered s (sampleStep s) := by
  unfold sampleStep
  split
  · obtain ⟨r, a, e, -, -, h1, h2, -, h⟩ := takeSample_spec s
    rw [h]
    constructor <;> first | rfl | exact SameSettings.refl _ | exact h1 | exact h2 | exact fun _ => rfl | skip
    simp [pmuFrames]
  · exact .refl s

/-! ### The callback -/

/-- The callback writes the measured values and their two dirty bits only (41_adc.md R209). -/
theorem deliver_keeps (p : Params) (sn : Snapshot) (ch : SmuChannel) :
    SameSettings (deliverMi p sn (deliverMv p sn ch)) ch ∧
    (deliverMi p sn (deliverMv p sn ch)).dirty &&& 0xFF3 = ch.dirty &&& 0xFF3 := by
  have hv : SameSettings (deliverMv p sn ch) ch ∧ (deliverMv p sn ch).dirty &&& 0xFF3 = ch.dirty &&& 0xFF3 := by
    unfold deliverMv
    split
    · refine ⟨by simp [SameSettings, SmuChannel.mark], ?_⟩
      simp only [SmuChannel.mark, orBit, dbitMv, BitVec.and_or_distrib_right]
      simp
    · exact ⟨.refl _, rfl⟩
  have hi : ∀ c, SameSettings (deliverMi p sn c) c ∧ (deliverMi p sn c).dirty &&& 0xFF3 = c.dirty &&& 0xFF3 := by
    intro c
    unfold deliverMi
    split
    · refine ⟨by simp [SameSettings, SmuChannel.mark], ?_⟩
      simp only [SmuChannel.mark, orBit, dbitMi, BitVec.and_or_distrib_right]
      simp
    · exact ⟨.refl _, rfl⟩
  exact ⟨hv.1.trans (hi _).1, (hi _).2.trans hv.2⟩

theorem Interfered.dispatch (s : State) : Interfered s (dispatchStep s) := by
  unfold dispatchStep
  split
  · constructor <;> first | rfl | exact id | exact (deliver_keeps _ _ _).1 | exact (deliver_keeps _ _ _).2
  · exact .refl s

/-- Every move but a reset, while a command is in progress. -/
theorem Interfered.move {m : Move} {s : State} (hm : m ≠ .reset) (hs : s.cmd.op ≠ none) : Interfered s (agentMove m s) := by
  cases m with
  | sequencer => exact .refl s
  | forcedPublish => simpa [agentMove, forcedPublishStep, hs] using Interfered.refl s
  | edge => exact .edge s
  | sample => exact .sample s
  | dispatch => exact .dispatch s
  | faultPin => exact .refl s
  | reset => exact absurd rfl hm

/-! ### The drain and the reset -/

/-- The drain, said once: at most one record, then an empty bitmap and no forced request (44_sequencer.md R372). -/
theorem drain_spec (s : State) :
    drain s = (s.setPubOut (s.pubOut ++ if s.smu.ch.dirty = 0 then [] else [⟨0, publishFields s.smu.ch⟩])).setSmu
      ⟨{ s.smu.ch with dirty := 0 }, false⟩ := by
  unfold drain
  dsimp only
  split <;> simp [State.setPubOut, State.setSmu]

theorem resetEvent_block (s : State) : BlockReset (resetEvent s) := ⟨rfl, rfl, rfl, rfl, rfl, rfl⟩

/-! ### The scheduling point inside a command, 60_exceptions.md R406 -/

/-- A command ended by a scheduled reset (70_reset_and_hazards.md R450): what a state `t` after it keeps of the state `s` at
the scheduling point. -/
structure CutByReset (s t : State) : Prop where
  block : BlockReset t
  par : t.par = s.par
  port : t.port = s.port
  results : t.results = s.results
  pubOut : t.pubOut = s.pubOut
  frames : pmuFrames t.trace = pmuFrames s.trace

/-- The moves the schedule puts before a command's next step: either the command goes on in an interfered state with the rest
of the schedule, or a reset cut it. -/
theorem runMoves_spec (a : α) (ms : List Move) (s : State) (hs : s.cmd.op ≠ none) :
    (∃ t, runMoves a ms s = .go a t ∧ Interfered s t ∧ t.env.sched <:+ ms) ∨
    ∃ t, runMoves a ms s = .ended t ∧ CutByReset s t ∧ Move.reset ∈ ms := by
  induction ms generalizing s with
  | nil => exact .inl ⟨setSched [] s, rfl, by constructor <;> first | rfl | exact .refl _ | exact id, List.suffix_refl _⟩
  | cons m ms ih =>
    by_cases hq : m = .sequencer
    · subst hq
      exact .inl ⟨setSched ms s, rfl, by constructor <;> first | rfl | exact .refl _ | exact id, List.suffix_cons _ _⟩
    by_cases hr : m = .reset
    · subst hr
      exact .inr ⟨setSched ms (resetEvent s), rfl, by constructor <;> first | rfl | exact resetEvent_block s, by simp⟩
    have hstep : runMoves a (m :: ms) s = runMoves a ms (agentMove m s) := by cases m <;> first | rfl | contradiction
    have hm := Interfered.move hr hs
    rw [hstep]
    rcases ih (agentMove m s) (by rw [hm.cmd]; exact hs) with ⟨t, h1, h2, h3⟩ | ⟨t, h1, h2, h3⟩
    · exact .inl ⟨t, h1, hm.trans h2, h3.trans (List.suffix_cons _ _)⟩
    · refine .inr ⟨t, h1, ⟨h2.block, h2.par.trans hm.par, h2.port.trans hm.port, h2.results.trans hm.results,
        h2.pubOut.trans hm.pubOut, h2.frames.trans hm.frames⟩, by simp [h3]⟩

/-- One bus primitive, whatever the schedule: the primitive's own step, `k` one higher, then the scheduling point. -/
theorem prim_spec (act : State → α × State) (s : State) (hs : (act s).2.cmd.op ≠ none) :
    let u := (act s).2.setCmd { (act s).2.cmd with k := (act s).2.cmd.k + 1 }
    (∃ t, prim act s = .go (act s).1 t ∧ Interfered u t ∧ t.env.sched <:+ (act s).2.env.sched) ∨
    ∃ t, prim act s = .ended t ∧ CutByReset u t ∧ Move.reset ∈ (act s).2.env.sched :=
  runMoves_spec (act s).1 (act s).2.env.sched _ hs

/-- One bus primitive with an empty schedule. -/
theorem prim_quiet {act : State → α × State} {s t : State} {a : α} (h : act s = (a, t)) (ht : t.env.sched = []) :
    prim act s = .go a (t.setCmd { t.cmd with k := t.cmd.k + 1 }) := by
  simp only [prim, h, ht, runMoves]
  congr 1
  simp only [setSched, State.setEnv, State.setCmd, ← ht]

end Sys2Proof.Machine
end

