-- ==== Sys2Proof/Laws/Commands.lean ====
section
/-! SUPPORT. What the write-and-verify procedures and the sequencer's write procedures (Machine/Pmu.lean, Amp.lean, Smu.lean) can
do: first for every device and every schedule, then on a device that answers a script with nothing scheduled. -/

namespace Sys2Proof.Machine

/-! ### Inside a command, for every device and every schedule -/

/-- `t` is a state a command in progress can reach from `s` without ending: it has sent the PMU the frames `l`; apart from the
PMU shadows (stated separately) it has written nothing of the block's settings, and the other agents may have stepped. -/
structure Worked (s t : State) (l : List (List Byte)) : Prop where
  par : t.par = s.par
  op : t.cmd.op = s.cmd.op
  amp : t.amp = s.amp
  port : t.port = s.port
  results : t.results = s.results
  pubOut : t.pubOut = s.pubOut
  forcePublish : t.smu.forcePublish = s.smu.forcePublish
  settings : SameSettings t.smu.ch s.smu.ch
  dirty : t.smu.ch.dirty &&& 0xFF3 = s.smu.ch.dirty &&& 0xFF3
  active : t.adc.active = s.adc.active
  activeMask : t.adc.activeMask = s.adc.activeMask
  frames : pmuFrames t.trace = pmuFrames s.trace ++ l
  owner : s.bus.owner = .none → t.bus.owner = .none
  csADC : s.bus.csADC = true → t.bus.csADC = true
  csAMP : s.bus.csAMP = true → t.bus.csAMP = true
  sched : t.env.sched <:+ s.env.sched

theorem Worked.refl (s : State) : Worked s s [] := by
  constructor <;> first | rfl | exact SameSettings.refl _ | exact id | simp

theorem Worked.trans {s t u : State} {l m : List (List Byte)} (h : Worked s t l) (k : Worked t u m) :
    Worked s u (l ++ m) where
  par := k.par.trans h.par
  op := k.op.trans h.op
  amp := k.amp.trans h.amp
  port := k.port.trans h.port
  results := k.results.trans h.results
  pubOut := k.pubOut.trans h.pubOut
  forcePublish := k.forcePublish.trans h.forcePublish
  settings := h.settings.trans k.settings
  dirty := k.dirty.trans h.dirty
  active := k.active.trans h.active
  activeMask := k.activeMask.trans h.activeMask
  frames := by rw [k.frames, h.frames, List.append_assoc]
  owner := fun x => k.owner (h.owner x)
  csADC := fun x => k.csADC (h.csADC x)
  csAMP := fun x => k.csAMP (h.csAMP x)
  sched := k.sched.trans h.sched

/-- A command that a scheduled reset cut after it had sent the PMU the frames `l`. -/
structure Cut (s t : State) (l : List (List Byte)) : Prop where
  block : BlockReset t
  par : t.par = s.par
  port : t.port = s.port
  results : t.results = s.results
  pubOut : t.pubOut = s.pubOut
  frames : pmuFrames t.trace = pmuFrames s.trace ++ l
  scheduled : Move.reset ∈ s.env.sched

theorem Cut.after {s t u : State} {l m : List (List Byte)} (h : Worked s t l) (k : Cut t u m) : Cut s u (l ++ m) where
  block := k.block
  par := k.par.trans h.par
  port := k.port.trans h.port
  results := k.results.trans h.results
  pubOut := k.pubOut.trans h.pubOut
  frames := by rw [k.frames, h.frames, List.append_assoc]
  scheduled := h.sched.subset k.scheduled

/-- What a part of a command that sends the PMU the frames `l` can do, for every device and every schedule: run on after all of
`l` with the shadows `p`; or fail with VerifyFailed after a first part of `l`, that part and the shadows as `q` says; or be cut by a
reset after a first part of `l`. -/
def Does (f : Flow Unit) (s : State) (l : List (List Byte)) (p : PmuState) (q : List (List Byte) → PmuState → Prop) : Prop :=
  (∃ t, f = .go () t ∧ Worked s t l ∧ t.pmu = p) ∨
  (∃ t m, f = .ended (endCommand (.fail .verifyFailed) t) ∧ Worked s t m ∧ m <+: l ∧ q m t.pmu) ∨
  ∃ t m, f = .ended t ∧ Cut s t m ∧ m <+: l

/-- Two parts of a command in a row. -/
theorem Does.bind {f : Flow Unit} {g : Unit → State → Flow Unit} {s : State} {l m : List (List Byte)} {p p' : PmuState}
    {q q' : List (List Byte) → PmuState → Prop} (hf : Does f s l p q)
    (hg : ∀ t, Worked s t l → t.pmu = p → Does (g () t) t m p' q') :
    Does (f.bind g) s (l ++ m) p' (fun k x => q k x ∨ ∃ n, k = l ++ n ∧ q' n x) := by
  rcases hf with ⟨t, rfl, hw, hp⟩ | ⟨t, k, rfl, hw, hk, hq⟩ | ⟨t, k, rfl, hc, hk⟩
  · rcases hg t hw hp with ⟨u, h1, h2, h3⟩ | ⟨u, n, h1, h2, h3, h4⟩ | ⟨u, n, h1, h2, h3⟩
    · exact .inl ⟨u, h1, hw.trans h2, h3⟩
    · exact .inr (.inl ⟨u, l ++ n, h1, hw.trans h2, (List.prefix_append_right_inj l).2 h3, .inr ⟨n, rfl, h4⟩⟩)
    · exact .inr (.inr ⟨u, l ++ n, h1, h2.after hw, (List.prefix_append_right_inj l).2 h3⟩)
  · exact .inr (.inl ⟨t, k, rfl, hw, hk.trans (List.prefix_append l m), .inl hq⟩)
  · exact .inr (.inr ⟨t, k, rfl, hc, hk.trans (List.prefix_append l m)⟩)

theorem Does.weaken {f : Flow Unit} {s : State} {l : List (List Byte)} {p : PmuState}
    {q q' : List (List Byte) → PmuState → Prop} (h : Does f s l p q) (hq : ∀ k x, q k x → q' k x) : Does f s l p q' := by
  rcases h with h | ⟨t, m, h1, h2, h3, h4⟩ | h
  · exact .inl h
  · exact .inr (.inl ⟨t, m, h1, h2, h3, hq _ _ h4⟩)
  · exact .inr (.inr h)

/-- A command that has sent the frames `k` and comes to a part `f`, and that in the end returns a failure: `f` ran on, or the
command failed in `f`, which then says what has been sent and what the shadows are. -/
theorem Does.of_fail {f : Flow Unit} {g : Unit → State → Flow Unit} {s u t : State} {k l : List (List Byte)} {p : PmuState}
    {q : List (List Byte) → PmuState → Prop} {c : FailCode} (hf : Does f u l p q) (hw : Worked s u k)
    (ht : (f.bind g).state = t) (hr : t.results = s.results ++ [.fail c]) :
    (∃ v, Worked s v (k ++ l) ∧ v.pmu = p ∧ (g () v).state = t) ∨
    (c = .verifyFailed ∧ ∃ m, pmuFrames t.trace = pmuFrames s.trace ++ (k ++ m) ∧ m <+: l ∧ q m t.pmu) := by
  rcases hf with ⟨v, rfl, h1, h2⟩ | ⟨v, m, rfl, h1, h2, h3⟩ | ⟨v, m, rfl, h1, h2⟩
  · exact .inl ⟨v, hw.trans h1, h2, ht⟩
  · obtain rfl : endCommand (.fail .verifyFailed) v = t := ht
    have hv := hw.trans h1
    have h : v.results ++ [.fail .verifyFailed] = s.results ++ [.fail c] := hr
    rw [hv.results] at h
    exact .inr ⟨by simpa using h.symm, m, hv.frames, h2, h3⟩
  · obtain rfl : v = t := ht
    have h := congrArg List.length ((h1.results.trans hw.results).symm.trans hr)
    simp at h

/-- The frames a PMU transaction's transfer sends. -/
theorem pmuFrames_pmuTx (p : Params) (dir : Dir) (frame : List Byte) (x : XferResult) (l : List Bool) :
    pmuFrames (pmuShiftEvent p dir frame x :: l.map .busySample) = [frame] := by
  have : pmuFrames (l.map .busySample) = [] := by
    induction l with
    | nil => rfl
    | cons b l ih => simp [pmuFrames]
  cases dir <;> simp [pmuFrames, pmuShiftEvent]

/-- A PMU transaction as a primitive of a command, for every device and every schedule. -/
theorem prim_pmuTx_spec (dir : Dir) (mask : BitVec 4) (mode : BitVec 2) (data : BitVec 22) (s : State)
    (hs : s.cmd.op ≠ none) :
    (∃ r t, prim (pmuTx dir mask mode data) s = .go r t ∧ Worked s t [pmuFrame dir mask mode data] ∧ t.pmu = s.pmu ∧
      (r = .busError ∨ r = .busy ∨ ∃ bits, r = .ok (dir.readback bits))) ∨
    ∃ t, prim (pmuTx dir mask mode data) s = .ended t ∧ Cut s t [pmuFrame dir mask mode data] := by
  obtain ⟨r, x, l, e, h1, -, -, hr, h⟩ := pmuTx_spec dir mask mode data s
  have hp := prim_spec (pmuTx dir mask mode data) s (by rw [h]; exact hs)
  simp only [h] at hp
  have hf : ∀ t : State, pmuFrames t.trace = pmuFrames (s.trace ++ pmuShiftEvent s.par dir (pmuFrame dir mask mode data) x ::
      l.map .busySample) → pmuFrames t.trace = pmuFrames s.trace ++ [pmuFrame dir mask mode data] := by
    intro t ht
    rw [ht, pmuFrames_append, pmuFrames_pmuTx]
  rcases hp with ⟨t, h2, h3, h4⟩ | ⟨t, h2, h3, h4⟩
  · refine .inl ⟨r, t, h2, ?_, h3.pmu, ?_⟩
    · have hop : t.cmd.op = s.cmd.op := by rw [h3.cmd]; rfl
      exact ⟨h3.par, hop, h3.amp, h3.port, h3.results, h3.pubOut, h3.forcePublish, h3.settings,
        h3.dirty, h3.active, h3.activeMask, hf t h3.frames, fun _ => h3.owner rfl, fun x => h3.csADC x,
        fun x => h3.csAMP.trans x, h1 ▸ h4⟩
    · rcases hr with ⟨rfl, -⟩ | ⟨bits, -, rfl | rfl⟩
      · exact .inl rfl
      · exact .inr (.inl rfl)
      · exact .inr (.inr ⟨bits, rfl⟩)
  · exact .inr ⟨t, h2, h3.block, h3.par, h3.port, h3.results, h3.pubOut, hf t h3.frames, h1 ▸ h4⟩

/-- An ADC or amplifier transaction as a primitive of a command, for every device and every schedule. -/
theorem prim_xfer_spec (dev : Dev) (hd : dev ≠ .pmu) (out : List Byte) (nIn : Nat) (s : State) (hs : s.cmd.op ≠ none) :
    (∃ r t, prim (withBus .cmd (spiXfer dev out nIn)) s = .go r t ∧ Worked s t [] ∧ t.pmu = s.pmu ∧
      (r = .busError ∨ ∃ bits, r = .ok (bytesOf nIn bits))) ∨
    ∃ t, prim (withBus .cmd (spiXfer dev out nIn)) s = .ended t ∧ Cut s t [] := by
  obtain ⟨r, e, h1, -, hr, h⟩ := withBus_spiXfer_spec .cmd dev out nIn s
  have hcmd : (withBus .cmd (spiXfer dev out nIn) s).2.cmd = s.cmd := by rw [h]; cases dev <;> rfl
  have hp := prim_spec (withBus .cmd (spiXfer dev out nIn)) s (by rw [hcmd]; exact hs)
  simp only [h] at hp
  have hf : pmuFrames (s.trace ++ [.xfer dev out nIn r]) = pmuFrames s.trace := by
    rw [pmuFrames_append]
    cases dev with
    | pmu => exact absurd rfl hd
    | adc => simp [pmuFrames]
    | amp => simp [pmuFrames]
  rcases hp with ⟨t, h2, h3, h4⟩ | ⟨t, h2, h3, h4⟩
  · refine .inl ⟨r, t, h2, ?_, ?_, hr⟩
    · constructor
      · rw [h3.par]; cases dev <;> rfl
      · rw [h3.cmd]; cases dev <;> rfl
      · rw [h3.amp]; cases dev <;> rfl
      · rw [h3.port]; cases dev <;> rfl
      · rw [h3.results]; cases dev <;> rfl
      · rw [h3.pubOut]; cases dev <;> rfl
      · rw [h3.forcePublish]; cases dev <;> rfl
      · have := h3.settings; cases dev <;> exact this
      · have := h3.dirty; cases dev <;> exact this
      · rw [h3.active]; cases dev <;> rfl
      · rw [h3.activeMask]; cases dev <;> rfl
      · rw [h3.frames, List.append_nil, ← hf]; cases dev <;> rfl
      · intro _; exact h3.owner (by cases dev <;> rfl)
      · intro x; exact h3.csADC (by cases dev <;> first | rfl | exact x)
      · intro x; rw [h3.csAMP]; cases dev <;> first | rfl | exact x
      · rw [← h1]; exact h4
    · rw [h3.pmu]; cases dev <;> rfl
  · refine .inr ⟨t, h2, h3.block, ?_, ?_, ?_, ?_, ?_, ?_⟩
    · rw [h3.par]; cases dev <;> rfl
    · rw [h3.port]; cases dev <;> rfl
    · rw [h3.results]; cases dev <;> rfl
    · rw [h3.pubOut]; cases dev <;> rfl
    · rw [h3.frames, List.append_nil, ← hf]; cases dev <;> rfl
    · rw [← h1]; exact h4

/-! ### Write-and-verify, for every device and every schedule -/

/-- A PMU write-and-verify: it sends its two frames, and no shadow changes in it. -/
theorem writeThenVerify_does (mask : BitVec 4) (mode : BitVec 2) (wdata rdata : BitVec 22) (k : Word32 → Bool) (s : State)
    (hs : s.cmd.op ≠ none) :
    Does (writeThenVerify mask mode wdata rdata k s) s [pmuFrame .write mask mode wdata, pmuFrame .read mask mode rdata]
      s.pmu (fun m x => m ≠ [] ∧ x = s.pmu) := by
  unfold writeThenVerify
  have one : [pmuFrame .write mask mode wdata] <+: [pmuFrame .write mask mode wdata, pmuFrame .read mask mode rdata] :=
    ⟨_, rfl⟩
  rcases prim_pmuTx_spec .write mask mode wdata s hs with ⟨r, t, h, hw, hp, hr⟩ | ⟨t, h, hc⟩
  · rw [h]
    rcases hr with rfl | rfl | ⟨bits, rfl⟩
    · exact .inr (.inl ⟨t, _, rfl, hw, one, List.cons_ne_nil _ _, hp⟩)
    · exact .inr (.inl ⟨t, _, rfl, hw, one, List.cons_ne_nil _ _, hp⟩)
    · simp only [Flow.bind]
      rcases prim_pmuTx_spec .read mask mode rdata t (by rw [hw.op]; exact hs) with
        ⟨r, u, h', hw', hp', hr⟩ | ⟨u, h', hc⟩
      · rw [h']
        have hu := hw.trans hw'
        have hpu := hp'.trans hp
        rcases hr with rfl | rfl | ⟨bits', rfl⟩
        · exact .inr (.inl ⟨u, _, rfl, hu, List.prefix_rfl, List.cons_ne_nil _ _, hpu⟩)
        · exact .inr (.inl ⟨u, _, rfl, hu, List.prefix_rfl, List.cons_ne_nil _ _, hpu⟩)
        · simp only [need]
          split
          · exact .inl ⟨u, rfl, hu, hpu⟩
          · exact .inr (.inl ⟨u, _, rfl, hu, List.prefix_rfl, List.cons_ne_nil _ _, hpu⟩)
      · rw [h']
        exact .inr (.inr ⟨u, _, rfl, hc.after hw, List.prefix_rfl⟩)
  · rw [h]
    exact .inr (.inr ⟨t, _, rfl, hc, one⟩)

/-- `WriteVerifyReg`, 40_pmu.md R141. -/
theorem writeVerifyReg_does (mask : BitVec 4) (v echo : BitVec 22) (s : State) (hs : s.cmd.op ≠ none) :
    Does (writeVerifyReg mask v echo s) s [pmuFrame .write mask s.par.modeReg v, pmuFrame .read mask s.par.modeReg 0]
      s.pmu (fun m x => m ≠ [] ∧ x = s.pmu) :=
  writeThenVerify_does mask s.par.modeReg v 0 _ s hs

/-- `WriteVerifyDac`, 40_pmu.md R142. -/
theorem writeVerifyDac_does (c : Fin 4) (sub : BitVec 6) (code : BitVec 16) (s : State) (hs : s.cmd.op ≠ none) :
    Does (writeVerifyDac c sub code s) s
      [pmuFrame .write (chMask c) s.par.modeDac (dacPayload sub code),
        pmuFrame .read (chMask c) s.par.modeDac (dacPayload sub 0)]
      s.pmu (fun m x => m ≠ [] ∧ x = s.pmu) :=
  writeThenVerify_does (chMask c) s.par.modeDac (dacPayload sub code) (dacPayload sub 0) _ s hs

/-- The commit rule, 40_pmu.md R144: the shadow of channel `c` is `v` exactly when the part runs on; a failure leaves the
shadows alone. -/
theorem updateCh_does (c : Fin 4) (v : BitVec 22) (s : State) (hs : s.cmd.op ≠ none) :
    Does (updateCh c v s) s [pmuFrame .write (chMask c) s.par.modeReg v, pmuFrame .read (chMask c) s.par.modeReg 0]
      { s.pmu with ch := s.pmu.ch.set c v } (fun m x => m ≠ [] ∧ x = s.pmu) := by
  unfold updateCh
  rcases writeVerifyReg_does (chMask c) v s.par.chEchoMask s hs with
    ⟨t, h, hw, hp⟩ | ⟨t, m, h, hw, hm, hq⟩ | ⟨t, m, h, hc, hm⟩
  · rw [h]
    refine .inl ⟨commitCh c v t, rfl, ?_, by simp [commitCh, State.setPmu, hp]⟩
    exact ⟨hw.par, hw.op, hw.amp, hw.port, hw.results, hw.pubOut, hw.forcePublish, hw.settings, hw.dirty, hw.active,
      hw.activeMask, hw.frames, hw.owner, hw.csADC, hw.csAMP, hw.sched⟩
  · rw [h]; exact .inr (.inl ⟨t, m, rfl, hw, hm, hq⟩)
  · rw [h]; exact .inr (.inr ⟨t, m, rfl, hc, hm⟩)

/-- `WriteVerifyAmp`, 42_amp.md R259: it sends the PMU nothing and changes no field of the amplifier's state. -/
theorem writeVerifyAmp_does (addr : BitVec 7) (v : Byte) (s : State) (hs : s.cmd.op ≠ none) :
    Does (writeVerifyAmp addr v s) s [] s.pmu (fun _ x => x = s.pmu) := by
  unfold writeVerifyAmp ampWrite ampRead
  rcases prim_xfer_spec .amp (by decide) [ampCommand .write addr, v] 0 s hs with ⟨r, t, h, hw, hp, hr⟩ | ⟨t, h, hc⟩
  · rw [h]
    rcases hr with rfl | ⟨bits, rfl⟩
    · exact .inr (.inl ⟨t, _, rfl, hw, List.prefix_rfl, hp⟩)
    · simp only [Flow.bind]
      rcases prim_xfer_spec .amp (by decide) [ampCommand .read addr] 1 t (by rw [hw.op]; exact hs) with
        ⟨r, u, h', hw', hp', hr⟩ | ⟨u, h', hc⟩
      · rw [h']
        have hu := hw.trans hw'
        have hpu := hp'.trans hp
        rcases hr with rfl | ⟨bits', rfl⟩
        · exact .inr (.inl ⟨u, _, rfl, hu, List.prefix_rfl, hpu⟩)
        · simp only
          split
          · exact .inl ⟨u, rfl, hu, hpu⟩
          · exact .inr (.inl ⟨u, _, rfl, hu, List.prefix_rfl, hpu⟩)
      · rw [h']
        exact .inr (.inr ⟨u, _, rfl, hc.after hw, List.prefix_rfl⟩)
  · rw [h]
    exact .inr (.inr ⟨t, _, rfl, hc, List.prefix_rfl⟩)

/-- The stored values a role reads are settings: the other agents leave them. -/
theorem SameSettings.value {a b : SmuChannel} (h : SameSettings a b) (role : Role) : a.value role = b.value role := by
  obtain ⟨h1, h2, h3, h4, h5, h6, -⟩ := h
  cases role <;> assumption

/-- `DacW`, 44_sequencer.md R350: the two frames of the plan's step `D(role, r)`. -/
theorem dacW_does (role : Role) (r : Range) (s : State) (hs : s.cmd.op ≠ none) :
    Does (dacW 0 role r s) s ((planDac s role r).frames s.par) s.pmu (fun m x => m ≠ [] ∧ x = s.pmu) :=
  writeVerifyDac_does 0 (dacAddr s.par role) _ s hs

/-! ### Write-and-verify on a scripted device, nothing scheduled -/

/-- The state after `n` PMU primitives that left `events` on the wires. -/
def pmuDone (s : State) (n : Nat) (events : List BusEvent) (answers : List Answer) (busy : List Bool) : State :=
  { s with
    cmd := { s.cmd with k := s.cmd.k + n }
    bus := { s.bus with owner := .none, csPMU := true }
    trace := s.trace ++ events
    env := { s.env with pmu := answers, busy := busy } }

theorem pmuDone_pmuDone (s : State) (n n' : Nat) (e e' : List BusEvent) (a a' : List Answer) (b b' : List Bool) :
    pmuDone (pmuDone s n e a b) n' e' a' b' = pmuDone s (n + n') (e ++ e') a' b' := by
  simp [pmuDone, Nat.add_assoc]

theorem prim_pmuTx_quiet {s : State} {w : Word32} {rest : List Answer} {brest : List Bool} (dir : Dir) (mask : BitVec 4)
    (mode : BitVec 2) (data : BitVec 22) (hq : Quiet s) (hn : 0 < s.par.busyPollLimit)
    (h : s.env.pmu = .shift w :: rest) (hb : s.env.busy = true :: brest) :
    prim (pmuTx dir mask mode data) s = .go (.ok (dir.readback w)) (pmuDone s 1
      [pmuShiftEvent s.par dir (pmuFrame dir mask mode data) (.ok (bytesOf dir.pmuBytesIn w)), .busySample true]
      rest brest) :=
  prim_quiet (pmuTx_scripted dir mask mode data hn h hb) hq

/-- The readback of a register read, cut to the bits a compare uses. -/
theorem readback_setWidth (n : Nat) (hn : n ≤ 24) (w : Word32) :
    (packBytes (bytesOf 3 w)).setWidth n = w.extractLsb' 0 n := by
  rw [packBytes_bytesOf 3 (by omega)]
  apply BitVec.eq_of_getLsbD_eq
  intro i hi
  have h1 : i < 32 := by omega
  have h2 : i < 24 := by omega
  rw [BitVec.getLsbD_setWidth, BitVec.getLsbD_ofNat, Nat.testBit_mod_two_pow, BitVec.testBit_toNat,
    BitVec.getLsbD_extractLsb']
  simp [hi, h1, h2]

/-- A PMU write-and-verify on a scripted PMU. -/
theorem writeThenVerify_quiet {s : State} {w rb : Word32} {rest : List Answer} {brest : List Bool} (mask : BitVec 4)
    (mode : BitVec 2) (wdata rdata : BitVec 22) (k : Word32 → Bool) (hq : Quiet s) (hn : 0 < s.par.busyPollLimit)
    (h : s.env.pmu = .shift w :: .shift rb :: rest) (hb : s.env.busy = true :: true :: brest) :
    writeThenVerify mask mode wdata rdata k s = need .verifyFailed (k (packBytes (bytesOf 3 rb)))
      (pmuDone s 2 (pmuVerifyEvents s.par mask mode wdata rdata rb) rest brest) := by
  have h1 := prim_pmuTx_quiet .write mask mode wdata hq hn h hb
  have h2 := prim_pmuTx_quiet (s := pmuDone s 1 [pmuShiftEvent s.par .write (pmuFrame .write mask mode wdata)
    (.ok (bytesOf Dir.write.pmuBytesIn w)), .busySample true] (.shift rb :: rest) (true :: brest)) .read mask
    mode rdata hq hn rfl rfl
  rw [pmuDone_pmuDone] at h2
  unfold writeThenVerify
  rw [h1]
  simp only [Flow.bind]
  rw [h2]
  rfl

/-- `WriteVerifyReg` on a scripted PMU. -/
theorem writeVerifyReg_quiet {s : State} {w rb : Word32} {rest : List Answer} {brest : List Bool} (mask : BitVec 4)
    (v echo : BitVec 22) (hq : Quiet s) (hn : 0 < s.par.busyPollLimit)
    (h : s.env.pmu = .shift w :: .shift rb :: rest) (hb : s.env.busy = true :: true :: brest) :
    writeVerifyReg mask v echo s = need .verifyFailed (decide (rb.extractLsb' 0 22 &&& echo = v &&& echo))
      (pmuDone s 2 (pmuVerifyEvents s.par mask s.par.modeReg v 0 rb) rest brest) := by
  unfold writeVerifyReg
  rw [writeThenVerify_quiet mask s.par.modeReg v 0 _ hq hn h hb]
  simp only [regMatches, readback_setWidth 22 (by omega) rb]

/-- `WriteVerifyDac` on a scripted PMU. -/
theorem writeVerifyDac_quiet {s : State} {w rb : Word32} {rest : List Answer} {brest : List Bool} (c : Fin 4)
    (sub : BitVec 6) (code : BitVec 16) (hq : Quiet s) (hn : 0 < s.par.busyPollLimit)
    (h : s.env.pmu = .shift w :: .shift rb :: rest) (hb : s.env.busy = true :: true :: brest) :
    writeVerifyDac c sub code s = need .verifyFailed (decide (rb.extractLsb' 0 16 = code))
      (pmuDone s 2 (pmuVerifyEvents s.par (chMask c) s.par.modeDac (dacPayload sub code) (dacPayload sub 0) rb)
        rest brest) := by
  unfold writeVerifyDac
  rw [writeThenVerify_quiet (chMask c) s.par.modeDac (dacPayload sub code) (dacPayload sub 0) _ hq hn h hb]
  simp only [readback_setWidth 16 (by omega) rb]

/-- The commit rule on a scripted PMU, 40_pmu.md R144. -/
theorem updateCh_quiet {s : State} {w rb : Word32} {rest : List Answer} {brest : List Bool} (c : Fin 4) (v : BitVec 22)
    (hq : Quiet s) (hn : 0 < s.par.busyPollLimit) (h : s.env.pmu = .shift w :: .shift rb :: rest)
    (hb : s.env.busy = true :: true :: brest) :
    updateCh c v s =
      let t := pmuDone s 2 (pmuVerifyEvents s.par (chMask c) s.par.modeReg v 0 rb) rest brest
      if rb.extractLsb' 0 22 &&& s.par.chEchoMask = v &&& s.par.chEchoMask then .go () (commitCh c v t)
      else raise .verifyFailed t := by
  unfold updateCh
  rw [writeVerifyReg_quiet (chMask c) v s.par.chEchoMask hq hn h hb]
  simp only [need]
  split <;> rename_i hc
  · rw [if_pos (by simpa using hc)]; rfl
  · rw [if_neg (by simpa using hc)]; rfl

/-- `DacW`, 44_sequencer.md R350, on a scripted PMU whose readback verifies: the plan's step `D(role, r)`, no state. -/
theorem dacW_quiet {s : State} {a : Word32 × Word32} {rest : List Answer} {brest : List Bool} (role : Role) (r : Range)
    (hq : Quiet s) (hn : 0 < s.par.busyPollLimit) (h : s.env.pmu = .shift a.1 :: .shift a.2 :: rest)
    (hb : s.env.busy = true :: true :: brest) (hv : (planDac s role r).verified s.par a.2 = true) :
    dacW 0 role r s = .go () (pmuDone s 2 ((planDac s role r).events s.par a.2) rest brest) := by
  have hs : storedValue s.smu.ch role = s.smu.ch.value role := by cases role <;> rfl
  simp only [planDac, HwStep.verified, hs] at hv
  unfold dacW
  refine (writeVerifyDac_quiet 0 (dacAddr s.par role) _ hq hn h hb).trans ?_
  rw [hv]
  simp only [planDac, HwStep.events, hs]
  rfl

/-- The commit rule on a scripted PMU whose readback verifies: a register step of a plan, and channel 0's shadow. -/
theorem updateCh_verified {s : State} {a : Word32 × Word32} {rest : List Answer} {brest : List Bool} (v : BitVec 22)
    (hq : Quiet s) (hn : 0 < s.par.busyPollLimit) (h : s.env.pmu = .shift a.1 :: .shift a.2 :: rest)
    (hb : s.env.busy = true :: true :: brest) (hv : (HwStep.reg v).verified s.par a.2 = true) :
    updateCh 0 v s = .go () (commitCh 0 v (pmuDone s 2 ((HwStep.reg v).events s.par a.2) rest brest)) :=
  (updateCh_quiet 0 v hq hn h hb).trans (if_pos (by simpa only [HwStep.verified, decide_eq_true_eq] using hv))

/-- An ADC or amplifier transaction on a scripted device, as a primitive with nothing scheduled. -/
theorem prim_xfer_quiet {dev : Dev} {s : State} {a : Answer} {rest : List Answer} (out : List Byte) (nIn : Nat)
    (hq : Quiet s) (h : s.env.answers dev = a :: rest) :
    prim (withBus .cmd (spiXfer dev out nIn)) s = .go (a.result nIn)
      (((driveCs dev true ((setOwner .none s).setTrace (s.trace ++ [.xfer dev out nIn (a.result nIn)]))).setEnv
        (s.env.setAnswers dev rest)).setCmd { s.cmd with k := s.cmd.k + 1 }) := by
  have hx := withBus_spiXfer_scripted .cmd out nIn h
  have hs : s.env.sched = [] := hq
  rw [prim_quiet hx (by simpa using hs)]
  cases dev <;> rfl

/-- The state after `n` amplifier primitives that left `events` on the wires. -/
def ampDone (s : State) (n : Nat) (events : List BusEvent) (answers : List Answer) : State :=
  { s with
    cmd := { s.cmd with k := s.cmd.k + n }
    bus := { s.bus with owner := .none, csAMP := true }
    trace := s.trace ++ events
    env := { s.env with amp := answers } }

theorem ampDone_ampDone (s : State) (n n' : Nat) (e e' : List BusEvent) (a a' : List Answer) :
    ampDone (ampDone s n e a) n' e' a' = ampDone s (n + n') (e ++ e') a' := by
  simp [ampDone, Nat.add_assoc]

theorem endCommand_ampDone (s : State) (i : Instr) (r : Result) (n : Nat) (e : List BusEvent) (a : List Answer) :
    endCommand r (ampDone (s.setCmd ⟨some i, 0⟩) n e a) = afterAmp s r s.amp e a := rfl

/-- An amplifier transfer on a scripted amplifier. -/
theorem prim_amp_quiet {s : State} {a : Answer} {rest : List Answer} (out : List Byte) (nIn : Nat)
    (hq : Quiet s) (h : s.env.amp = a :: rest) :
    prim (withBus .cmd (spiXfer .amp out nIn)) s =
      .go (a.result nIn) (ampDone s 1 [.xfer .amp out nIn (a.result nIn)] rest) :=
  prim_xfer_quiet (dev := .amp) out nIn hq h

/-- `WriteVerifyAmp` on a scripted amplifier. -/
theorem writeVerifyAmp_quiet {s : State} {w rb : Word32} {rest : List Answer} (addr : BitVec 7) (v : Byte) (hq : Quiet s)
    (h : s.env.amp = .shift w :: .shift rb :: rest) :
    writeVerifyAmp addr v s =
      let t := ampDone s 2 (ampVerifyEvents addr v rb) rest
      if rb.extractLsb' 0 8 &&& s.par.ampEchoMask = v &&& s.par.ampEchoMask then .go () t
      else raise .verifyFailed t := by
  have h1 := prim_amp_quiet [ampCommand .write addr, v] 0 hq h
  have h2 := prim_amp_quiet (s := ampDone s 1 [.xfer .amp [ampCommand .write addr, v] 0 ((Answer.shift w).result 0)]
    (.shift rb :: rest)) [ampCommand .read addr] 1 hq rfl
  rw [ampDone_ampDone] at h2
  have hr : (packBytes (bytesOf 1 rb)).setWidth 8 = rb.extractLsb' 0 8 := by
    rw [packBytes_bytesOf 1 (by omega)]
    apply BitVec.eq_of_getLsbD_eq
    intro i hi
    rw [BitVec.getLsbD_setWidth, BitVec.getLsbD_ofNat, Nat.testBit_mod_two_pow, BitVec.testBit_toNat,
      BitVec.getLsbD_extractLsb']
    simp [hi, show i < 32 by omega]
  have hx : writeVerifyAmp addr v s =
      if ampMatches s.par (bytesOf 1 rb) v then .go () (ampDone s 2 (ampVerifyEvents addr v rb) rest)
      else raise .verifyFailed (ampDone s 2 (ampVerifyEvents addr v rb) rest) := by
    unfold writeVerifyAmp ampWrite ampRead
    rw [h1]
    simp only [Flow.bind, Answer.result] at h2 ⊢
    rw [h2]
    rfl
  rw [hx]
  simp only [ampMatches, hr, decide_eq_true_eq]

/-- A command's end after PMU primitives is `afterPmu`. -/
theorem endCommand_pmuDone (s : State) (i : Instr) (r : Result) (n : Nat) (e : List BusEvent) (a : List Answer)
    (b : List Bool) :
    endCommand r (pmuDone (s.setCmd ⟨some i, 0⟩) n e a b) = afterPmu s r s.pmu s.smu e a b := rfl

/-! ### Values -/

/-- A dirty bitmap with one more bit: `mark` changes nothing else. -/
theorem SmuChannel.mark_settings (ch : SmuChannel) (b : Nat) : SameSettings (ch.mark b) ch := by
  simp [SameSettings, SmuChannel.mark]

theorem SmuChannel.mark_dirty (ch : SmuChannel) (b : Nat) : (ch.mark b).dirty = ch.dirty ||| (1#12 <<< b) := rfl

end Sys2Proof.Machine
end

