-- ==== Sys2Proof/Laws/Encoding.lean ====
section
/-! SUPPORT. The fields of a command word and the word packed from fields (Decode.lean): each field read back, and the word
made again from its fields. -/

namespace Sys2Proof

theorem fieldOpc_packWord (opc : BitVec 8) (ch sel : BitVec 4) (a b : BitVec 8) (d : BitVec 32) :
    fieldOpc (packWord opc ch sel a b d) = opc := by
  apply BitVec.eq_of_getLsbD_eq
  intro i hi
  simp only [fieldOpc, packWord, BitVec.getLsbD_extractLsb', BitVec.getLsbD_append]
  interval_cases i <;> simp

theorem fieldCh_packWord (opc : BitVec 8) (ch sel : BitVec 4) (a b : BitVec 8) (d : BitVec 32) :
    fieldCh (packWord opc ch sel a b d) = ch := by
  apply BitVec.eq_of_getLsbD_eq
  intro i hi
  simp only [fieldCh, packWord, BitVec.getLsbD_extractLsb', BitVec.getLsbD_append]
  interval_cases i <;> simp

theorem fieldSel_packWord (opc : BitVec 8) (ch sel : BitVec 4) (a b : BitVec 8) (d : BitVec 32) :
    fieldSel (packWord opc ch sel a b d) = sel := by
  apply BitVec.eq_of_getLsbD_eq
  intro i hi
  simp only [fieldSel, packWord, BitVec.getLsbD_extractLsb', BitVec.getLsbD_append]
  interval_cases i <;> simp

theorem fieldA_packWord (opc : BitVec 8) (ch sel : BitVec 4) (a b : BitVec 8) (d : BitVec 32) :
    fieldA (packWord opc ch sel a b d) = a := by
  apply BitVec.eq_of_getLsbD_eq
  intro i hi
  simp only [fieldA, packWord, BitVec.getLsbD_extractLsb', BitVec.getLsbD_append]
  interval_cases i <;> simp

theorem fieldB_packWord (opc : BitVec 8) (ch sel : BitVec 4) (a b : BitVec 8) (d : BitVec 32) :
    fieldB (packWord opc ch sel a b d) = b := by
  apply BitVec.eq_of_getLsbD_eq
  intro i hi
  simp only [fieldB, packWord, BitVec.getLsbD_extractLsb', BitVec.getLsbD_append]
  interval_cases i <;> simp

theorem fieldD_packWord (opc : BitVec 8) (ch sel : BitVec 4) (a b : BitVec 8) (d : BitVec 32) :
    fieldD (packWord opc ch sel a b d) = d := by
  apply BitVec.eq_of_getLsbD_eq
  intro i hi
  simp only [fieldD, packWord, BitVec.getLsbD_extractLsb', BitVec.getLsbD_append]
  interval_cases i <;> simp

/-- A command word is its six fields. -/
theorem packWord_fields (w : CmdWord) :
    packWord (fieldOpc w) (fieldCh w) (fieldSel w) (fieldA w) (fieldB w) (fieldD w) = w := by
  apply BitVec.eq_of_getLsbD_eq
  intro i hi
  simp only [packWord, fieldOpc, fieldCh, fieldSel, fieldA, fieldB, fieldD, BitVec.getLsbD_append,
    BitVec.getLsbD_extractLsb']
  interval_cases i <;> simp

end Sys2Proof
end

