-- ==== Sys2Proof/Laws/Fields.lean ====
section
/-! SUPPORT. The fields of the device registers (Machine/Flags.lean): what setting a field does to each bit, and the bits the
reference layout of a channel-control register defines. -/

namespace Sys2Proof.Machine

/-- A field's mask holds exactly the field's bits. -/
theorem getLsbD_mask (n : Nat) (f : BitField) (i : Nat) (hi : i < n) :
    (BitField.mask n f).getLsbD i = decide (f.lo ≤ i ∧ i < f.lo + f.width) := by
  simp only [BitField.mask, BitVec.getLsbD_shiftLeft, BitVec.getLsbD_ofNat, Nat.testBit_two_pow_sub_one, hi, decide_true,
    Bool.true_and]
  by_cases h : f.lo ≤ i
  · simp [h, Nat.not_lt.mpr h, show i - f.lo < n by omega, show i - f.lo < f.width ↔ i < f.lo + f.width by omega]
  · simp [h, Nat.lt_of_not_le h]

/-- Setting a field writes the field's bits and keeps every other bit. -/
theorem getLsbD_setField (v x : BitVec n) (f : BitField) (i : Nat) (hi : i < n) :
    (setField v f x).getLsbD i = if f.lo ≤ i ∧ i < f.lo + f.width then x.getLsbD (i - f.lo) else v.getLsbD i := by
  simp only [setField, BitVec.getLsbD_or, BitVec.getLsbD_and, BitVec.getLsbD_not, BitVec.getLsbD_shiftLeft,
    getLsbD_mask n f i hi, hi, decide_true, Bool.true_and]
  split
  · next h => simp [h, Nat.not_lt.mpr h.1]
  · next h => simp [h]

/-- The reference layout of 10_state.md R38 defines bits 13:0; bits 21:14 are reserved. -/
@[simp] theorem definedBits_reference : ChLayout.definedBits .reference = 0x003FFF := by decide

/-- A field command's starting value keeps the defined bits and clears the reserved ones. -/
theorem clearReserved_reference (v : BitVec 22) : clearReserved .reference v = v &&& 0x003FFF := by
  rw [clearReserved, definedBits_reference]

end Sys2Proof.Machine
end

