-- ==== Sys2Proof/Laws/PerInstr.lean ====
section
/-! SUPPORT. Facts said once per command: the opcode of the encoder's word (30_encoding.md R110, R114). -/

namespace Sys2Proof.Laws

/-- The encoder writes the command's opcode into the opcode field, whatever the operands. -/
def EncodeOpcode.Statement (i : Instr) : Prop := fieldOpc (encode i) = i.opcode

theorem EncodeOpcode.pmuInit : EncodeOpcode.Statement .pmuInit :=
  fieldOpc_packWord _ _ _ _ _ _
theorem EncodeOpcode.pmuTransact (chmask dir : BitVec 4) (mode : BitVec 8) (data : BitVec 32) : EncodeOpcode.Statement (.pmuTransact chmask dir mode data) :=
  fieldOpc_packWord _ _ _ _ _ _
theorem EncodeOpcode.pmuWriteSysctrl (value : BitVec 32) : EncodeOpcode.Statement (.pmuWriteSysctrl value) :=
  fieldOpc_packWord _ _ _ _ _ _
theorem EncodeOpcode.pmuWriteChctrl (channel : BitVec 4) (value : BitVec 32) : EncodeOpcode.Statement (.pmuWriteChctrl channel value) :=
  fieldOpc_packWord _ _ _ _ _ _
theorem EncodeOpcode.pmuSetChstate (channel state : BitVec 4) : EncodeOpcode.Statement (.pmuSetChstate channel state) :=
  fieldOpc_packWord _ _ _ _ _ _
theorem EncodeOpcode.pmuSetMode (channel mode : BitVec 4) : EncodeOpcode.Statement (.pmuSetMode channel mode) :=
  fieldOpc_packWord _ _ _ _ _ _
theorem EncodeOpcode.pmuSetRange (channel code : BitVec 4) : EncodeOpcode.Statement (.pmuSetRange channel code) :=
  fieldOpc_packWord _ _ _ _ _ _
theorem EncodeOpcode.pmuSetDac (channel : BitVec 4) (subaddr : BitVec 8) (code : BitVec 32) : EncodeOpcode.Statement (.pmuSetDac channel subaddr code) :=
  fieldOpc_packWord _ _ _ _ _ _
theorem EncodeOpcode.adcStart : EncodeOpcode.Statement .adcStart :=
  fieldOpc_packWord _ _ _ _ _ _
theorem EncodeOpcode.adcStop : EncodeOpcode.Statement .adcStop :=
  fieldOpc_packWord _ _ _ _ _ _
theorem EncodeOpcode.adcConfigCh (channel enable : BitVec 4) (pos neg : BitVec 8) : EncodeOpcode.Statement (.adcConfigCh channel enable pos neg) :=
  fieldOpc_packWord _ _ _ _ _ _
theorem EncodeOpcode.adcWriteReg (nbytes : BitVec 4) (addr : BitVec 8) (value : BitVec 32) : EncodeOpcode.Statement (.adcWriteReg nbytes addr value) :=
  fieldOpc_packWord _ _ _ _ _ _
theorem EncodeOpcode.adcReadReg (nbytes : BitVec 4) (addr : BitVec 8) : EncodeOpcode.Statement (.adcReadReg nbytes addr) :=
  fieldOpc_packWord _ _ _ _ _ _
theorem EncodeOpcode.ampInit : EncodeOpcode.Statement .ampInit :=
  fieldOpc_packWord _ _ _ _ _ _
theorem EncodeOpcode.ampSetGain (ig og : BitVec 8) : EncodeOpcode.Statement (.ampSetGain ig og) :=
  fieldOpc_packWord _ _ _ _ _ _
theorem EncodeOpcode.ampSetSwitch (p n : BitVec 8) : EncodeOpcode.Statement (.ampSetSwitch p n) :=
  fieldOpc_packWord _ _ _ _ _ _
theorem EncodeOpcode.ampSetTestmux (p n : BitVec 8) : EncodeOpcode.Statement (.ampSetTestmux p n) :=
  fieldOpc_packWord _ _ _ _ _ _
theorem EncodeOpcode.ampWriteReg (addr : BitVec 8) (value : BitVec 32) : EncodeOpcode.Statement (.ampWriteReg addr value) :=
  fieldOpc_packWord _ _ _ _ _ _
theorem EncodeOpcode.ampReadReg (addr : BitVec 8) : EncodeOpcode.Statement (.ampReadReg addr) :=
  fieldOpc_packWord _ _ _ _ _ _
theorem EncodeOpcode.smuSetValue (channel role : BitVec 4) (value : BitVec 32) : EncodeOpcode.Statement (.smuSetValue channel role value) :=
  fieldOpc_packWord _ _ _ _ _ _
theorem EncodeOpcode.smuSetRange (channel range : BitVec 4) : EncodeOpcode.Statement (.smuSetRange channel range) :=
  fieldOpc_packWord _ _ _ _ _ _
theorem EncodeOpcode.smuSetMode (channel mode : BitVec 4) : EncodeOpcode.Statement (.smuSetMode channel mode) :=
  fieldOpc_packWord _ _ _ _ _ _
theorem EncodeOpcode.smuSetState (channel state : BitVec 4) : EncodeOpcode.Statement (.smuSetState channel state) :=
  fieldOpc_packWord _ _ _ _ _ _
theorem EncodeOpcode.smuValueToCode (channel role : BitVec 4) (range : BitVec 8) (value : BitVec 32) : EncodeOpcode.Statement (.smuValueToCode channel role range value) :=
  fieldOpc_packWord _ _ _ _ _ _
theorem EncodeOpcode.smuCodeToValue (channel kind : BitVec 4) (range : BitVec 8) (code : BitVec 32) : EncodeOpcode.Statement (.smuCodeToValue channel kind range code) :=
  fieldOpc_packWord _ _ _ _ _ _
theorem EncodeOpcode.smuPublishTick : EncodeOpcode.Statement .smuPublishTick :=
  fieldOpc_packWord _ _ _ _ _ _
theorem EncodeOpcode.smuQueueFullUpdate : EncodeOpcode.Statement .smuQueueFullUpdate :=
  fieldOpc_packWord _ _ _ _ _ _

end Sys2Proof.Laws
end

