-- ==== Sys2Proof/Machine/Assembler.lean ====
section
/-! DEFINITION. The assembler syntax of 30_encoding.md R119, one line to one command word, and the pseudo-instructions of
R120. Neither takes part in a step: a host tool uses them before a word reaches the port. -/

namespace Sys2Proof.Machine

/-! ### Pseudo-instructions, R120 -/

/-- `PMU_READ_SYSCTRL`. -/
def pseudoPmuReadSysctrl (p : Params) : List Instr := [.pmuTransact 0 1 (p.modeReg.setWidth 8) 0]

/-- `PMU_READ_CHCTRL c`. -/
def pseudoPmuReadChctrl (p : Params) (c : Fin 4) : List Instr :=
  [.pmuTransact (1#4 <<< c.val) 1 (p.modeReg.setWidth 8) 0]

/-- `PMU_READ_DAC c, sub`. -/
def pseudoPmuReadDac (p : Params) (c : Fin 4) (sub : BitVec 6) : List Instr :=
  [.pmuTransact (1#4 <<< c.val) 1 (p.modeDac.setWidth 8) (sub.setWidth 32 <<< 16)]

/-- `AMP_READ_ID`. -/
def pseudoAmpReadId (p : Params) : List Instr := [.ampReadReg (p.ampRegId.setWidth 8)]

/-- `SMU_SET_CLAMPS_I c, lo, hi`: two commands; the host stops at the first failure. -/
def pseudoSmuSetClampsI (c : BitVec 4) (lo hi : BitVec 32) : List Instr := [.smuSetValue c 2 lo, .smuSetValue c 3 hi]

/-! ### Characters and numbers -/

/-- Leading spaces dropped. -/
def dropSpaces : List Char → List Char
  | [] => []
  | c :: cs => if c = ' ' then dropSpaces cs else c :: cs

/-- Spaces dropped at both ends. -/
def trimSpaces (cs : List Char) : List Char := (dropSpaces (dropSpaces cs).reverse).reverse

/-- The parts between the occurrences of `sep`. -/
def splitAt (sep : Char) : List Char → List (List Char)
  | [] => [[]]
  | c :: cs =>
    match splitAt sep cs with
    | [] => [[c]]
    | h :: t => if c = sep then [] :: h :: t else (c :: h) :: t

/-- The value of a digit in a base. -/
def digit? (base : Nat) (c : Char) : Option Nat :=
  let n := c.toUpper.toNat
  let v := if 48 ≤ n ∧ n ≤ 57 then n - 48 else if 65 ≤ n ∧ n ≤ 70 then n - 55 else base
  if v < base then some v else none

/-- Digits in a base, at least one. -/
def digits? (base : Nat) (cs : List Char) : Option Nat :=
  if cs = [] then none
  else cs.foldl (fun acc c => acc.bind fun a => (digit? base c).map fun d => a * base + d) (some 0)

/-- A number: decimal or `0x` hexadecimal (R119), or `0b` binary as R119's own example writes it. -/
def number? : List Char → Option Nat
  | '0' :: 'x' :: cs => digits? 16 cs
  | '0' :: 'b' :: cs => digits? 2 cs
  | cs => digits? 10 cs

/-- The names of enum operands and their codes, R119. -/
def operandNames : List (String × Nat) := [
  ("FV", 0), ("FI", 1), ("CLLI", 2), ("CLHI", 3), ("CLLV", 4), ("CLHV", 5),
  ("DISABLED", 0), ("STANDBY", 1), ("HIZ", 1), ("ENABLED", 2), ("WRITE", 0), ("READ", 1),
  ("RANGE_5UA", 0), ("RANGE_20UA", 1), ("RANGE_200UA", 2), ("RANGE_2MA", 3), ("RANGE_EXT_20MA", 4),
  ("RANGE_EXT_200MA", 5)] ++ [
  ("IX0P0625", 0), ("IX0P125", 1), ("IX0P25", 2), ("IX0P5", 3), ("IX1", 4), ("IX2", 5), ("IX4", 6), ("IX8", 7),
  ("IX16", 8), ("IX32", 9), ("IX64", 10), ("IX128", 11), ("OX1", 0), ("OX1P25", 1), ("OX1P375", 2),
  ("IN1", 0), ("IN2", 1), ("TEST", 2), ("SHORT", 3)]

/-- An operand: a number or a name. -/
def operand? (cs : List Char) : Option Nat :=
  match number? cs with
  | some n => some n
  | none => (operandNames.find? fun e => e.1.toList = cs).map (·.2)

/-! ### Decimal values to binary32, R119: the nearest, ties to even -/

/-- An unsigned decimal number with an optional fraction. -/
def unsignedDecimal? (cs : List Char) : Option Rat :=
  match splitAt '.' cs with
  | [whole] => (digits? 10 whole).map fun n => (n : Rat)
  | [whole, frac] =>
    (digits? 10 whole).bind fun n => (digits? 10 frac).map fun f => (n : Rat) + (f : Rat) / ((10 ^ frac.length : Nat) : Rat)
  | _ => none

/-- The value of a non-negative finite binary32 pattern, infinity's pattern read as the next power of two. -/
def patternValue (n : Nat) : Rat := (binary32? (BitVec.ofNat 32 n)).getD ((2 ^ 128 : Nat) : Rat)

/-- The greatest pattern up to infinity's whose value is at most `q`, found bit by bit from bit `k - 1` down. -/
def greatestPattern (q : Rat) : Nat → Nat → Nat
  | 0, acc => acc
  | k + 1, acc =>
    let n := acc + 2 ^ k
    greatestPattern q k (if n ≤ 0x7F800000 ∧ patternValue n ≤ q then n else acc)

/-- The binary32 pattern nearest to a non-negative rational, ties to even. -/
def nearestPattern (q : Rat) : Nat :=
  let n := greatestPattern q 31 0
  if n = 0x7F800000 then n
  else
    let below := q - patternValue n
    let above := patternValue (n + 1) - q
    if below < above then n else if above < below then n + 1 else if n % 2 = 0 then n else n + 1

/-- A decimal number assembled to a binary32 pattern. -/
def decimal32? (cs : List Char) : Option Nat :=
  match cs with
  | '-' :: cs => (unsignedDecimal? cs).map fun q => nearestPattern q + 2 ^ 31
  | cs => (unsignedDecimal? cs).map nearestPattern

/-! ### A line -/

/-- The column of a command word an operand is assembled into (30_encoding.md R110, R114); `f` is D as a binary32. -/
inductive Column where
  | ch | sel | a | b | d | f
deriving DecidableEq, Repr

/-- The PMU and ADC mnemonics of 30_encoding.md R114 with their opcodes and operand columns, in the order CH, SEL, A, B, D
(R119). -/
def deviceMnemonics : List (String × Nat × List Column) := [
  ("PMU_INIT", 0x10, []), ("PMU_TRANSACT", 0x11, [.ch, .sel, .a, .d]), ("PMU_WRITE_SYSCTRL", 0x12, [.d]),
  ("PMU_WRITE_CHCTRL", 0x13, [.ch, .d]), ("PMU_SET_CHSTATE", 0x14, [.ch, .sel]), ("PMU_SET_MODE", 0x15, [.ch, .sel]),
  ("PMU_SET_RANGE", 0x16, [.ch, .sel]), ("PMU_SET_DAC", 0x17, [.ch, .a, .d]), ("ADC_START", 0x20, []),
  ("ADC_STOP", 0x21, []), ("ADC_CONFIG_CH", 0x22, [.ch, .sel, .a, .b]), ("ADC_WRITE_REG", 0x23, [.sel, .a, .d]),
  ("ADC_READ_REG", 0x24, [.sel, .a])]

/-- The amplifier and SMU mnemonics, likewise. -/
def controlMnemonics : List (String × Nat × List Column) := [
  ("AMP_INIT", 0x30, []), ("AMP_SET_GAIN", 0x31, [.a, .b]), ("AMP_SET_SWITCH", 0x32, [.a, .b]),
  ("AMP_SET_TESTMUX", 0x33, [.a, .b]), ("AMP_WRITE_REG", 0x34, [.a, .d]), ("AMP_READ_REG", 0x35, [.a]),
  ("SMU_SET_VALUE", 0x40, [.ch, .sel, .f]), ("SMU_SET_RANGE", 0x41, [.ch, .sel]), ("SMU_SET_MODE", 0x42, [.ch, .sel]),
  ("SMU_SET_STATE", 0x43, [.ch, .sel]), ("SMU_VALUE_TO_CODE", 0x44, [.ch, .sel, .a, .f]),
  ("SMU_CODE_TO_VALUE", 0x45, [.ch, .sel, .a, .d]), ("SMU_PUBLISH_TICK", 0x46, []),
  ("SMU_QUEUE_FULL_UPDATE", 0x47, [])]

/-- Every mnemonic of 30_encoding.md R114. -/
def mnemonics : List (String × Nat × List Column) := deviceMnemonics ++ controlMnemonics

/-- The lowest bit and the width of a column, 30_encoding.md R110. -/
def Column.place : Column → Nat × Nat
  | .ch => (52, 4)
  | .sel => (48, 4)
  | .a => (40, 8)
  | .b => (32, 8)
  | .d => (0, 32)
  | .f => (0, 32)

/-- Operands put into their columns, each within its column's width, and as many operands as columns. -/
def placeOperands : List Column → List (List Char) → Nat → Option Nat
  | [], [], w => some w
  | c :: cs, o :: os, w =>
    let v := match c with
      | .f => decimal32? o
      | _ => operand? o
    match v with
    | some n => if n < 2 ^ c.place.2 then placeOperands cs os (w + n * 2 ^ c.place.1) else none
    | none => none
  | _, _, _ => none

/-- A line's operands: none, or separated by commas. -/
def operandList (cs : List Char) : List (List Char) :=
  if trimSpaces cs = [] then [] else (splitAt ',' cs).map trimSpaces

/-- One assembler line to its command word, R119: the mnemonic in any letter case, then its operands. -/
def assemble (line : List Char) : Option CmdWord :=
  let l := trimSpaces line
  let name := (l.takeWhile (· ≠ ' ')).map Char.toUpper
  match mnemonics.find? (fun e => e.1.toList = name) with
  | some (_, opc, cols) =>
    (placeOperands cols (operandList (l.dropWhile (· ≠ ' '))) (opc * 2 ^ 56)).map fun w => BitVec.ofNat 64 w
  | none => none

end Sys2Proof.Machine
end

