-- ==== Sys2Proof/Tests/Slice0.lean ====
section
/-! SUPPORT. The model's own tests: the decode words and the vectors of 95_test_vectors.md (the expected values are the spec's,
by their vector names), an ill-formed term for each check of WellFormed, and for every obligation with hypotheses a witness
that meets them all. -/

namespace Sys2Proof.Tests

open Sys2Proof.Machine

/-! ### Helpers -/

/-- The reset state with the environment's inputs replaced. -/
def withEnv (e : Env) : State := { State.reset with env := e }
/-- The reset state with the reference device of 20_memory.md R85 on the bus. -/
def bench : State := withEnv { Env.empty with device := .reference }
/-- The state of a next outcome; the state before, for any other. -/
def nextOr (s : State) : Host.Outcome State Fault Refusal → State
  | .next t => t
  | _ => s
/-- The state after a command word is issued and run. -/
def issue (w : CmdWord) (s : State) : State := nextOr s (step (issueWord w s))
/-- The state after one scheduled agent step. -/
def move (m : Move) (s : State) : State := nextOr s (step (setSched [m] s))
/-- The pipeline steps E, T(f): an edge, then a sample task that reads the frame `f`. -/
def edgeAndSample (f : Answer) (s : State) : State :=
  move .sample ((move .edge s).setEnv { s.env with adc := [f] })
/-- The bytes sent to the PMU as words, in order. -/
def pmuWords (s : State) : List Word32 := (pmuFrames s.trace).map packBytes
/-- The bytes sent to the ADC and the amplifier, in order. -/
def byteFrames (s : State) : List (List Byte) := s.trace.filterMap fun
  | .xfer .adc out _ _ => some out
  | .xfer .amp out _ _ => some out
  | _ => none
/-- A script of PMU answers on a busy line that is ready at `n` samples. -/
def pmuScript (answers : List Answer) (n : Nat) : State :=
  withEnv { Env.empty with pmu := answers, busy := List.replicate n true }

/-! ### Decoding: one word of the spec's vectors for every command -/

theorem test_decode_pmu :
    decode 0x1000000000000000 = .ok .pmuInit ∧ decode 0x1110010000081234 = .ok (.pmuTransact 1 0 1 0x081234) ∧
    decode 0x1200000000000040 = .ok (.pmuWriteSysctrl 0x40) ∧ decode 0x132000000000091A = .ok (.pmuWriteChctrl 2 0x91A) ∧
    decode 0x1402000000000000 = .ok (.pmuSetChstate 0 2) ∧ decode 0x1501000000000000 = .ok (.pmuSetMode 0 1) ∧
    decode 0x1602000000000000 = .ok (.pmuSetRange 0 2) ∧ decode 0x17300D000000FFFF = .ok (.pmuSetDac 3 0x0D 0xFFFF) := by
  decide

theorem test_decode_adc :
    decode 0x2000000000000000 = .ok .adcStart ∧ decode 0x2100000000000000 = .ok .adcStop ∧
    decode 0x2230020300000000 = .ok (.adcConfigCh 3 0 2 3) ∧
    decode 0x230201000000800C = .ok (.adcWriteReg 2 0x01 0x800C) ∧
    decode 0x2404040000000000 = .ok (.adcReadReg 4 0x04) := by decide

theorem test_decode_amp :
    decode 0x3000000000000000 = .ok .ampInit ∧ decode 0x31000B0200000000 = .ok (.ampSetGain 11 2) ∧
    decode 0x3200000100000000 = .ok (.ampSetSwitch 0 1) ∧ decode 0x3300010200000000 = .ok (.ampSetTestmux 1 2) ∧
    decode 0x34000500000000A5 = .ok (.ampWriteReg 5 0xA5) ∧ decode 0x35000F0000000000 = .ok (.ampReadReg 0x0F) := by decide

theorem test_decode_smu :
    decode 0x40050000C1A00000 = .ok (.smuSetValue 0 5 0xC1A00000) ∧ decode 0x4104000000000000 = .ok (.smuSetRange 0 4) ∧
    decode 0x4201000000000000 = .ok (.smuSetMode 0 1) ∧ decode 0x4302000000000000 = .ok (.smuSetState 0 2) ∧
    decode 0x440005003E000000 = .ok (.smuValueToCode 0 0 5 0x3E000000) ∧
    decode 0x4501030000C00000 = .ok (.smuCodeToValue 0 1 3 0xC00000) ∧
    decode 0x4600000000000000 = .ok .smuPublishTick ∧ decode 0x4700000000000000 = .ok .smuQueueFullUpdate := by decide

/-- The encoder's words, V-PMU-16 and V-AMP-11. -/
theorem test_encode :
    encode (.pmuSetDac 3 0x0D 0xFFFF) = 0x17300D000000FFFF ∧ encode (.ampSetTestmux 1 2) = 0x3300010200000000 := by decide

/-- The host's two fixed names on one table row: V-SEQ-3. -/
theorem test_table_word : decodeTableWord 64 0x4002000000000000 = some (.smuSetValue 0 2 0) ∧
    (nextOr bench (step (bench.withFetchWord 64 0x4002000000000000))).smu.ch.clli = -(1 / 4000) := by decide +kernel

/-! ### WellFormed: an ill-formed term for each check -/

theorem test_wf_channel4 : (Instr.pmuWriteChctrl 4 0).wellFormed = false ∧ (Instr.pmuWriteChctrl 3 0).wellFormed = true := by
  decide
theorem test_wf_smuChannel : (Instr.smuSetRange 1 0).wellFormed = false ∧ (Instr.smuSetRange 0 5).wellFormed = true := by
  decide
theorem test_wf_fits : (Instr.pmuWriteSysctrl 0x400000).wellFormed = false ∧
    (Instr.pmuWriteSysctrl 0x3FFFFF).wellFormed = true ∧ (Instr.adcWriteReg 1 1 0x100).wellFormed = false := by decide
theorem test_wf_below : (Instr.pmuSetRange 0 5).wellFormed = false ∧ (Instr.ampSetGain 11 3).wellFormed = false ∧
    (Instr.ampSetGain 11 2).wellFormed = true := by decide
theorem test_wf_byteCount : (Instr.adcReadReg 0 4).wellFormed = false ∧ (Instr.adcReadReg 5 4).wellFormed = false := by
  decide
theorem test_wf_finite32 : (Instr.smuSetValue 0 0 0x7F800000).wellFormed = false ∧
    (Instr.smuValueToCode 0 0 3 0x7FC00000).wellFormed = false ∧ (Instr.smuSetValue 0 0 0x7F7FFFFF).wellFormed = true := by
  decide
theorem test_wf_shortTogether : (Instr.ampSetSwitch 3 0).wellFormed = false ∧ (Instr.ampSetSwitch 3 3).wellFormed = true := by
  decide

/-! ### The PMU -/

/-- V-PMU-1. -/
theorem test_pmuInit : (issue 0x1000000000000000 bench).results = [.ok .nothing] ∧
    pmuWords (issue 0x1000000000000000 bench) = [0x00000040, 0x10000000, 0x0100091A, 0x11000000, 0x0200091A, 0x12000000,
      0x0400091A, 0x14000000, 0x0800091A, 0x18000000] := by decide +kernel
/-- V-PMU-2. -/
theorem test_pmuInit_busy :
    let t := issue 0x1000000000000000 (withEnv { Env.empty with busy := List.replicate 5 false })
    t.results = [.fail .busy] ∧ pmuWords t = [] ∧ t.pmu.phase = .reset := by decide +kernel
/-- V-PMU-20 and V-PMU-19. -/
theorem test_pmuTransact :
    (issue 0x1110010000081234 bench).results = [.ok (.word 0)] ∧ pmuWords (issue 0x1110010000081234 bench) = [0x01481234] ∧
    (issue 0x1101000000000000 (pmuScript [.shift 0x40] 1)).results = [.ok (.word 0x40)] := by decide +kernel
/-- V-PMU-21 and V-PMU-22. -/
theorem test_pmuTransact_fails : (issue 0x1100040000000000 bench).results = [.fail .invalidArgument] ∧
    (issue 0x1101000000000000 (withEnv { Env.empty with pmu := [.shift 0], busy := List.replicate 5 false })).results =
      [.fail .busy] := by decide +kernel
/-- V-PMU-5: bits 11:10 lie outside SYS_ECHO_MASK. -/
theorem test_pmuWriteSysctrl : (issue 0x1200000000000C40 (pmuScript [.shift 0, .shift 0x40] 2)).pmu.sys = 0xC40 := by
  decide +kernel
/-- V-PMU-7. -/
theorem test_pmuWriteChctrl : pmuWords (issue 0x132000000000091A bench) = [0x0400091A, 0x14000000] := by decide +kernel
/-- V-PMU-9 and V-PMU-18. -/
theorem test_pmuSetChstate : (issue 0x1402000000000000 bench).pmu.ch[(0 : Fin 4)] = 0x919 ∧
    (issue 0x1402000000000000 (pmuScript [.shift 0, .shift 0x91A] 2)).pmu.ch[(0 : Fin 4)] = 0x91A := by decide +kernel
/-- V-PMU-14. -/
theorem test_pmuSetMode : (issue 0x1501000000000000 bench).pmu.ch[(0 : Fin 4)] = 0x91E := by decide +kernel
/-- V-PMU-12. -/
theorem test_pmuSetRange : (issue 0x1602000000000000 bench).pmu.ch[(0 : Fin 4)] = 0x912 := by decide +kernel
/-- 10_state.md R38: a reserved bit a raw write left 1 is written 0 by the next field command. -/
theorem test_field_command_clears_reserved :
    pmuWords (issue 0x1402000000000000 (issue 0x130000000020091A bench)) =
      [0x0120091A, 0x11000000, 0x01000919, 0x11000000] := by decide +kernel
/-- 40_pmu.md R147, R148, R155: a reserved range code of a raw write stays in the shadow the field commands start from. -/
theorem test_field_command_keeps_range :
    pmuWords (issue 0x1501000000000000 (issue 0x1402000000000000 (issue 0x1300000000000938 bench))) =
      [0x01000938, 0x11000000, 0x01000939, 0x11000000, 0x0100093D, 0x11000000] := by decide +kernel
/-- V-PMU-16 and V-PMU-17. -/
theorem test_pmuSetDac : pmuWords (issue 0x17300D000000FFFF bench) = [0x084DFFFF, 0x184D0000] ∧
    (issue 0x1700080000008000 (pmuScript [.shift 0, .shift 0x088001] 2)).results = [.fail .verifyFailed] := by
  decide +kernel

/-! ### The ADC -/

/-- V-ADC-2 and V-ADC-3. -/
theorem test_adcStart_stop :
    let a := (issue 0x2000000000000000 bench).adc
    let b := (issue 0x2100000000000000 (issue 0x2000000000000000 bench)).adc
    (a.active = true ∧ a.armed = true ∧ a.discardNext = true) ∧ b.active = false ∧ b.armed = false ∧ b.discardNext = true := by
  decide +kernel
/-- V-ADC-4 and V-ADC-5. -/
theorem test_adcConfigCh : byteFrames (issue 0x2201000100000000 bench) = [[0x10, 0x80, 0x01]] ∧
    (issue 0x2201000100000000 bench).adc.activeMask = 0b0001 ∧
    byteFrames (issue 0x2230020300000000 bench) = [[0x13, 0x00, 0x43]] := by decide +kernel
/-- V-ADC-8 and V-ADC-9. -/
theorem test_adcWriteReg : byteFrames (issue 0x230201000000800C bench) = [[0x01, 0x80, 0x0C]] ∧
    (issue 0x2301010000000100 bench).results = [.fail .invalidArgument] := by decide +kernel
/-- V-ADC-10. -/
theorem test_adcReadReg :
    let t := issue 0x2404040000000000 (withEnv { Env.empty with adc := [.shift 0x80000001] })
    byteFrames t = [[0x44]] ∧ t.results = [.ok (.word 0x80000001)] := by decide +kernel

/-- Channels 0 and 1 configured, acquisition started, the first sample discarded: steps 1 to 5 of PROG-2. -/
def primed : State :=
  edgeAndSample (.shift 0x12345600)
    (issue 0x2000000000000000 (issue 0x2211020300000000 (issue 0x2201000100000000 bench)))

/-- PROG-2, steps 6 to 10 (V-ADC-1). -/
theorem test_pipeline :
    let t := move .dispatch (edgeAndSample (.shift 0xC0000000) (edgeAndSample (.shift 0x40000001) primed))
    t.smu.ch.mv = 5 / 4 ∧ t.smu.ch.mi = -(1 / 800) ∧ t.smu.ch.dirty = 0x00C ∧ t.adc.validMask = 0 := by decide +kernel
/-- V-ADC-14 and V-ADC-15. -/
theorem test_pipeline_masks :
    (edgeAndSample (.shift 0x20000000) (edgeAndSample (.shift 0x10000000) primed)).adc.validMask = 0b0001 ∧
    (edgeAndSample (.shift 0x80000001) (edgeAndSample (.shift 0x80000000) (edgeAndSample (.shift 2) primed))).adc.validMask =
      0b0111 := by decide +kernel

/-! ### The amplifier -/

/-- V-SRC-7. -/
theorem test_ampInit : byteFrames (issue 0x3000000000000000 bench) = [[0x8F], [0x03, 0x01], [0x83]] ∧
    (issue 0x3000000000000000 bench).amp.idOk = true ∧
    (issue 0x3000000000000000 (withEnv { Env.empty with amp := [.shift 0x31] })).results = [.fail .identityMismatch] := by
  decide +kernel
/-- V-AMP-1 and V-AMP-5. -/
theorem test_ampSetGain :
    byteFrames (issue 0x31000B0200000000 bench) = [[0x00, 0x0B], [0x80], [0x02, 0x80], [0x82]] ∧
    (issue 0x31000B0200000000 bench).results = [.ok (.rational 176)] ∧
    (issue 0x3100040200000000 (withEnv { Env.empty with amp := [.shift 0, .shift 4, .shift 0, .shift 0] })).amp =
      State.reset.amp := by decide +kernel
/-- V-AMP-9 and V-AMP-10. -/
theorem test_ampSetSwitch : byteFrames (issue 0x3200010000000000 bench) = [[0x01, 0x0A], [0x81]] ∧
    (issue 0x3200030000000000 bench).results = [.fail .invalidArgument] := by decide +kernel
/-- V-AMP-11. -/
theorem test_ampSetTestmux :
    byteFrames (issue 0x3300010200000000 { bench with amp := { bench.amp with og := 2 } }) = [[0x02, 0x86], [0x82]] := by
  decide +kernel
/-- V-AMP-13. -/
theorem test_ampWriteReg : byteFrames (issue 0x34000500000000A5 bench) = [[0x05, 0xA5]] := by decide +kernel
/-- V-AMP-15. -/
theorem test_ampReadReg : (issue 0x35000F0000000000 bench).results = [.ok (.word 0x30)] := by decide +kernel

/-! ### The converter -/

/-- V-CNV-34, V-CNV-36. -/
theorem test_smuValueToCode : (issue 0x4402030000000000 bench).results = [.ok (.code 29127)] ∧
    (issue 0x440105003E000000 bench).results = [.ok (.code 52272)] := by decide +kernel
/-- V-CNV-4, V-CNV-5, V-CNV-25: exact halves round up. -/
theorem test_valueToCode_ties :
    (valueToCode .reference .fv 3 (7 / 21845) (-10) 10).1 = 32769 ∧
    (valueToCode .reference .fv 3 (-(7 / 21845)) (-10) 10).1 = 32767 ∧
    valueToCode .reference .cllv 3 5 (-10) 5 = (45875, 9 / 2) := by decide +kernel
/-- V-CNV-41, V-CNV-42. -/
theorem test_smuCodeToValue : (issue 0x4501030000C00000 bench).results = [.ok (.rational (1 / 800))] ∧
    (issue 0x4501050000000000 bench).results = [.ok (.rational (-(1 / 4)))] := by decide +kernel

/-! ### The sequencer -/

/-- V-SEQ-1 and V-SEQ-5. -/
theorem test_smuSetValue : pmuWords (issue 0x400000003F800000 bench) = [0x01488C30, 0x11480000] ∧
    (issue 0x400000003F800000 (pmuScript [.shift 0, .shift 0x088C31] 2)).smu = State.reset.smu := by decide +kernel
/-- V-SEQ-4: an inactive role is stored, separated, with no frame. -/
theorem test_smuSetValue_inactive :
    let t := issue 0x40050000C1A00000 bench
    t.smu.ch.clhv = -(19 / 2) ∧ t.results = [.ok (.code 0x13E9)] ∧ t.trace = [] := by decide +kernel
/-- V-SEQ-7. -/
theorem test_smuSetRange : pmuWords (issue 0x4104000000000000 bench) =
      [0x014A71C7, 0x114A0000, 0x014B8E38, 0x114B0000, 0x01000922, 0x11000000] ∧
    (issue 0x4104000000000000 bench).smu.ch.dirty = 0x100 := by decide +kernel
/-- PROG-3: the conservative code between the extended ranges. -/
theorem test_smuSetRange_extended :
    let s := issue 0x400100003E000000 (issue 0x4105000000000000 (issue 0x4201000000000000 bench))
    (pmuWords (issue 0x4104000000000000 s)).drop 14 =
      [0x0149CC30, 0x11490000, 0x01000926, 0x11000000, 0x0149FFFF, 0x11490000] := by decide +kernel
/-- V-SEQ-14. -/
theorem test_smuSetMode : pmuWords (issue 0x4201000000000000 bench) = [0x01498000, 0x11490000, 0x014C0E39, 0x114C0000,
    0x014DF1C6, 0x114D0000, 0x0100091E, 0x11000000] := by decide +kernel
/-- V-SEQ-17: the partial commit of a failed mode switch. -/
theorem test_smuSetMode_fails :
    let t := issue 0x4201000000000000 (pmuScript [.shift 0, .shift 0x098000, .shift 0, .shift 0x0C0E3A] 4)
    pmuWords t = [0x01498000, 0x11490000, 0x014C0E39, 0x114C0000] ∧ t.smu = State.reset.smu := by decide +kernel
/-- V-SEQ-18, V-SEQ-19. -/
theorem test_smuSetState : (issue 0x4302000000000000 bench).pmu.ch[(0 : Fin 4)] = 0x919 ∧
    (issue 0x4301000000000000 bench).pmu.ch[(0 : Fin 4)] = 0x91B := by decide +kernel
/-- V-SRC-5: three setters, one record. -/
theorem test_smuPublishTick :
    (issue 0x4600000000000000 (issue 0x4302000000000000 (issue 0x400300003A83126F (issue 0x400000003F800000 bench)))).pubOut =
      [⟨0, [.fv 1, .clhi (8589935 / 8589934592), .state .enabled]⟩] := by decide +kernel
/-- V-SEQ-22, V-SEQ-23. -/
theorem test_smuQueueFullUpdate :
    let t := move .forcedPublish (issue 0x4700000000000000 bench)
    t.pubOut.map (·.fields.length) = [13] ∧ t.smu.ch.dirty = 0 ∧ t.smu.forcePublish = false := by decide +kernel

/-! ### Agents, reset, assembler -/

/-- V-EXC-1, V-EXC-6. -/
theorem test_reserved_and_faultPin : (issue 0x4A00000000000000 bench).results = [.fail .invalidArgument] ∧
    (move .faultPin bench).amp = bench.amp := by decide +kernel
/-- V-EXC-4: a reset between the second and the third write of a mode switch (after its fourth primitive). -/
theorem test_reset_ends_command :
    let s := setSched [.sequencer, .sequencer, .sequencer, .reset] bench
    let t := issue 0x4201000000000000 s
    t.results = [] ∧ t.smu = State.reset.smu ∧ pmuWords t = [0x01498000, 0x11490000, 0x014C0E39, 0x114C0000] := by
  decide +kernel
/-- V-EXC-5: a sample delivered inside a range switch is scaled by the old range. -/
theorem test_sample_inside_command :
    let s := { bench with
      adc := { bench.adc with active := true, armed := true, activeMask := 0b0010 }
      env := { bench.env with
        adc := [.shift 0xC0000001]
        sched := [.sequencer, .sequencer, .sequencer, .edge, .sample, .dispatch] } }
    let t := issue 0x4104000000000000 s
    t.smu.ch.mi = 1 / 800 ∧ t.smu.ch.range = 4 := by decide +kernel
/-- The examples of 30_encoding.md R119, and the nearest binary32 of 0.001. -/
theorem test_assembler :
    assemble "SMU_SET_VALUE 0, FV, 1.0".toList = some 0x400000003F800000 ∧
    assemble "pmu_transact 0b0001, READ, 0, 0".toList = some 0x1111000000000000 ∧
    assemble "AMP_SET_GAIN IX0P5, OX1".toList = some 0x3100030000000000 ∧
    assemble "SMU_SET_VALUE 0, CLHI, 0.001".toList = some 0x400300003A83126F := by decide +kernel

/-- 20_memory.md R85, R86 on the device's history: a written DAC answers its sub-address and code; a DAC frame with no channel
names no register, so it answers an open value and leaves the DAC open. -/
theorem test_reference_pmu_registers :
    let dac : BusEvent := .xfer .pmu [0x01, 0x48, 0x12, 0x34] 0 (.ok [])
    let stray : BusEvent := .xfer .pmu [0x00, 0x48, 0x12, 0x34] 0 (.ok [])
    refPmuRead .reference [dac] 0x11480000 = some 0x081234 ∧ refPmuRead .reference [stray] 0x10480000 = none ∧
    refPmuRead .reference [dac, stray] 0x11480000 = none := by decide

/-! ### Witnesses: for every obligation with hypotheses, states and operands that meet them all, clause by clause -/

/-- A state with one command word waiting and the sequencer's turn scheduled. -/
def waiting (w : CmdWord) : State := issueWord w bench
/-- A script of amplifier answers. -/
def ampScript (answers : List Answer) : State := withEnv { Env.empty with amp := answers }
/-- A script of ADC answers. -/
def adcScript (answers : List Answer) : State := withEnv { Env.empty with adc := answers }
/-- The reset state in a mode and a range. -/
def inMode (m : ForceMode) (r : Range) : State :=
  { State.reset with smu := { State.reset.smu with ch := { State.reset.smu.ch with mode := m, range := r } } }
/-- What the device of 20_memory.md R85 answers a plan's step with: nothing to the write, then the register value, or the DAC's
sub-address above its code. -/
def echoOf (p : Params) : HwStep → Word32 × Word32
  | .dac role code => (0, (dacPayload (dacAddr p role) code).setWidth 32)
  | .reg v => (0, v.setWidth 32)
/-- The same with the answers of a PMU that echoes a plan. -/
def echoing (plan : List HwStep) (s : State) : State :=
  { s with env := { Env.empty with
    pmu := verifyScript (plan.map (echoOf s.par)) ++ []
    busy := List.replicate (2 * plan.length) true ++ [] } }

theorem witness_DecodedWordKeepsItsUsedBits :
    decode 0x10FFFFFFFFFFFFFF = .ok .pmuInit ∧ decode 0x13FFFFFFFFFFFFFF = .ok (.pmuWriteChctrl 15 0xFFFFFFFF) := by decide

theorem witness_ReservedOpcodesReturnInvalidArgument :
    (∀ o ∈ [0x00, 0x0F, 0x18, 0x1F, 0x25, 0x2F, 0x36, 0x3F, 0x48, 0xFF],
      decode (BitVec.ofNat 64 (o * 2 ^ 56)) = .error (.reservedOpcode (BitVec.ofNat 8 o))) ∧
    (∀ o ∈ [0x10, 0x17, 0x20, 0x24, 0x30, 0x35, 0x40, 0x47], (decode (BitVec.ofNat 64 (o * 2 ^ 56))).isOk = true) ∧
    (waiting 0).env.sched = .sequencer :: [] ∧ (waiting 0).port = 0 :: [] ∧ decode 0 = .error (.reservedOpcode 0) := by
  decide +kernel

theorem witness_AdcAndAmplifierFrameLayouts :
    (SwitchSel.short = .short ↔ SwitchSel.short = .short) ∧ (SwitchSel.in1 = .short ↔ SwitchSel.test = .short) := by decide

theorem witness_StepRunsDecodedCommand :
    let w : CmdWord := 0x4600000000000000
    let s := bench.setPort [w]
    (waiting w).port = w :: [] ∧ decode w = .ok .smuPublishTick ∧ (waiting w).env.sched = .sequencer :: [] ∧
    s.port = w :: [] ∧ Quiet s ∧ s.adc.wakePending = false ∧ s.adc.dispatchPending = false ∧
    s.smu.forcePublish = false := ⟨rfl, by decide, rfl, rfl, rfl, rfl, rfl, rfl⟩

theorem witness_InvalidArgumentExactlyOnIllegalOperands :
    (Instr.pmuSetRange 0 5).wellFormed = false ∧ (Instr.pmuSetRange 0 4).wellFormed = true ∧
    ∃ t, exec (.pmuSetRange 0 4) bench = .next t := ⟨by decide, by decide, _, rfl⟩

theorem witness_EveryCommandReturnsOneResult :
    (∃ t, exec .adcStart bench = .next t) ∧ (∃ t, exec (.smuSetRange 0 6) bench = .next t) ∧
    ∃ t, exec .pmuInit (setSched [.reset] bench) = .next t := ⟨⟨_, rfl⟩, ⟨_, rfl⟩, ⟨_, rfl⟩⟩

theorem witness_StepKeepsBusIdleBetweenSteps :
    BetweenSteps (waiting 0x31000B0200000000) ∧ ∃ t, step (waiting 0x31000B0200000000) = .next t :=
  ⟨⟨rfl, rfl, rfl, rfl⟩, _, rfl⟩

theorem witness_StepKeepsAmpGainConsistent :
    let s := { waiting 0x31000B0200000000 with amp := { State.reset.amp with ig := 11, og := 2, gain := 176 } }
    s.par.ig[4] * s.par.og[0] = 1 ∧ s.amp.gain = s.par.ig[s.amp.ig] * s.par.og[s.amp.og] ∧ ∃ t, step s = .next t :=
  ⟨by decide +kernel, by
    show (176 : Rat) = _
    decide +kernel, _, rfl⟩

/-- The clamps exactly 500 mV apart. -/
theorem witness_StepKeepsVoltageClampsSeparated :
    let s := { waiting 0x4004000041200000 with
      smu := { State.reset.smu with ch := { State.reset.smu.ch with cllv := 43 / 4, clhv := 45 / 4 } } }
    s.par = Params.reference ∧ VoltageClampsSeparated s ∧ ∃ t, step s = .next t := ⟨rfl, by
      show -(45 / 4) ≤ (43 / 4 : Rat) ∧ (43 / 4 : Rat) ≤ 43 / 4 ∧ -(43 / 4) ≤ (45 / 4 : Rat) ∧ (45 / 4 : Rat) ≤ 45 / 4 ∧
        1 / 2 ≤ (45 / 4 : Rat) - 43 / 4
      decide +kernel, _, rfl⟩

theorem witness_StepKeepsStuckFields :
    StuckFields (waiting 0x4700000000000000) ∧ ∃ t, step (waiting 0x4700000000000000) = .next t :=
  ⟨⟨rfl, rfl, rfl⟩, _, rfl⟩

/-- A woken sample task with a frame, with a failed transfer, and one not woken. -/
theorem witness_SampleTaskHandlesItsFrame :
    let s := { adcScript [.shift 0xFFFFFF03] with adc := { State.reset.adc with wakePending := true } }
    let f := { adcScript [.fails] with adc := { State.reset.adc with wakePending := true } }
    s.adc.wakePending = true ∧ s.env.adc = .shift 0xFFFFFF03 :: [] ∧
    f.adc.wakePending = true ∧ f.env.adc = .fails :: [] ∧ State.reset.adc.wakePending = false :=
  ⟨rfl, rfl, rfl, rfl, rfl⟩

theorem witness_DispatchTaskDeliversSnapshot :
    { State.reset with adc := { State.reset.adc with dispatchPending := true } }.adc.dispatchPending = true := rfl

/-- A primed pipeline with its script: a discarded frame, then the channels in an order. -/
def pipelineStart (a b : Word32) : State :=
  { State.reset with
    adc := { State.reset.adc with active := true, armed := true, discardNext := true, activeMask := 0b0011 }
    env := { Env.empty with
      adc := [.shift 0x12345600, .shift a, .shift b]
      sched := [.edge, .sample, .edge, .sample, .edge, .sample, .dispatch] } }

/-- The kept samples in either order. -/
theorem witness_PipelineDeliversOneGroup (a b : Word32)
    (h : (a, b) = (0x40000001, 0xC0000000) ∨ (a, b) = (0xC0000000, 0x40000001)) :
    let s := pipelineStart a b
    s.par = Params.reference ∧ s.adc.armed = true ∧ s.adc.active = true ∧ s.adc.discardNext = true ∧
    s.adc.dispatchPending = false ∧ s.adc.activeMask = 0b0011 ∧ s.adc.validMask = 0 ∧
    s.env.adc = .shift 0x12345600 :: .shift a :: .shift b :: [] ∧
    s.env.sched = [.edge, .sample, .edge, .sample, .edge, .sample, .dispatch] ∧
    (a.toNat % 4 = 0 ∧ b.toNat % 4 = 1 ∨ a.toNat % 4 = 1 ∧ b.toNat % 4 = 0) := by
  refine ⟨rfl, rfl, rfl, rfl, rfl, rfl, rfl, rfl, rfl, ?_⟩
  rcases h with h | h <;> cases h <;> decide

theorem witness_AgentsKeepTheCommandsState : Move.sample ≠ .reset ∧ Move.dispatch ≠ .reset := by decide

/-- A command with a bus primitive, and one with none. -/
theorem witness_ResetEndsTheCommandWithNoResult :
    let s := setSched [.reset, .edge] bench
    s.env.sched = .reset :: [.edge] ∧ (∃ t, exec .pmuInit s = .next t) ∧ ∃ t, exec .adcStart s = .next t :=
  ⟨rfl, ⟨_, rfl⟩, ⟨_, rfl⟩⟩

/-- READY at the first sample, at the last one allowed, and never. -/
theorem witness_BusyPollIsBounded :
    let s (l : List Bool) := withEnv { Env.empty with busy := l }
    (0 < (s [true]).par.busyPollLimit ∧ (s [true]).env.busy = List.replicate 0 false ++ true :: []) ∧
    (4 < (s [false, false, false, false, true]).par.busyPollLimit ∧
      (s [false, false, false, false, true]).env.busy = List.replicate 4 false ++ true :: []) ∧
    (s (List.replicate 5 false)).env.busy = List.replicate (s []).par.busyPollLimit false ++ [] := by decide

theorem witness_PmuTransactReturnsReadback :
    let s := pmuScript [.shift 0xFFFFFFFF] 1
    Quiet s ∧ 0 < s.par.busyPollLimit ∧ dir? (0 : BitVec 4) = some .write ∧ dir? (1 : BitVec 4) = some .read ∧
    bits? 2 (3 : BitVec 8) = some 3 ∧ bits? 22 (0x3FFFFF : BitVec 32) = some 0x3FFFFF ∧
    s.env.pmu = .shift 0xFFFFFFFF :: [] ∧ s.env.busy = true :: [] := by
  refine ⟨rfl, ?_⟩
  decide

theorem witness_PmuTransactReportsBusErrorAndBusy :
    let f := pmuScript [.fails] 0
    let s := withEnv { Env.empty with pmu := [.shift 0], busy := List.replicate 5 false }
    Quiet f ∧ Quiet s ∧ (Instr.pmuTransact 0 1 0 0).wellFormed = true ∧ f.env.pmu = .fails :: [] ∧
    s.env.pmu = .shift 0 :: [] ∧ s.env.busy = List.replicate s.par.busyPollLimit false ++ [] := by
  refine ⟨rfl, rfl, ?_⟩
  decide

/-- Every readback, the one that matches and those that do not. -/
theorem witness_PmuWriteSysctrlVerifies (rb : Word32) :
    let s := pmuScript [.shift 0, .shift rb] 2
    Quiet s ∧ 0 < s.par.busyPollLimit ∧ bits? 22 (0x40 : BitVec 32) = some 0x40 ∧
    s.env.pmu = .shift 0 :: .shift rb :: [] ∧ s.env.busy = true :: true :: [] :=
  ⟨rfl, Nat.succ_pos 4, by decide, rfl, rfl⟩

/-- Each of the four commands. -/
theorem witness_PmuChannelCommandsVerify (rb : Word32) :
    let s := pmuScript [.shift 0, .shift rb] 2
    Quiet s ∧ 0 < s.par.busyPollLimit ∧ channelTarget State.reset (.pmuSetChstate 0 2) = some (0, 0x919) ∧
    channelTarget State.reset (.pmuWriteChctrl 3 0x3FFFFF) = some (3, 0x3FFFFF) ∧
    channelTarget State.reset (.pmuSetMode 3 1) = some (3, 0x91E) ∧
    channelTarget State.reset (.pmuSetRange 0 4) = some (0, 0x922) ∧
    (∀ i, channelTarget s i = channelTarget State.reset i) ∧
    s.env.pmu = .shift 0 :: .shift rb :: [] ∧ s.env.busy = true :: true :: [] :=
  ⟨rfl, Nat.succ_pos 4, by decide, by decide, by decide, by decide, fun _ => rfl, rfl, rfl⟩

theorem witness_PmuSetDacVerifies (rb : Word32) :
    let s := pmuScript [.shift 0, .shift rb] 2
    Quiet s ∧ 0 < s.par.busyPollLimit ∧ channel? (3 : BitVec 4) = some 3 ∧ bits? 6 (0x3F : BitVec 8) = some 0x3F ∧
    bits? 16 (0xFFFF : BitVec 32) = some 0xFFFF ∧ s.env.pmu = .shift 0 :: .shift rb :: [] ∧
    s.env.busy = true :: true :: [] :=
  ⟨rfl, Nat.succ_pos 4, by decide, by decide, by decide, rfl, rfl⟩

theorem witness_PmuInitConfiguresEveryRegister :
    let z := Answer.shift 0
    let d := Answer.shift 0x91A
    let s := pmuScript [z, .shift 0x40, z, d, z, d, z, d, z, d] 11
    Quiet s ∧ 0 < s.par.busyPollLimit ∧ s.env.pmu = [z, .shift 0x40, z, d, z, d, z, d, z, d] ++ [] ∧
    s.env.busy = List.replicate 11 true ++ [] ∧
    (0x40 : Word32).extractLsb' 0 22 &&& s.par.sysEchoMask = s.par.sysctrlDefault &&& s.par.sysEchoMask ∧
    ∀ r ∈ [(0x91A : Word32), 0x91A, 0x91A, 0x91A],
      r.extractLsb' 0 22 &&& s.par.chEchoMask = s.par.chctrlDefault &&& s.par.chEchoMask := by
  refine ⟨rfl, Nat.succ_pos 4, rfl, rfl, rfl, ?_⟩
  intro r hr
  simp only [List.mem_cons, List.not_mem_nil, or_false, or_self] at hr
  subst hr
  rfl

/-- The two kinds of failure: the settle wait (V-PMU-2) and channel 2's readback (V-PMU-3). -/
theorem witness_PmuInitFailureLeavesPrefix :
    let b := withEnv { Env.empty with busy := List.replicate 5 false }
    let z := Answer.shift 0
    let d := Answer.shift 0x91A
    let v := pmuScript [z, .shift 0x40, z, d, z, d, z, z] 9
    let u := pmuScript [z, z] 3
    (∃ t, exec .pmuInit b = .next t ∧ t.results = b.results ++ [.fail .busy]) ∧
    (∃ t, exec .pmuInit u = .next t ∧ t.results = u.results ++ [.fail .verifyFailed]) ∧
    ∃ t, exec .pmuInit v = .next t ∧ t.results = v.results ++ [.fail .verifyFailed] := by
  refine ⟨⟨_, rfl, ?_⟩, ⟨_, rfl, ?_⟩, ⟨_, rfl, ?_⟩⟩ <;> decide +kernel

theorem witness_PmuShadowCommitsExactlyOnSuccess :
    channelTarget bench (.pmuSetRange 0 4) = some (0, 0x922) ∧ (∃ t, exec (.pmuSetRange 0 4) bench = .next t) ∧
    bits? 22 (0x3FFFFF : BitVec 32) = some 0x3FFFFF ∧ ∃ t, exec (.pmuWriteSysctrl 0x3FFFFF) bench = .next t :=
  ⟨by decide, ⟨_, rfl⟩, by decide, ⟨_, rfl⟩⟩

theorem witness_RawCommandsBypassTheBookkeeping :
    let s := setSched [.edge, .sequencer] bench
    isRaw (.ampWriteReg 0 4) = true ∧ NoReset s ∧ ∃ t, exec (.ampWriteReg 0 4) s = .next t :=
  ⟨rfl, by
    show Move.reset ∉ [Move.edge, .sequencer]
    decide, _, rfl⟩

/-- A transfer that succeeds and one that fails; a channel enabled and one disabled. -/
theorem witness_AdcConfigChWritesPairAndMask : ∀ a ∈ [Answer.shift 0, .fails],
    let s := adcScript [a]
    s.env.sched = [] ∧ channel? (3 : BitVec 4) = some 3 ∧ flag? (0 : BitVec 4) = some false ∧
    flag? (1 : BitVec 4) = some true ∧ bits? 5 (31 : BitVec 8) = some 31 ∧ bits? 5 (0 : BitVec 8) = some 0 ∧
    s.env.adc = a :: [] := by decide

/-- Byte counts 1 and 4 with their greatest values. -/
theorem witness_RawRegisterAccesses :
    Quiet (adcScript [.shift 0x80000001]) ∧ byteCount? (1 : BitVec 4) = some 1 ∧ byteCount? (4 : BitVec 4) = some 4 ∧
    bits? 6 (0x3F : BitVec 8) = some 0x3F ∧ (adcScript [.shift 0x80000001]).env.adc = .shift 0x80000001 :: [] ∧
    (0xFF : BitVec 32).toNat < 2 ^ (8 * 1) ∧ (0xFFFFFFFF : BitVec 32).toNat < 2 ^ (8 * 4) ∧
    Quiet (ampScript [.fails]) ∧ bits? 7 (0x7F : BitVec 8) = some 0x7F ∧ (ampScript [.fails]).env.amp = .fails :: [] ∧
    bits? 8 (0xFF : BitVec 32) = some 0xFF :=
  ⟨rfl, by decide, by decide, by decide, rfl, by decide, by decide, rfl, by decide, rfl, by decide⟩

theorem witness_AmpInitChecksTheIdentity :
    Quiet (ampScript [.shift 0x30, .shift 0, .shift 1]) ∧
    (ampScript [.shift 0x30, .shift 0, .shift 1]).env.amp = .shift 0x30 :: .shift 0 :: .shift 1 :: [] ∧
    (0x30 : Word32).extractLsb' 0 8 = 0x30 ∧
    (1 : Word32).extractLsb' 0 8 &&& State.reset.par.ampEchoMask =
      State.reset.par.ampFaultcfgValue &&& State.reset.par.ampEchoMask ∧
    (0 : Word32).extractLsb' 0 8 &&& State.reset.par.ampEchoMask ≠
      State.reset.par.ampFaultcfgValue &&& State.reset.par.ampEchoMask ∧
    Quiet (ampScript [.shift 0x31]) ∧ (ampScript [.shift 0x31]).env.amp = .shift 0x31 :: [] ∧
    (0x31 : Word32).extractLsb' 0 8 ≠ 0x30 ∧ Quiet (ampScript [.fails]) ∧ (ampScript [.fails]).env.amp = .fails :: [] ∧
    Quiet (ampScript [.shift 0x30, .fails]) ∧ (ampScript [.shift 0x30, .fails]).env.amp = .shift 0x30 :: .fails :: [] ∧
    Quiet (ampScript [.shift 0x30, .shift 0, .fails]) ∧
    (ampScript [.shift 0x30, .shift 0, .fails]).env.amp = .shift 0x30 :: .shift 0 :: .fails :: [] :=
  ⟨rfl, rfl, by decide, by decide, by decide, rfl, rfl, by decide, rfl, rfl, rfl, rfl, rfl, rfl⟩

/-- The three commands, the gain at its greatest selects. -/
theorem witness_AmpConfigurationCommandsComplete :
    ∀ c ∈ [(Instr.ampSetGain 11 2, [((0 : Word32), (0x0B : Word32)), (0, 0x80)]), (.ampSetSwitch 3 3, [(0, 0x40)]),
      (.ampSetTestmux 3 3, [(0, 0x0F)])],
    let s := ampScript (verifyScript c.2)
    s.env.sched = [] ∧ (ampTarget s c.1).isSome = true ∧
    List.Forall₂ (fun w x => x.2.extractLsb' 0 8 &&& s.par.ampEchoMask = w.2 &&& s.par.ampEchoMask) (ampWrites s c.1) c.2 ∧
    s.env.amp = verifyScript c.2 ++ [] := by decide +kernel


theorem witness_AmpConfigurationIsAllOrNothing :
    ampTarget bench (.ampSetTestmux 0 3) = some ({ bench.amp with tmP := 0, tmN := 3 }, .nothing) ∧
    ∃ t, exec (.ampSetTestmux 0 3) bench = .next t := ⟨by decide, _, rfl⟩

theorem witness_QueriesReturnTheConversion :
    role? (5 : BitVec 4) = some .clhv ∧ index? 6 (5 : BitVec 8) = some 5 ∧ binary32? 0x3F800000 = some 1 ∧
    bits? 24 (0xFFFFFF : BitVec 32) = some 0xFFFFFF := by decide +kernel

/-- And the rounding at its ends: `y` is 0, 1/2 and 65534.5. -/
theorem witness_ValueToCodeIsMonotone :
    let y := fun x : Rat =>
      calScale .reference .fv 3 * (valueToCode .reference .fv 3 x (-10) 10).2 + calOffset .reference .fv 3
    (0 < calScale .reference .fv 3 ∧ (-1 : Rat) ≤ 1) ∧ y (-(21 / 2)) < 1 / 2 ∧
    (1 / 2 ≤ y (-(32767 * 21 / 65535)) ∧ y (-(32767 * 21 / 65535)) < 131069 / 2) ∧
    131069 / 2 ≤ y (32767 * 21 / 65535) := by decide +kernel

/-- Both ends of a window. -/
theorem witness_DacRoundTripWithinHalfAStep : ∀ v ∈ [(-(21 / 2) : Rat), 21 / 2],
    separate .reference .fv 3 v (-10) 10 = v ∧ (extendedWindow .reference .fv 3).1 ≤ v ∧
    v ≤ (extendedWindow .reference .fv 3).2 := by decide +kernel

/-- Legal values at the bounds: a force role, a current clamp at its zone, voltage clamps 0.5 V apart. -/
theorem witness_LegalValue :
    LegalValue .reference .fv 3 (-10) 10 (21 / 2) ∧ LegalValue .reference .clli 3 (-10) 10 (-(1 / 4000)) ∧
    LegalValue .reference .clhi 3 (-10) 10 (1 / 4000) ∧ LegalValue .reference .cllv 3 (-10) 10 (19 / 2) ∧
    LegalValue .reference .clhv 3 (-10) 10 (-(19 / 2)) ∧ LegalValue .reference .clhv 3 (43 / 4) 10 (45 / 4) := by
  simp only [LegalValue]
  decide +kernel

/-- The voltage clamps at the bounds. -/
theorem witness_EffectiveValueIsLegal :
    (-(45 / 4) : Rat) ≤ -(45 / 4) ∧ (-(45 / 4) : Rat) ≤ 43 / 4 ∧ (-(43 / 4) : Rat) ≤ 45 / 4 ∧ (45 / 4 : Rat) ≤ 45 / 4 := by
  decide +kernel

theorem witness_AdcConversionIsLinear : 0 ≤ Params.reference.adcVref := by decide +kernel

/-- The exponent field's two special values, and the first and last of the others. -/
theorem witness_Binary32DenotesItsRational :
    (0xFF : BitVec 8) = 0xFF ∧ (0 : BitVec 8) = 0 ∧ ((1 : BitVec 8) ≠ 0xFF ∧ (1 : BitVec 8) ≠ 0) ∧
    (0xFE : BitVec 8) ≠ 0xFF ∧ (0xFE : BitVec 8) ≠ 0 := by decide

theorem witness_SetValueStoresInactiveRole :
    role? (1 : BitVec 4) = some .fi ∧ binary32? 0x3F800000 = some 1 ∧ Role.fi ≠ (activeRoles State.reset.smu.ch.mode).1 ∧
    Role.fi ≠ (activeRoles State.reset.smu.ch.mode).2.1 ∧ Role.fi ≠ (activeRoles State.reset.smu.ch.mode).2.2 := by
  decide +kernel

theorem witness_SetValueProgramsActiveRole (rb : Word32) :
    let s := pmuScript [.shift 0, .shift rb] 2
    Quiet s ∧ 0 < s.par.busyPollLimit ∧ role? (0 : BitVec 4) = some .fv ∧ binary32? 0x3F800000 = some 1 ∧
    Role.fv ∈ [(activeRoles s.smu.ch.mode).1, (activeRoles s.smu.ch.mode).2.1, (activeRoles s.smu.ch.mode).2.2] ∧
    s.env.pmu = .shift 0 :: .shift rb :: [] ∧ s.env.busy = true :: true :: [] :=
  ⟨rfl, Nat.succ_pos 4, by decide, by decide +kernel, List.mem_cons_self, rfl, rfl⟩

/-- Every row of the plan, FV larger and smaller, FI both extended, larger, smaller, with R85's readbacks. -/
theorem witness_SetRangeRunsItsPlan :
    ∀ c ∈ [(ForceMode.fv, (3 : Range), (4 : BitVec 4), (4 : Range)), (.fv, 3, 0, 0), (.fi, 5, 4, 4), (.fi, 3, 5, 5),
      (.fi, 5, 3, 3)],
    let s := echoing (rangePlan (inMode c.1 c.2.1) c.2.2.2) (inMode c.1 c.2.1)
    let ans := (rangePlan s c.2.2.2).map (echoOf s.par)
    s.env.sched = [] ∧ 0 < s.par.busyPollLimit ∧ index? 6 c.2.2.1 = some c.2.2.2 ∧ c.2.2.2 ≠ s.smu.ch.range ∧
    List.Forall₂ (fun step x => step.verified s.par x.2 = true) (rangePlan s c.2.2.2) ans ∧
    s.env.pmu = verifyScript ans ++ [] ∧
    s.env.busy = List.replicate (2 * (rangePlan s c.2.2.2).length) true ++ [] := by decide +kernel

/-- V-SEQ-7's first readback: the sub-address stands above the code. -/
theorem test_echo_carries_the_subaddress : (echoOf .reference (.dac .clli 0x71C7)).2 = 0x0A71C7 := by decide

/-- Both directions, with R85's readbacks. -/
theorem witness_SetModeRunsItsPlan :
    ∀ c ∈ [(ForceMode.fv, (1 : BitVec 4), ForceMode.fi), (.fi, 0, .fv)],
    let s := echoing (modePlan (inMode c.1 3) c.2.2) (inMode c.1 3)
    let ans := (modePlan s c.2.2).map (echoOf s.par)
    s.env.sched = [] ∧ 0 < s.par.busyPollLimit ∧ forceMode? c.2.1 = some c.2.2 ∧ c.2.2 ≠ s.smu.ch.mode ∧
    List.Forall₂ (fun step x => step.verified s.par x.2 = true) (modePlan s c.2.2) ans ∧
    s.env.pmu = verifyScript ans ++ [] ∧
    s.env.busy = List.replicate (2 * (modePlan s c.2.2).length) true ++ [] := by decide +kernel

theorem witness_SwitchFramesFollowThePlan :
    index? 6 (5 : BitVec 4) = some 5 ∧ (∃ t, exec (.smuSetRange 0 5) bench = .next t) ∧
    forceMode? (1 : BitVec 4) = some .fi ∧ ∃ t, exec (.smuSetMode 0 1) bench = .next t :=
  ⟨by decide, ⟨_, rfl⟩, by decide, ⟨_, rfl⟩⟩

theorem witness_SetStateWritesEnableBits (rb : Word32) :
    let s := pmuScript [.shift 0, .shift rb] 2
    Quiet s ∧ 0 < s.par.busyPollLimit ∧ enableState? (2 : BitVec 4) = some .enabled ∧
    EnableState.enabled ≠ s.smu.ch.state ∧ s.env.pmu = .shift 0 :: .shift rb :: [] ∧
    s.env.busy = true :: true :: [] :=
  ⟨rfl, Nat.succ_pos 4, by decide, EnableState.noConfusion, rfl, rfl⟩

theorem witness_SettingTheHeldValueIsANoOp :
    index? 6 (3 : BitVec 4) = some State.reset.smu.ch.range ∧ forceMode? (0 : BitVec 4) = some State.reset.smu.ch.mode ∧
    enableState? (0 : BitVec 4) = some State.reset.smu.ch.state := by decide

theorem witness_SetterCommitsExactlyOnSuccess :
    smuTarget bench (.smuSetState 0 2) = some ({ bench.smu.ch with state := .enabled, dirty := 0x200 }, .nothing) ∧
    ∃ t, exec (.smuSetState 0 2) bench = .next t := ⟨by decide +kernel, _, rfl⟩

/-- A command that leaves a SENSE bit set before it. -/
theorem witness_OnlyFullUpdateMarksSense :
    let s := { State.reset with smu := { State.reset.smu with ch := { State.reset.smu.ch with dirty := 0x800 } } }
    ∃ t, exec .adcStart s = .next t ∧ Instr.adcStart ≠ .smuQueueFullUpdate ∧ t.smu.ch.dirty.getLsbD 11 = true :=
  ⟨_, rfl, by decide, by decide⟩

/-- A forced publish requested between two commands, one inside a command, one not requested. -/
theorem witness_PublishDrainsTheDirtyFields :
    let s := State.reset.setSmu { State.reset.smu with forcePublish := true }
    let u := s.setCmd ⟨some .pmuInit, 1⟩
    (s.cmd.op = none ∧ s.smu.forcePublish = true) ∧ (u.cmd.op ≠ none ∨ u.smu.forcePublish = false) ∧
    (State.reset.cmd.op ≠ none ∨ State.reset.smu.forcePublish = false) := by decide

end Sys2Proof.Tests
end

section
/-! Proofs, family 10_state.md (1): what one step of the machine can do, said once. A command works (`Worked`), then makes at
most one last write (`CommandWrite`) and returns, or a scheduled reset cuts it; between two commands an agent steps or a word is
rejected. `Maintained.step` turns this into an induction principle for invariants of the block state. -/

namespace Sys2Proof.Machine

/-! ### The last write of a command -/

/-- What a command writes beside the PMU shadows just before it returns, one constructor per rule that writes something. -/
inductive CommandWrite : State → State → Prop
  /-- Every failure but AMP_INIT's, the raw commands, the queries, the no-ops, and the PMU commands. -/
  | nothing (s : State) : CommandWrite s s
  /-- ADC_START, 41_adc.md R200. -/
  | adcStart (s : State) :
    CommandWrite s (s.setAdc { s.adc with validMask := 0, discardNext := true, active := true, armed := true })
  /-- ADC_STOP, 41_adc.md R201. -/
  | adcStop (s : State) : CommandWrite s (driveCs .adc true (s.setAdc { s.adc with armed := false, active := false }))
  /-- ADC_CONFIG_CH, 41_adc.md R202. -/
  | adcMask (s : State) (n : Fin 4) (en : Bool) :
    CommandWrite s (s.setAdc { s.adc with activeMask := assignMaskBit s.adc.activeMask n en })
  /-- AMP_INIT on the expected identity, 42_amp.md R253. -/
  | ampIdentified (s : State) : CommandWrite s (s.setAmp { s.amp with faultIrqEn := true, idOk := true })
  /-- AMP_INIT on another identity, 42_amp.md R253. -/
  | ampUnidentified (s : State) : CommandWrite s (s.setAmp { s.amp with idOk := false })
  /-- AMP_SET_GAIN, 42_amp.md R254. -/
  | ampGain (s : State) (i : Fin 12) (o : Fin 3) :
    CommandWrite s (s.setAmp { s.amp with ig := i, og := o, gain := ampGain s.par i o })
  /-- AMP_SET_SWITCH, 42_amp.md R255. -/
  | ampSwitch (s : State) (p n : SwitchSel) : CommandWrite s (s.setAmp { s.amp with swP := p, swN := n })
  /-- AMP_SET_TESTMUX, 42_amp.md R256. -/
  | ampTestmux (s : State) (p n : BitVec 2) : CommandWrite s (s.setAmp { s.amp with tmP := p, tmN := n })
  /-- SMU_SET_VALUE, 44_sequencer.md R352: the effective value `xe` of a requested value `x`. -/
  | smuValue (s : State) (role : Role) (x xe : Rat)
    (hxe : xe = (valueToCode s.par role s.smu.ch.range x s.smu.ch.cllv s.smu.ch.clhv).2) :
    CommandWrite s (setCh ((s.smu.ch.setValue role xe).mark (dbit role)) s)
  /-- SMU_SET_RANGE, 44_sequencer.md R353. -/
  | smuRange (s : State) (r : Range) : CommandWrite s (setCh (SmuChannel.mark { s.smu.ch with range := r } dbitRange) s)
  /-- SMU_SET_MODE, 44_sequencer.md R354. -/
  | smuMode (s : State) (m : ForceMode) : CommandWrite s (setCh (SmuChannel.mark { s.smu.ch with mode := m } dbitMode) s)
  /-- SMU_SET_STATE, 44_sequencer.md R355. -/
  | smuState (s : State) (st : EnableState) :
    CommandWrite s (setCh (SmuChannel.mark { s.smu.ch with state := st } dbitState) s)
  /-- SMU_PUBLISH_TICK, 44_sequencer.md R372. -/
  | publish (s : State) : CommandWrite s (drain s)
  /-- SMU_QUEUE_FULL_UPDATE, 44_sequencer.md R373. -/
  | fullUpdate (s : State) :
    CommandWrite s (s.setSmu { ch := { s.smu.ch with dirty := dirtyAll }, forcePublish := true })

/-- A command in progress in `s` is over in `t`: a scheduled reset cut it, or it worked, wrote and returned a result. -/
inductive Finished (s t : State) : Prop
  | cut {l : List (List Byte)} (hc : Cut s t l)
  | returned {l : List (List Byte)} {u v : State} {r : Result} (hw : Worked s u l) (hv : CommandWrite u v)
    (ht : t = endCommand r v)

theorem Finished.after {s t u : State} {l : List (List Byte)} (hw : Worked s t l) (h : Finished t u) : Finished s u := by
  cases h with
  | cut hc => exact .cut (hc.after hw)
  | returned hw' hv hu => exact .returned (hw.trans hw') hv hu

/-- However a command ends, none is in progress afterwards. -/
theorem Finished.cmd {s t : State} (h : Finished s t) : t.cmd = .idle := by
  cases h with
  | cut hc => exact hc.block.1
  | returned hw hv ht => rw [ht]; rfl

/-! ### Parts of commands -/

/-- What a part of a command in progress does from `s`: it runs on, if `goes` allows that, having only worked; or the
command is over. A whole body has `goes := False`. -/
def Runs (s : State) (f : Flow α) (goes : Prop) : Prop :=
  s.cmd.op ≠ none →
  match f with
  | .go _ t => goes ∧ ∃ l, Worked s t l
  | .ended t => Finished s t

theorem Runs.after {s t : State} {l : List (List Byte)} {f : Flow α} {goes : Prop} (hw : Worked s t l)
    (h : Runs t f goes) : Runs s f goes := by
  intro hs
  have h := h (hw.op ▸ hs)
  cases f with
  | go a u =>
    obtain ⟨hgo, m, hw'⟩ := h
    exact ⟨hgo, _, hw.trans hw'⟩
  | ended u => exact Finished.after hw h

/-- Two parts of a command in a row. -/
theorem Runs.bind {s : State} {f : Flow α} {g : α → State → Flow β} {p q : Prop} (hf : Runs s f p)
    (hg : ∀ a t l, Worked s t l → Runs t (g a t) q) : Runs s (f.bind g) q := by
  intro hs
  cases f with
  | go a t =>
    obtain ⟨-, l, hw⟩ := hf hs
    exact (hg a t l hw).after hw hs
  | ended t => exact hf hs

theorem Runs.go (a : α) (s : State) : Runs s (.go a s) True := fun _ => ⟨trivial, [], .refl s⟩

theorem Runs.ret {s u : State} {goes : Prop} (v : Value) (h : CommandWrite s u) :
    Runs s (ret v u : Flow α) goes := fun _ => .returned (.refl s) h rfl

theorem Runs.raise {s u : State} {goes : Prop} (c : FailCode) (h : CommandWrite s u) :
    Runs s (raise c u : Flow α) goes := fun _ => .returned (.refl s) h rfl

/-- A failure that writes nothing. -/
theorem Runs.fail {goes : Prop} (c : FailCode) (s : State) : Runs s (Machine.raise c s : Flow α) goes :=
  .raise c (.nothing s)

theorem Runs.need {c : FailCode} {holds : Bool} {s : State} : Runs s (need c holds s) True := by
  unfold Machine.need
  split
  · exact .go () s
  · exact .fail c s

/-- The write-and-verify procedures (Laws/Commands.lean) fail without a last write. -/
theorem Runs.of_does {f : Flow Unit} {s : State} {l : List (List Byte)} {p : PmuState}
    {q : List (List Byte) → PmuState → Prop} (h : s.cmd.op ≠ none → Does f s l p q) : Runs s f True := by
  intro hs
  rcases h hs with ⟨t, rfl, hw, -⟩ | ⟨t, m, rfl, hw, -⟩ | ⟨t, m, rfl, hc, -⟩
  · exact ⟨trivial, l, hw⟩
  · exact .returned hw (.nothing t) rfl
  · exact .cut hc

/-! ### Bus primitives -/

/-- The agents that step at a scheduling point leave a state the command could have worked into. -/
theorem Worked.interfered {s u t : State} {l : List (List Byte)} {k : Nat} (hw : Worked s u l)
    (hi : Interfered (u.setCmd { u.cmd with k := k }) t) (hs : t.env.sched <:+ u.env.sched) : Worked s t l where
  par := hi.par.trans hw.par
  op := (congrArg Sequencer.op hi.cmd).trans hw.op
  amp := hi.amp.trans hw.amp
  port := hi.port.trans hw.port
  results := hi.results.trans hw.results
  pubOut := hi.pubOut.trans hw.pubOut
  forcePublish := hi.forcePublish.trans hw.forcePublish
  settings := hw.settings.trans hi.settings
  dirty := hi.dirty.trans hw.dirty
  active := hi.active.trans hw.active
  activeMask := hi.activeMask.trans hw.activeMask
  frames := hi.frames.trans hw.frames
  owner := fun h => hi.owner (hw.owner h)
  csADC := fun h => hi.csADC (hw.csADC h)
  csAMP := fun h => hi.csAMP.trans (hw.csAMP h)
  sched := hs.trans hw.sched

/-- A bus primitive whose own step is work. -/
theorem Runs.prim {act : State → α × State} {s : State} {l : List (List Byte)} (hw : Worked s (act s).2 l) :
    Runs s (prim act s) True := by
  intro hs
  rcases prim_spec act s (hw.op ▸ hs) with ⟨t, h, hi, hsched⟩ | ⟨t, h, hc, hr⟩
  · rw [h]
    exact ⟨trivial, l, hw.interfered hi hsched⟩
  · rw [h]
    exact .cut (l := l) ⟨hc.block, hc.par.trans hw.par, hc.port.trans hw.port, hc.results.trans hw.results,
      hc.pubOut.trans hw.pubOut, hc.frames.trans hw.frames, hw.sched.subset hr⟩

theorem Runs.pmuTx {dir : Dir} {mask : BitVec 4} {mode : BitVec 2} {data : BitVec 22} {s : State} :
    Runs s (Machine.prim (pmuTx dir mask mode data) s) True := by
  intro hs
  rcases prim_pmuTx_spec dir mask mode data s hs with ⟨r, t, h, hw, -⟩ | ⟨t, h, hc⟩
  · rw [h]; exact ⟨trivial, _, hw⟩
  · rw [h]; exact .cut hc

theorem Runs.xfer {dev : Dev} {out : List Byte} {nIn : Nat} {s : State} (hd : dev ≠ .pmu) :
    Runs s (Machine.prim (withBus .cmd (spiXfer dev out nIn)) s) True := by
  intro hs
  rcases prim_xfer_spec dev hd out nIn s hs with ⟨r, t, h, hw, -⟩ | ⟨t, h, hc⟩
  · rw [h]; exact ⟨trivial, _, hw⟩
  · rw [h]; exact .cut hc

/-- A write of the PMU shadows is work: `Worked` says nothing of them. -/
theorem Worked.setPmu (x : PmuState) (s : State) : Worked s (s.setPmu x) [] :=
  ⟨rfl, rfl, rfl, rfl, rfl, rfl, rfl, .refl _, rfl, rfl, rfl, (List.append_nil _).symm, id, id, id, List.suffix_rfl⟩

/-- Primitive 1 of PMU_INIT, 40_pmu.md R150, as work: the phase, the reset line, the chip-select and busy samples. -/
theorem Worked.pmuSettle (s : State) : Worked s (pmuSettle s).2 [] := by
  obtain ⟨b, l, e, -, hsched, -, -, h⟩ :=
    busyWait_spec (driveCs .pmu true (drivePmuReset true (drivePmuReset false (setPhase .reset s))))
  have hf : pmuFrames (Machine.pmuSettle s).2.trace = pmuFrames s.trace ++ [] := by
    rw [Machine.pmuSettle, h]
    simp [pmuFrames, drivePmuReset, Machine.record, setPhase]
  rw [Machine.pmuSettle, h] at hf ⊢
  exact ⟨rfl, rfl, rfl, rfl, rfl, rfl, rfl, .refl _, rfl, rfl, rfl, hf, id, id, id, hsched ▸ List.suffix_rfl⟩

/-- A transfer and what follows its success and its failure. -/
theorem Runs.bindXfer {s : State} {f : Flow XferResult} {g : XferResult → State → Flow β} {p q : Prop} (hf : Runs s f p)
    (hok : ∀ bs t, Runs t (g (.ok bs) t) q) (herr : ∀ t, Runs t (g .busError t) q) : Runs s (f.bind g) q :=
  .bind hf fun r t _ _ => match r with
    | .ok bs => hok bs t
    | .busError => herr t

/-! ### The write procedures, whatever the devices answer -/

theorem Runs.writeVerifyReg {mask : BitVec 4} {v echo : BitVec 22} {s : State} :
    Runs s (writeVerifyReg mask v echo s) True := .of_does (writeVerifyReg_does mask v echo s)

theorem Runs.writeVerifyDac {c : Fin 4} {sub : BitVec 6} {code : BitVec 16} {s : State} :
    Runs s (writeVerifyDac c sub code s) True := .of_does (writeVerifyDac_does c sub code s)

/-- The commit rule of 40_pmu.md R144; `initChannel`, `updateChState`, `updateMode`, `updateRange` and the sequencer's register
writes are uses of it. -/
theorem Runs.updateCh {c : Fin 4} {v : BitVec 22} {s : State} : Runs s (updateCh c v s) True :=
  .of_does (updateCh_does c v s)

theorem Runs.writeVerifyAmp {addr : BitVec 7} {v : Byte} {s : State} : Runs s (writeVerifyAmp addr v s) True :=
  .of_does (writeVerifyAmp_does addr v s)

theorem Runs.dacW {c : Fin 1} {role : Role} {r : Range} {s : State} : Runs s (dacW c role r s) True :=
  .writeVerifyDac

theorem Runs.clampsW {c : Fin 1} {r : Range} {s : State} : Runs s (clampsW c r s) True :=
  .bind .dacW fun _ _ _ _ => .dacW

theorem Runs.switchRangeFv {c : Fin 1} {r r' : Range} {s : State} : Runs s (switchRangeFv c r r' s) True := by
  unfold Machine.switchRangeFv
  split
  · exact .bind .clampsW fun _ _ _ _ => .updateCh
  · exact .bind .updateCh fun _ _ _ _ => .clampsW

theorem Runs.switchRangeFi {c : Fin 1} {r r' : Range} {s : State} : Runs s (switchRangeFi c r r' s) True := by
  unfold Machine.switchRangeFi
  split
  · exact .bind .dacW fun _ _ _ _ => .bind .updateCh fun _ _ _ _ => .dacW
  split
  · exact .bind .dacW fun _ _ _ _ => .updateCh
  · exact .bind .updateCh fun _ _ _ _ => .dacW

theorem Runs.switchRange {c : Fin 1} {r : Range} {s : State} : Runs s (switchRange c r s) True := by
  unfold Machine.switchRange
  split
  · exact .switchRangeFv
  · exact .switchRangeFi

theorem Runs.pushMode {c : Fin 1} {m : ForceMode} {s : State} : Runs s (pushMode c m s) True :=
  .bind .dacW fun _ _ _ _ => .bind .dacW fun _ _ _ _ => .dacW

/-! ### The commands -/

/-- The command `i`, accepted in `s`, ends without fault and is finished: this holds for every device and every schedule. -/
def Finishes (i : Instr) (s : State) (o : Host.Outcome State Fault Refusal) : Prop :=
  ∃ t, o = .next t ∧ Finished (s.setCmd ⟨some i, 0⟩) t

theorem runCommand_finishes {i : Instr} {body : State → Flow Unit} {s : State} (h : ∀ s, Runs s (body s) False) :
    Finishes i s (runCommand i body s) := by
  refine ⟨_, rfl, ?_⟩
  have h := h (s.setCmd ⟨some i, 0⟩) (Option.some_ne_none i)
  cases hb : body (s.setCmd ⟨some i, 0⟩) with
  | go a t => rw [hb] at h; exact h.1.elim
  | ended t => rw [hb] at h; exact h

theorem execPmuInit_finishes (s : State) : Finishes .pmuInit s (execPmuInit s) :=
  runCommand_finishes fun s =>
    .bind (.prim (.pmuSettle s)) fun _ _ _ _ => .bind .need fun _ _ _ _ =>
    .bind .writeVerifyReg fun _ s _ _ =>
    .bind (.after (.setPmu _ s) (.after (.setPmu _ _) .updateCh)) fun _ _ _ _ =>
    .bind .updateCh fun _ _ _ _ => .bind .updateCh fun _ _ _ _ => .bind .updateCh fun _ s _ _ =>
    .after (.setPmu _ s) (.ret .nothing (.nothing _))

theorem execPmuTransact_finishes (chmask dir : BitVec 4) (mode : BitVec 8) (data : BitVec 32) (s : State) :
    Finishes (.pmuTransact chmask dir mode data) s (execPmuTransact chmask dir mode data s) := by
  refine runCommand_finishes fun s => ?_
  split
  · refine .bind .pmuTx fun r s _ _ => ?_
    cases r with
    | ok w => exact .ret _ (.nothing s)
    | busError => exact .fail _ s
    | busy => exact .fail _ s
  · exact .fail _ s

theorem execPmuWriteSysctrl_finishes (value : BitVec 32) (s : State) :
    Finishes (.pmuWriteSysctrl value) s (execPmuWriteSysctrl value s) := by
  refine runCommand_finishes fun s => ?_
  split
  · exact .bind .writeVerifyReg fun _ s _ _ => .after (.setPmu _ s) (.ret _ (.nothing _))
  · exact .fail _ s

theorem execPmuWriteChctrl_finishes (channel : BitVec 4) (value : BitVec 32) (s : State) :
    Finishes (.pmuWriteChctrl channel value) s (execPmuWriteChctrl channel value s) := by
  refine runCommand_finishes fun s => ?_
  split
  · exact .bind .updateCh fun _ s _ _ => .ret _ (.nothing s)
  · exact .fail _ s

theorem execPmuSetChstate_finishes (channel state : BitVec 4) (s : State) :
    Finishes (.pmuSetChstate channel state) s (execPmuSetChstate channel state s) := by
  refine runCommand_finishes fun s => ?_
  split
  · exact .bind .updateCh fun _ s _ _ => .ret _ (.nothing s)
  · exact .fail _ s

theorem execPmuSetMode_finishes (channel mode : BitVec 4) (s : State) :
    Finishes (.pmuSetMode channel mode) s (execPmuSetMode channel mode s) := by
  refine runCommand_finishes fun s => ?_
  split
  · exact .bind .updateCh fun _ s _ _ => .ret _ (.nothing s)
  · exact .fail _ s

theorem execPmuSetRange_finishes (channel code : BitVec 4) (s : State) :
    Finishes (.pmuSetRange channel code) s (execPmuSetRange channel code s) := by
  refine runCommand_finishes fun s => ?_
  split
  · exact .bind .updateCh fun _ s _ _ => .ret _ (.nothing s)
  · exact .fail _ s

theorem execPmuSetDac_finishes (channel : BitVec 4) (subaddr : BitVec 8) (code : BitVec 32) (s : State) :
    Finishes (.pmuSetDac channel subaddr code) s (execPmuSetDac channel subaddr code s) := by
  refine runCommand_finishes fun s => ?_
  split
  · exact .bind .writeVerifyDac fun _ s _ _ => .ret _ (.nothing s)
  · exact .fail _ s

theorem execAdcStart_finishes (s : State) : Finishes .adcStart s (execAdcStart s) :=
  runCommand_finishes fun s => .ret _ (.adcStart s)

theorem execAdcStop_finishes (s : State) : Finishes .adcStop s (execAdcStop s) :=
  runCommand_finishes fun s => .ret _ (.adcStop s)

theorem execAdcConfigCh_finishes (channel enable : BitVec 4) (pos neg : BitVec 8) (s : State) :
    Finishes (.adcConfigCh channel enable pos neg) s (execAdcConfigCh channel enable pos neg s) := by
  refine runCommand_finishes fun s => ?_
  split
  · exact .bindXfer (.xfer (by decide)) (fun _ s => .ret _ (.adcMask s ..)) (.fail _)
  · exact .fail _ s

theorem execAdcWriteReg_finishes (nbytes : BitVec 4) (addr : BitVec 8) (value : BitVec 32) (s : State) :
    Finishes (.adcWriteReg nbytes addr value) s (execAdcWriteReg nbytes addr value s) := by
  refine runCommand_finishes fun s => ?_
  split
  · split
    · exact .bindXfer (.xfer (by decide)) (fun _ s => .ret _ (.nothing s)) (.fail _)
    · exact .fail _ s
  · exact .fail _ s

theorem execAdcReadReg_finishes (nbytes : BitVec 4) (addr : BitVec 8) (s : State) :
    Finishes (.adcReadReg nbytes addr) s (execAdcReadReg nbytes addr s) := by
  refine runCommand_finishes fun s => ?_
  split
  · exact .bindXfer (.xfer (by decide)) (fun _ s => .ret _ (.nothing s)) (.fail _)
  · exact .fail _ s

theorem execAmpInit_finishes (s : State) : Finishes .ampInit s (execAmpInit s) := by
  refine runCommand_finishes fun s => .bindXfer (.xfer (by decide)) (fun bs s => ?_) (.fail _)
  dsimp only
  split
  · exact .bind .writeVerifyAmp fun _ s _ _ => .ret _ (.ampIdentified s)
  · exact .raise _ (.ampUnidentified s)

theorem execAmpSetGain_finishes (ig og : BitVec 8) (s : State) :
    Finishes (.ampSetGain ig og) s (execAmpSetGain ig og s) := by
  refine runCommand_finishes fun s => ?_
  split
  · exact .bind .writeVerifyAmp fun _ _ _ _ => .bind .writeVerifyAmp fun _ s _ _ => .ret _ (.ampGain s ..)
  · exact .fail _ s

theorem execAmpSetSwitch_finishes (p n : BitVec 8) (s : State) :
    Finishes (.ampSetSwitch p n) s (execAmpSetSwitch p n s) := by
  refine runCommand_finishes fun s => ?_
  split
  · exact .bind .writeVerifyAmp fun _ s _ _ => .ret _ (.ampSwitch s ..)
  · exact .fail _ s

theorem execAmpSetTestmux_finishes (p n : BitVec 8) (s : State) :
    Finishes (.ampSetTestmux p n) s (execAmpSetTestmux p n s) := by
  refine runCommand_finishes fun s => ?_
  split
  · exact .bind .writeVerifyAmp fun _ s _ _ => .ret _ (.ampTestmux s ..)
  · exact .fail _ s

theorem execAmpWriteReg_finishes (addr : BitVec 8) (value : BitVec 32) (s : State) :
    Finishes (.ampWriteReg addr value) s (execAmpWriteReg addr value s) := by
  refine runCommand_finishes fun s => ?_
  split
  · exact .bindXfer (.xfer (by decide)) (fun _ s => .ret _ (.nothing s)) (.fail _)
  · exact .fail _ s

theorem execAmpReadReg_finishes (addr : BitVec 8) (s : State) :
    Finishes (.ampReadReg addr) s (execAmpReadReg addr s) := by
  refine runCommand_finishes fun s => ?_
  split
  · exact .bindXfer (.xfer (by decide)) (fun _ s => .ret _ (.nothing s)) (.fail _)
  · exact .fail _ s

/-- The effective value depends on settings only, so the one computed before the write-and-verify is the one of the state in
which it is stored. -/
theorem SameSettings.valueToCode {a b : SmuChannel} (h : SameSettings a b) (p : Params) (role : Role) (x : Rat) :
    valueToCode p role a.range x a.cllv a.clhv = valueToCode p role b.range x b.cllv b.clhv := by
  obtain ⟨-, -, -, -, hcllv, hclhv, hrange, -⟩ := h
  rw [hrange, hcllv, hclhv]

theorem execSmuSetValue_finishes (channel role : BitVec 4) (value : BitVec 32) (s : State) :
    Finishes (.smuSetValue channel role value) s (execSmuSetValue channel role value s) := by
  refine runCommand_finishes fun s => ?_
  split
  next c ro x _ _ _ =>
    dsimp only
    split
    · refine .bind .writeVerifyDac fun _ t _ hw => .ret _ (.smuValue t ro x _ ?_)
      rw [hw.settings.valueToCode, hw.par]
    · exact .ret _ (.smuValue s ro x _ rfl)
  next => exact .fail _ s

theorem execSmuSetRange_finishes (channel range : BitVec 4) (s : State) :
    Finishes (.smuSetRange channel range) s (execSmuSetRange channel range s) := by
  refine runCommand_finishes fun s => ?_
  split
  · split
    · exact .ret _ (.nothing s)
    · exact .bind .switchRange fun _ s _ _ => .ret _ (.smuRange s _)
  · exact .fail _ s

theorem execSmuSetMode_finishes (channel mode : BitVec 4) (s : State) :
    Finishes (.smuSetMode channel mode) s (execSmuSetMode channel mode s) := by
  refine runCommand_finishes fun s => ?_
  split
  · split
    · exact .ret _ (.nothing s)
    · exact .bind .pushMode fun _ _ _ _ => .bind .updateCh fun _ s _ _ => .ret _ (.smuMode s _)
  · exact .fail _ s

theorem execSmuSetState_finishes (channel state : BitVec 4) (s : State) :
    Finishes (.smuSetState channel state) s (execSmuSetState channel state s) := by
  refine runCommand_finishes fun s => ?_
  split
  · split
    · exact .ret _ (.nothing s)
    · exact .bind .updateCh fun _ s _ _ => .ret _ (.smuState s _)
  · exact .fail _ s

theorem execSmuValueToCode_finishes (channel role : BitVec 4) (range : BitVec 8) (value : BitVec 32) (s : State) :
    Finishes (.smuValueToCode channel role range value) s (execSmuValueToCode channel role range value s) := by
  refine runCommand_finishes fun s => ?_
  split
  · exact .ret _ (.nothing s)
  · exact .fail _ s

theorem execSmuCodeToValue_finishes (channel kind : BitVec 4) (range : BitVec 8) (code : BitVec 32) (s : State) :
    Finishes (.smuCodeToValue channel kind range code) s (execSmuCodeToValue channel kind range code s) := by
  refine runCommand_finishes fun s => ?_
  split
  · exact .ret _ (.nothing s)
  · exact .ret _ (.nothing s)
  · exact .fail _ s

theorem execSmuPublishTick_finishes (s : State) : Finishes .smuPublishTick s (execSmuPublishTick s) :=
  runCommand_finishes fun s => .ret _ (.publish s)

theorem execSmuQueueFullUpdate_finishes (s : State) : Finishes .smuQueueFullUpdate s (execSmuQueueFullUpdate s) :=
  runCommand_finishes fun s => .ret _ (.fullUpdate s)

/-- Every command finishes, for every operand, device and schedule. -/
theorem exec_finishes (i : Instr) (s : State) : Finishes i s (exec i s) := by
  cases i with
  | pmuInit => exact execPmuInit_finishes s
  | pmuTransact => exact execPmuTransact_finishes ..
  | pmuWriteSysctrl => exact execPmuWriteSysctrl_finishes ..
  | pmuWriteChctrl => exact execPmuWriteChctrl_finishes ..
  | pmuSetChstate => exact execPmuSetChstate_finishes ..
  | pmuSetMode => exact execPmuSetMode_finishes ..
  | pmuSetRange => exact execPmuSetRange_finishes ..
  | pmuSetDac => exact execPmuSetDac_finishes ..
  | adcStart => exact execAdcStart_finishes s
  | adcStop => exact execAdcStop_finishes s
  | adcConfigCh => exact execAdcConfigCh_finishes ..
  | adcWriteReg => exact execAdcWriteReg_finishes ..
  | adcReadReg => exact execAdcReadReg_finishes ..
  | ampInit => exact execAmpInit_finishes s
  | ampSetGain => exact execAmpSetGain_finishes ..
  | ampSetSwitch => exact execAmpSetSwitch_finishes ..
  | ampSetTestmux => exact execAmpSetTestmux_finishes ..
  | ampWriteReg => exact execAmpWriteReg_finishes ..
  | ampReadReg => exact execAmpReadReg_finishes ..
  | smuSetValue => exact execSmuSetValue_finishes ..
  | smuSetRange => exact execSmuSetRange_finishes ..
  | smuSetMode => exact execSmuSetMode_finishes ..
  | smuSetState => exact execSmuSetState_finishes ..
  | smuValueToCode => exact execSmuValueToCode_finishes ..
  | smuCodeToValue => exact execSmuCodeToValue_finishes ..
  | smuPublishTick => exact execSmuPublishTick_finishes s
  | smuQueueFullUpdate => exact execSmuQueueFullUpdate_finishes s

theorem exec_finished {i : Instr} {s t : State} (h : exec i s = .next t) : Finished (s.setCmd ⟨some i, 0⟩) t := by
  obtain ⟨u, hu, hf⟩ := exec_finishes i s
  rw [h] at hu
  cases hu
  exact hf

/-! ### One step -/

/-- `u` is `s` but for words taken off the command port and moves taken off the schedule. -/
def InputsTaken (s u : State) : Prop := ∃ ms ws, u = (setSched ms s).setPort ws

theorem InputsTaken.refl (s : State) : InputsTaken s s := ⟨s.env.sched, s.port, rfl⟩

/-- The sequencer's turn: it waits, rejects a reserved word, or runs a command. -/
theorem portTurn_cases (s : State) :
    portTurn s = .settled s ∨ ∃ u, InputsTaken s u ∧
      (portTurn s = .settled (rejectWord u) ∨ ∃ i, portTurn s = .run i u) := by
  unfold portTurn
  split
  · exact .inl rfl
  next w ws _ =>
    refine .inr ⟨s.setPort ws, ⟨s.env.sched, ws, rfl⟩, ?_⟩
    split
    next i _ => exact .inr ⟨i, rfl⟩
    next => exact .inl rfl

/-- Every other turn is an agent's move, taken off the schedule or by priority. -/
theorem nextTurn_cases (s : State) :
    ∃ u, InputsTaken s u ∧ ((∃ m, nextTurn s = .settled (agentMove m u)) ∨ nextTurn s = portTurn u) := by
  unfold nextTurn
  split
  · refine ⟨s, .refl s, ?_⟩
    unfold defaultTurn
    split
    · exact .inl ⟨.sample, rfl⟩
    split
    · exact .inl ⟨.dispatch, rfl⟩
    split
    · exact .inl ⟨.forcedPublish, rfl⟩
    · exact .inr rfl
  next m ms _ =>
    refine ⟨setSched ms s, ⟨ms, s.port, rfl⟩, ?_⟩
    cases m with
    | sequencer => exact .inr rfl
    | forcedPublish | edge | sample | dispatch | faultPin | reset => exact .inl ⟨_, rfl⟩

/-- One step: an agent moves, a reserved word is rejected, or a command runs. -/
theorem step_cases {s t : State} (h : step s = .next t) :
    ∃ u, InputsTaken s u ∧ ((∃ m, t = agentMove m u) ∨ t = rejectWord u ∨ ∃ i, exec i u = .next t) := by
  obtain ⟨u, hu, ⟨m, hm⟩ | hp⟩ := nextTurn_cases s
  · rw [step, hm] at h
    cases h
    exact ⟨u, hu, .inl ⟨m, rfl⟩⟩
  · obtain ⟨ms, ws, rfl⟩ := hu
    rw [step, hp] at h
    obtain hw | ⟨v, ⟨ms', ws', rfl⟩, hr | ⟨i, hi⟩⟩ := portTurn_cases ((setSched ms s).setPort ws)
    · rw [hw] at h
      cases h
      exact ⟨_, ⟨ms, ws, rfl⟩, .inl ⟨.sequencer, rfl⟩⟩
    · rw [hr] at h
      cases h
      exact ⟨_, ⟨ms', ws', rfl⟩, .inr (.inl rfl)⟩
    · rw [hi] at h
      exact ⟨_, ⟨ms', ws', rfl⟩, .inr (.inr ⟨i, h⟩)⟩

theorem forcedPublishStep_cases (s : State) : forcedPublishStep s = drain s ∨ forcedPublishStep s = s := by
  unfold forcedPublishStep
  split
  · exact .inl rfl
  · exact .inr rfl

/-- An agent's move interferes, drains the dirty bitmap or resets the block. -/
theorem agentMove_cases (m : Move) (s : State) :
    Interfered s (agentMove m s) ∨ agentMove m s = drain s ∨ agentMove m s = resetEvent s := by
  cases m with
  | sequencer => exact .inl (.refl s)
  | forcedPublish =>
    obtain h | h := forcedPublishStep_cases s
    · exact .inr (.inl h)
    · left
      rw [agentMove, h]
      exact .refl s
  | edge => exact .inl (.edge s)
  | sample => exact .inl (.sample s)
  | dispatch => exact .inl (.dispatch s)
  | faultPin => exact .inl (.refl s)
  | reset => exact .inr (.inr rfl)

@[simp] theorem drain_par (s : State) : (drain s).par = s.par := by rw [drain_spec]; rfl
@[simp] theorem drain_cmd (s : State) : (drain s).cmd = s.cmd := by rw [drain_spec]; rfl
@[simp] theorem drain_amp (s : State) : (drain s).amp = s.amp := by rw [drain_spec]; rfl
@[simp] theorem drain_bus (s : State) : (drain s).bus = s.bus := by rw [drain_spec]; rfl

theorem drain_settings (s : State) : SameSettings (drain s).smu.ch s.smu.ch := by
  rw [drain_spec]
  exact .refl s.smu.ch

@[simp] theorem resetEvent_par (s : State) : (resetEvent s).par = s.par := rfl

/-! ### Invariants of the block state -/

/-- What no agent but reset and no part of a command writes: the parameters, the amplifier, the SMU settings, and the lines of
the bus as 10_state.md R52 and R53 keep them. -/
structure Undisturbed (s t : State) : Prop where
  par : t.par = s.par
  amp : t.amp = s.amp
  settings : SameSettings t.smu.ch s.smu.ch
  owner : s.bus.owner = .none → t.bus.owner = .none
  csADC : s.bus.csADC = true → t.bus.csADC = true
  csAMP : s.bus.csAMP = true → t.bus.csAMP = true

theorem Interfered.undisturbed {s t : State} (h : Interfered s t) : Undisturbed s t :=
  ⟨h.par, h.amp, h.settings, h.owner, h.csADC, fun x => h.csAMP.trans x⟩

theorem Worked.undisturbed {s t : State} {l : List (List Byte)} (h : Worked s t l) : Undisturbed s t :=
  ⟨h.par, h.amp, h.settings, h.owner, h.csADC, h.csAMP⟩

/-- The sequencer, the ports, the results, the history and the inputs are no part of it. -/
theorem Undisturbed.of_eq {s t : State} (par : t.par = s.par) (amp : t.amp = s.amp) (smu : t.smu = s.smu)
    (bus : t.bus = s.bus) : Undisturbed s t :=
  ⟨par, amp, smu ▸ .refl _, fun h => bus ▸ h, fun h => bus ▸ h, fun h => bus ▸ h⟩

theorem Undisturbed.setCmd (x : Sequencer) (s : State) : Undisturbed s (s.setCmd x) := .of_eq rfl rfl rfl rfl

theorem Undisturbed.endCommand (r : Result) (s : State) : Undisturbed s (endCommand r s) := .of_eq rfl rfl rfl rfl

theorem Undisturbed.rejectWord (s : State) : Undisturbed s (rejectWord s) := .of_eq rfl rfl rfl rfl

theorem InputsTaken.undisturbed {s u : State} (h : InputsTaken s u) : Undisturbed s u := by
  obtain ⟨ms, ws, rfl⟩ := h
  exact .of_eq rfl rfl rfl rfl

theorem InputsTaken.cmd {s u : State} (h : InputsTaken s u) : u.cmd = s.cmd := by
  obtain ⟨ms, ws, rfl⟩ := h
  rfl

theorem Undisturbed.drain (s : State) : Undisturbed s (drain s) :=
  ⟨drain_par s, drain_amp s, drain_settings s, fun h => drain_bus s ▸ h, fun h => drain_bus s ▸ h,
    fun h => drain_bus s ▸ h⟩

/-- What makes a predicate an invariant: it reads only what `Undisturbed` fixes, every last write of a command keeps it, and
a reset restores it. -/
structure Maintained (I : State → Prop) : Prop where
  undisturbed : ∀ {s t : State}, Undisturbed s t → I s → I t
  write : ∀ {s t : State}, CommandWrite s t → I s → I t
  reset : ∀ {s t : State}, BlockReset t → t.par = s.par → I s → I t

theorem Maintained.exec {I : State → Prop} (hI : Maintained I) {i : Instr} {s t : State} (h : exec i s = .next t)
    (hs : I s) : I t := by
  have hacc : I (s.setCmd ⟨some i, 0⟩) := hI.undisturbed (.setCmd _ s) hs
  cases exec_finished h with
  | cut hc => exact hI.reset hc.block hc.par hacc
  | @returned _ u v r hw hv ht =>
    have hu : I u := hI.undisturbed hw.undisturbed hacc
    exact ht ▸ hI.undisturbed (.endCommand r v) (hI.write hv hu)

theorem Maintained.agentMove {I : State → Prop} (hI : Maintained I) (m : Move) {s : State} (hs : I s) :
    I (agentMove m s) := by
  obtain hm | hm | hm := agentMove_cases m s
  · exact hI.undisturbed hm.undisturbed hs
  · exact hm ▸ hI.undisturbed (.drain s) hs
  · exact hm ▸ hI.reset (resetEvent_block s) (resetEvent_par s) hs

/-- The induction step of every invariant. -/
theorem Maintained.step {I : State → Prop} (hI : Maintained I) {s t : State} (h : step s = .next t) (hs : I s) : I t := by
  obtain ⟨u, hin, hstep⟩ := step_cases h
  have hu : I u := hI.undisturbed hin.undisturbed hs
  obtain ⟨m, rfl⟩ | rfl | ⟨i, hi⟩ := hstep
  · exact hI.agentMove m hu
  · exact hI.undisturbed (.rejectWord u) hu
  · exact hI.exec hi hu

theorem agentMove_cmd_idle (m : Move) {s : State} (hs : s.cmd = .idle) : (agentMove m s).cmd = .idle := by
  obtain hm | hm | hm := agentMove_cases m s
  · exact hm.cmd.trans hs
  · rw [hm, drain_cmd, hs]
  · rw [hm]
    rfl

/-- A step is a whole command or a step of another agent (logs 1, 24): none is in progress after it. -/
theorem step_cmd_idle {s t : State} (hs : s.cmd = .idle) (h : step s = .next t) : t.cmd = .idle := by
  obtain ⟨u, hin, hstep⟩ := step_cases h
  have hu : u.cmd = .idle := hin.cmd.trans hs
  obtain ⟨m, rfl⟩ | rfl | ⟨i, hi⟩ := hstep
  · exact agentMove_cmd_idle m hu
  · exact hu
  · exact (exec_finished hi).cmd

end Sys2Proof.Machine
end

section
/-! Proofs, family 10_state.md (2): the obligations. -/

namespace Sys2Proof.Machine

/-! ### The bus between steps -/

/-- The bus half of `BetweenSteps`. -/
def BusIdle (s : State) : Prop := s.bus.owner = .none ∧ s.bus.csADC = true ∧ s.bus.csAMP = true

theorem betweenSteps_iff (s : State) : BetweenSteps s ↔ s.cmd = .idle ∧ BusIdle s := Iff.rfl

theorem CommandWrite.busIdle {s t : State} (h : CommandWrite s t) (hs : BusIdle s) : BusIdle t := by
  obtain ⟨howner, hadc, hamp⟩ := hs
  cases h with
  | adcStop => exact ⟨howner, rfl, hamp⟩
  | publish => exact ⟨drain_bus s ▸ howner, drain_bus s ▸ hadc, drain_bus s ▸ hamp⟩
  | _ => exact ⟨howner, hadc, hamp⟩

theorem BlockReset.busIdle {t : State} (h : BlockReset t) : BusIdle t := by
  obtain ⟨-, -, -, -, -, hbus⟩ := h
  rw [BusIdle, hbus]
  exact ⟨rfl, rfl, rfl⟩

theorem busIdle_maintained : Maintained BusIdle where
  undisturbed h := fun ⟨howner, hadc, hamp⟩ => ⟨h.owner howner, h.csADC hadc, h.csAMP hamp⟩
  write := CommandWrite.busIdle
  reset h _ _ := h.busIdle

/-- Settles O12: every part of a step keeps the bus idle, and a step leaves no command in progress. -/
theorem stepKeepsBusIdleBetweenSteps : Obligations.StepKeepsBusIdleBetweenSteps := by
  intro s t hs h
  obtain ⟨hcmd, hbus⟩ := (betweenSteps_iff s).1 hs
  exact (betweenSteps_iff t).2 ⟨step_cmd_idle hcmd h, busIdle_maintained.step h hbus⟩

/-! ### The stuck fields -/

/-- What 10_state.md R48 gives no command to write: the sense topology and the two calibration factors. -/
def SameStuck (a b : SmuChannel) : Prop := a.sense = b.sense ∧ a.mvGainCorr = b.mvGainCorr ∧ a.miMult = b.miMult

theorem SameSettings.stuck {a b : SmuChannel} (h : SameSettings a b) : SameStuck a b := by
  obtain ⟨-, -, -, -, -, -, -, -, -, hsense, hgain, hmult⟩ := h
  exact ⟨hsense, hgain, hmult⟩

theorem SmuChannel.setValue_stuck (ch : SmuChannel) (role : Role) (v : Rat) : SameStuck (ch.setValue role v) ch := by
  cases role <;> exact ⟨rfl, rfl, rfl⟩

theorem CommandWrite.par {s t : State} (h : CommandWrite s t) : t.par = s.par := by
  cases h with
  | publish => exact drain_par s
  | _ => rfl

theorem CommandWrite.stuck {s t : State} (h : CommandWrite s t) : SameStuck t.smu.ch s.smu.ch := by
  cases h with
  | publish => exact (drain_settings s).stuck
  | smuValue role x xe => exact SmuChannel.setValue_stuck s.smu.ch role xe
  | _ => exact ⟨rfl, rfl, rfl⟩

theorem SameStuck.stuckFields {s t : State} (h : SameStuck t.smu.ch s.smu.ch) (hp : t.par = s.par)
    (hs : StuckFields s) : StuckFields t := by
  obtain ⟨hsense, hgain, hmult⟩ := h
  obtain ⟨ssense, sgain, smult⟩ := hs
  exact ⟨hsense.trans ssense, by rw [hgain, sgain, hp], by rw [hmult, smult, hp]⟩

theorem BlockReset.stuckFields {t : State} (h : BlockReset t) : StuckFields t := by
  obtain ⟨-, -, -, hsmu, -⟩ := h
  rw [StuckFields, hsmu]
  exact ⟨rfl, rfl, rfl⟩

theorem par_maintained (p : Params) : Maintained (fun s => s.par = p) where
  undisturbed h hs := h.par.trans hs
  write h hs := h.par.trans hs
  reset _ hp hs := hp.trans hs

theorem step_par {s t : State} (h : step s = .next t) : t.par = s.par := (par_maintained s.par).step h rfl

theorem stuckFields_maintained : Maintained StuckFields where
  undisturbed h := h.settings.stuck.stuckFields h.par
  write h := h.stuck.stuckFields h.par
  reset h _ _ := h.stuckFields

/-- Settles O15: no part of a step writes the fields, and a reset writes their reset values. -/
theorem stepKeepsStuckFields : Obligations.StepKeepsStuckFields :=
  fun _ _ hs h => ⟨step_par h, stuckFields_maintained.step h hs⟩

/-! ### The reset state -/

theorem reset_ampGainConsistent : AmpGainConsistent State.reset := (mul_one (1 : Rat)).symm

theorem reset_voltageClampsSeparated : VoltageClampsSeparated State.reset := by
  show -(45 / 4) ≤ (-10 : Rat) ∧ (-10 : Rat) ≤ 43 / 4 ∧ -(43 / 4) ≤ (10 : Rat) ∧ (10 : Rat) ≤ 45 / 4 ∧
    1 / 2 ≤ (10 : Rat) - -10
  norm_num

theorem resetFor_stuckFields (p : Params) : StuckFields (State.resetFor p) := ⟨rfl, rfl, rfl⟩

theorem resetFor_betweenSteps (p : Params) : BetweenSteps (State.resetFor p) := ⟨rfl, rfl, rfl, rfl⟩

/-- Settles O16. -/
theorem resetMeetsTheInvariants : Obligations.ResetMeetsTheInvariants :=
  ⟨resetFor_betweenSteps .reference, reset_ampGainConsistent.symm, reset_ampGainConsistent, rfl,
    reset_voltageClampsSeparated, resetFor_stuckFields .reference⟩

/-- Settles O17, clause by clause from the reset tables. -/
theorem resetValuesOfTheSpec : Obligations.ResetValuesOfTheSpec := by
  refine ⟨rfl, rfl, ?chctrl, rfl, rfl, rfl, rfl, rfl, rfl, rfl, rfl, ?slot, rfl, rfl, rfl, rfl, rfl, rfl, rfl, rfl, rfl, rfl,
    rfl, rfl, rfl, rfl, rfl, rfl, rfl, rfl, rfl, rfl, ?snap, rfl, rfl⟩
  case chctrl => decide
  case slot => decide
  case snap => decide

/-! ### The field commands in the reference layout -/

/-- Setting a field in `v` masked by `m` with the bits `k` added: the field leaves the mask, and its value joins the bits. -/
theorem setField_and_or (v m k x : BitVec n) (f : BitField) :
    setField (v &&& m ||| k) f x =
      v &&& (m &&& ~~~BitField.mask n f) ||| (k &&& ~~~BitField.mask n f ||| (x <<< f.lo) &&& BitField.mask n f) := by
  rw [setField, BitVec.and_or_distrib_right, BitVec.and_assoc, BitVec.or_assoc]

/-- The same with no bits added yet. -/
theorem setField_and (v m x : BitVec n) (f : BitField) :
    setField (v &&& m) f x = v &&& (m &&& ~~~BitField.mask n f) ||| (x <<< f.lo) &&& BitField.mask n f := by
  rw [setField, BitVec.and_assoc]

/-- A 3-bit code shifted to bits 5:3 lies in the field of the range. -/
theorem rangeCode_in_field (code : BitVec 3) :
    code.setWidth 22 <<< ChLayout.reference.range.lo &&& BitField.mask 22 ChLayout.reference.range =
      code.setWidth 22 <<< 3 := by
  revert code
  decide

theorem withChanState_reference (v : BitVec 22) (st : ChanState) : withChanState .reference v st =
    (v &&& 0x003FFC) ||| (match st with
      | .disabled => 0b10
      | .hiz => 0b11
      | .enabled => 0b01) := by
  rw [withChanState, clearReserved_reference, setField_and, setField_and_or]
  cases st <;> rfl

theorem withForceMode_reference (v : BitVec 22) (m : ForceMode) : withForceMode .reference v m =
    (v &&& 0x003FFB) ||| (match m with
      | .fv => 0
      | .fi => 0b100) := by
  rw [withForceMode, clearReserved_reference, setField_and]
  cases m <;> rfl

theorem withRangeCode_reference (v : BitVec 22) (code : BitVec 3) :
    withRangeCode .reference v code = (v &&& 0x003FC7) ||| (code.setWidth 22 <<< 3) := by
  rw [withRangeCode, clearReserved_reference, setField_and, rangeCode_in_field]
  rfl

/-- Settles O30. -/
theorem fieldCommandsChangeOnlyTheirField : Obligations.FieldCommandsChangeOnlyTheirField :=
  fun v => ⟨withChanState_reference v, withForceMode_reference v, withRangeCode_reference v⟩

end Sys2Proof.Machine
end

section
/-! Proofs, family 30_encoding.md (1): the command word. The decoder reads back what the encoder packs, and the word packed
again is the word with the columns the command does not use cleared. -/

namespace Sys2Proof.Machine

/-- Settles O1: every field of the packed word is read back, and the opcode selects the command's own arm. -/
theorem decodeOfEncodeIsTheCommand : Obligations.DecodeOfEncodeIsTheCommand := by
  intro i
  cases i <;>
    simp only [encode, decode, Instr.opcode, fieldOpc_packWord, fieldCh_packWord, fieldSel_packWord, fieldA_packWord,
      fieldB_packWord, fieldD_packWord] <;> rfl

/-! ### The columns of a word -/

/-- The opcode and the chosen columns of 30_encoding.md R110, as a mask over the command word. -/
def columnMask (ch sel a b d : Bool) : CmdWord :=
  packWord (.allOnes 8) (if ch then .allOnes 4 else 0) (if sel then .allOnes 4 else 0) (if a then .allOnes 8 else 0)
    (if b then .allOnes 8 else 0) (if d then .allOnes 32 else 0)

theorem packWord_and (opc opc' : BitVec 8) (ch ch' sel sel' : BitVec 4) (a a' b b' : BitVec 8) (d d' : BitVec 32) :
    packWord opc ch sel a b d &&& packWord opc' ch' sel' a' b' d' =
      packWord (opc &&& opc') (ch &&& ch') (sel &&& sel') (a &&& a') (b &&& b') (d &&& d') := by
  apply BitVec.eq_of_getLsbD_eq
  intro i hi
  simp only [packWord, BitVec.getLsbD_and, BitVec.getLsbD_append]
  split_ifs <;> rfl

theorem and_ite_allOnes {n : Nat} (v : BitVec n) (p : Bool) :
    (v &&& if p then BitVec.allOnes n else 0) = if p then v else 0 := by
  cases p <;> simp

/-- A mask of columns keeps the opcode and those columns, and clears the others. -/
theorem and_columnMask (w : CmdWord) (ch sel a b d : Bool) :
    w &&& columnMask ch sel a b d =
      packWord (fieldOpc w) (if ch then fieldCh w else 0) (if sel then fieldSel w else 0) (if a then fieldA w else 0)
        (if b then fieldB w else 0) (if d then fieldD w else 0) := by
  conv_lhs => rw [← packWord_fields w]
  simp only [columnMask, packWord_and, and_ite_allOnes, BitVec.and_allOnes]

/-- The word packed from the opcode `opc` of `w` and some of its columns. -/
theorem packWord_columns {w : CmdWord} {opc : BitVec 8} (hopc : (fieldOpc w).toNat = opc.toNat) (ch sel a b d : Bool) :
    packWord opc (if ch then fieldCh w else 0) (if sel then fieldSel w else 0) (if a then fieldA w else 0)
      (if b then fieldB w else 0) (if d then fieldD w else 0) = w &&& columnMask ch sel a b d := by
  rw [and_columnMask, BitVec.eq_of_toNat_eq hopc]

/-- Settles O2: each row of 30_encoding.md R114 names the columns (CH, SEL, A, B, D) of its command. The rows stand in the order
of the opcodes. -/
theorem decodedWordKeepsItsUsedBits : Obligations.DecodedWordKeepsItsUsedBits := by
  intro w i h
  unfold decode at h
  split at h <;> cases h
  -- PMU commands, 0x10 to 0x17
  next hopc => exact packWord_columns hopc false false false false false
  next hopc => exact packWord_columns hopc true true true false true
  next hopc => exact packWord_columns hopc false false false false true
  next hopc => exact packWord_columns hopc true false false false true
  next hopc => exact packWord_columns hopc true true false false false
  next hopc => exact packWord_columns hopc true true false false false
  next hopc => exact packWord_columns hopc true true false false false
  next hopc => exact packWord_columns hopc true false true false true
  -- ADC commands, 0x20 to 0x24
  next hopc => exact packWord_columns hopc false false false false false
  next hopc => exact packWord_columns hopc false false false false false
  next hopc => exact packWord_columns hopc true true true true false
  next hopc => exact packWord_columns hopc false true true false true
  next hopc => exact packWord_columns hopc false true true false false
  -- amplifier commands, 0x30 to 0x35
  next hopc => exact packWord_columns hopc false false false false false
  next hopc => exact packWord_columns hopc false false true true false
  next hopc => exact packWord_columns hopc false false true true false
  next hopc => exact packWord_columns hopc false false true true false
  next hopc => exact packWord_columns hopc false false true false true
  next hopc => exact packWord_columns hopc false false true false false
  -- SMU commands, 0x40 to 0x47
  next hopc => exact packWord_columns hopc true true false false true
  next hopc => exact packWord_columns hopc true true false false false
  next hopc => exact packWord_columns hopc true true false false false
  next hopc => exact packWord_columns hopc true true false false false
  next hopc => exact packWord_columns hopc true true true false true
  next hopc => exact packWord_columns hopc true true true false true
  next hopc => exact packWord_columns hopc false false false false false
  next hopc => exact packWord_columns hopc false false false false false

/-! ### Reserved opcodes -/

/-- The five ranges of 30_encoding.md R115. -/
theorem decode_error_iff (w : CmdWord) : (∃ e, decode w = .error e) ↔
    let n := (fieldOpc w).toNat
    n ≤ 0x0F ∨ (0x18 ≤ n ∧ n ≤ 0x1F) ∨ (0x25 ≤ n ∧ n ≤ 0x2F) ∨ (0x36 ≤ n ∧ n ≤ 0x3F) ∨ 0x48 ≤ n := by
  unfold decode
  split
  case h_28 =>
    simp only [Except.error.injEq, exists_eq', true_iff]
    simp only [imp_false] at *
    omega
  all_goals next hopc => simp [hopc]

theorem nextTurn_sequencer {s : State} {ms : List Move} (h : s.env.sched = .sequencer :: ms) :
    nextTurn s = portTurn (setSched ms s) := by
  simp only [nextTurn, h]

theorem portTurn_reserved {s : State} {w : CmdWord} {ws : List CmdWord} {e : DecodeError} (hp : s.port = w :: ws)
    (hw : decode w = .error e) : portTurn s = .settled (rejectWord (s.setPort ws)) := by
  simp only [portTurn, hp, hw]

/-- Settles O3: the sequencer's turn takes the word from the port and rejects it. -/
theorem reservedOpcodesReturnInvalidArgument : Obligations.ReservedOpcodesReturnInvalidArgument := by
  refine ⟨decode_error_iff, fun s w ws ms e hsched hport hw => ?_⟩
  have hturn : nextTurn s = .settled (rejectWord ((setSched ms s).setPort ws)) :=
    (nextTurn_sequencer hsched).trans (portTurn_reserved hport hw)
  rw [step, hturn]
  rfl

end Sys2Proof.Machine
end

section
/-! Proofs, family 30_encoding.md (2): the wire frames of the devices and the layouts of their registers. -/

namespace Sys2Proof.Machine

/-! ### Cutting bytes from a word -/

theorem bytesOf_four (w : Word32) :
    bytesOf 4 w = [w.extractLsb' 24 8, w.extractLsb' 16 8, w.extractLsb' 8 8, w.extractLsb' 0 8] := by
  simp only [bytesOf, BitVec.setWidth_ushiftRight_eq_extractLsb]

theorem packBytes_four (f0 f1 f2 f3 : Byte) : packBytes [f0, f1, f2, f3] = f0 ++ f1 ++ f2 ++ f3 := by
  apply BitVec.eq_of_getLsbD_eq
  intro i hi
  simp only [packBytes, List.foldl_cons, List.foldl_nil, BitVec.getLsbD_or, BitVec.getLsbD_shiftLeft,
    BitVec.getLsbD_setWidth, BitVec.getLsbD_append]
  interval_cases i <;> simp

/-! ### The PMU frame, 30_encoding.md R121 -/

theorem Dir.bit_eq (dir : Dir) : dir.bit = BitVec.ofBool (decide (dir = .read)) := by
  cases dir <;> rfl

/-- The 29-bit PMU word right-aligned in 32 bits. -/
theorem pmuWord_setWidth (dir : Dir) (mask : BitVec 4) (mode : BitVec 2) (data : BitVec 22) :
    (pmuWord dir mask mode data).setWidth 32 = 0#3 ++ BitVec.ofBool (decide (dir = .read)) ++ mask ++ mode ++ data := by
  rw [pmuWord, Dir.bit_eq]
  apply BitVec.eq_of_getLsbD_eq
  intro i hi
  simp only [BitVec.getLsbD_setWidth, BitVec.getLsbD_append]
  interval_cases i <;> simp

theorem chMask_getLsbD (c b : Fin 4) : (chMask c).getLsbD b.val = decide (b = c) := by
  revert c b
  decide

/-- Settles O5: the frame is the right-aligned word cut into its four bytes. -/
theorem pmuFrameLayout : Obligations.PmuFrameLayout := by
  refine ⟨fun dir mask mode data => ?_, chMask_getLsbD, rfl, rfl, rfl⟩
  rw [pmuFrame, bytesOf_four, pmuWord_setWidth]

/-! ### ADC and amplifier frames, 30_encoding.md R124 to R126 -/

theorem toNat_append_eq_add (x : BitVec m) (y : BitVec n) : (x ++ y).toNat = x.toNat * 2 ^ n + y.toNat := by
  rw [BitVec.toNat_append, ← Nat.shiftLeft_add_eq_or_of_lt y.isLt, Nat.shiftLeft_eq]

theorem adcCommand_toNat (dir : Dir) (addr : BitVec 6) : (adcCommand dir addr).toNat = dir.bit.toNat * 64 + addr.toNat := by
  rw [adcCommand, toNat_append_eq_add, toNat_append_eq_add]
  simp

theorem ampCommand_toNat (dir : Dir) (addr : BitVec 7) : (ampCommand dir addr).toNat = dir.bit.toNat * 128 + addr.toNat :=
  toNat_append_eq_add dir.bit addr

theorem frameCode_four (f0 f1 f2 f3 : Byte) : frameCode [f0, f1, f2, f3] = f0 ++ f1 ++ f2 := by
  rw [frameCode, packBytes_four]
  exact BitVec.extractLsb'_append_eq_left ..

theorem frameIndex_four (f0 f1 f2 f3 : Byte) : (frameIndex [f0, f1, f2, f3]).val = f3.toNat % 4 := by
  rw [frameIndex, packBytes_four]
  show (f0 ++ f1 ++ f2 ++ f3).toNat >>> 0 % 2 ^ 2 = f3.toNat % 4
  rw [toNat_append_eq_add]
  omega

/-! ### Amplifier registers, 30_encoding.md R128 to R130 -/

theorem gainMux_layout (ig : Fin 12) (og : Fin 3) :
    (gainMux ig og).extractLsb' 0 4 = BitVec.ofNat 4 ig.val ∧ (gainMux ig og).getLsbD 4 = og.val.testBit 0 ∧
      (gainMux ig og).extractLsb' 5 3 = 0 := by
  revert ig og
  decide

theorem testMux_layout (og : Fin 3) (p n : BitVec 2) :
    (testMux og p n).getLsbD 7 = og.val.testBit 1 ∧ (testMux og p n).extractLsb' 4 3 = 0 ∧
      (testMux og p n).extractLsb' 2 2 = p ∧ (testMux og p n).extractLsb' 0 2 = n := by
  revert og p n
  decide

/-- One bit per side, or bit 6 for SHORT on both. -/
theorem inMux_layout (p n : SwitchSel) (hshort : p = .short ↔ n = .short) :
    let v := inMux p n
    v.getLsbD 0 = decide (p = .in1) ∧ v.getLsbD 1 = decide (p = .in2) ∧ v.getLsbD 2 = decide (p = .test) ∧
    v.getLsbD 3 = decide (n = .in1) ∧ v.getLsbD 4 = decide (n = .in2) ∧ v.getLsbD 5 = decide (n = .test) ∧
    v.getLsbD 6 = decide (p = .short) ∧ v.getLsbD 7 = false := by
  cases p <;> cases n <;> revert hshort <;> decide

/-- Settles O6, one layout after the other. -/
theorem adcAndAmplifierFrameLayouts : Obligations.AdcAndAmplifierFrameLayouts := by
  refine ⟨fun addr => ⟨?_, ?_⟩, fun addr => ⟨?_, ?_⟩, fun f0 f1 f2 f3 => ⟨frameCode_four .., frameIndex_four ..⟩,
    gainMux_layout, testMux_layout, inMux_layout⟩
  · simp [adcCommand_toNat, Dir.bit]
  · simp [adcCommand_toNat, Dir.bit]
  · simp [ampCommand_toNat, Dir.bit]
  · simp [ampCommand_toNat, Dir.bit]

/-! ### The ADC input-pair register, 30_encoding.md R127 -/

/-- The register bit by bit: the three fields of the reference layout, and zeros between them. -/
theorem adcChannelReg_getLsbD (en : Bool) (pos neg : BitVec 5) (i : Nat) (hi : i < 16) :
    (adcChannelReg .reference en pos neg).getLsbD i =
      if i < 5 then neg.getLsbD i else if i < 10 then pos.getLsbD (i - 5) else if i < 15 then false else en := by
  simp only [adcChannelReg, getLsbD_setField _ _ _ i hi, AdcChLayout.reference]
  interval_cases i <;> simp

/-- Settles O7: each field read off the register's bits. -/
theorem adcInputPairLayout : Obligations.AdcInputPairLayout := by
  refine ⟨fun en pos neg => ⟨adcChannelReg_getLsbD en pos neg 15 (by decide), ?_, ?_, ?_⟩, rfl, rfl⟩
  all_goals
    apply BitVec.eq_of_getLsbD_eq
    intro i hi
    rw [BitVec.getLsbD_extractLsb', adcChannelReg_getLsbD en pos neg _ (by omega)]
    interval_cases i <;> rfl

end Sys2Proof.Machine
end

section
/-! Proofs, family 30_encoding.md (3): the operand forms, what each selects and which values it refuses. -/

namespace Sys2Proof.Machine

/-! ### The binary32 operand, 30_encoding.md R113 -/

/-- The magnitude the exponent and fraction fields of a finite pattern denote. -/
def magnitude32 (e : BitVec 8) (f : BitVec 23) : Rat :=
  ((if e.toNat = 0 then f.toNat * 2 else (f.toNat + 2 ^ 23) * 2 ^ e.toNat : Nat) : Rat) / ((2 ^ 150 : Nat) : Rat)

/-- The operand form read off the three fields of a pattern. -/
theorem binary32?_fields (neg : Bool) (e : BitVec 8) (f : BitVec 23) :
    binary32? (BitVec.ofBool neg ++ e ++ f) =
      if e.toNat = 255 then none else some (if neg then -magnitude32 e f else magnitude32 e f) := by
  have he : BitVec.extractLsb' 23 8 (BitVec.ofBool neg ++ e ++ f) = e := by
    apply BitVec.eq_of_getLsbD_eq
    intro i hi
    simp only [BitVec.getLsbD_extractLsb', BitVec.getLsbD_append]
    simp [hi]
  have hf : BitVec.extractLsb' 0 23 (BitVec.ofBool neg ++ e ++ f) = f := BitVec.extractLsb'_append_eq_right
  have hneg : BitVec.msb (n := 32) (BitVec.ofBool neg ++ e ++ f) = neg := by
    rw [BitVec.msb_eq_getLsbD_last, BitVec.getLsbD_append, BitVec.getLsbD_append]
    simp
  unfold binary32?
  simp only [he, hf, hneg]
  rfl

theorem magnitude32_subnormal {e : BitVec 8} (he : e = 0) (f : BitVec 23) : magnitude32 e f = f.toNat / 2 ^ 149 := by
  subst he
  simp only [magnitude32]
  push_cast
  ring

theorem magnitude32_normal {e : BitVec 8} (he : e ≠ 0) (f : BitVec 23) :
    magnitude32 e f = (2 ^ 23 + f.toNat) * 2 ^ e.toNat / 2 ^ 150 := by
  have he' : e.toNat ≠ 0 := fun h => he (BitVec.eq_of_toNat_eq h)
  simp only [magnitude32, if_neg he']
  push_cast
  ring

/-- Settles O48: the three ranges of the exponent field. -/
theorem binary32DenotesItsRational : Obligations.Binary32DenotesItsRational := by
  intro neg e f d sign
  have hd : binary32? d = if e.toNat = 255 then none else some (if neg then -magnitude32 e f else magnitude32 e f) :=
    binary32?_fields neg e f
  have hsign : ∀ q : Rat, (if neg then -q else q) = sign * q := by
    intro q
    cases neg <;> simp [sign]
  rw [hd, hsign]
  refine ⟨?nan, ?sub, ?normal⟩
  case nan => rintro rfl; rfl
  case sub =>
    rintro rfl
    rw [magnitude32_subnormal rfl]
    simp [mul_div_assoc]
  case normal =>
    intro h255 h0
    have h255' : e.toNat ≠ 255 := fun h => h255 (BitVec.eq_of_toNat_eq h)
    rw [if_neg h255', magnitude32_normal h0]
    congr 1
    ring

/-! ### What a field selects -/

theorem switchSel?_eq (v : BitVec 8) : switchSel? v = if v = 0 then some .in1 else if v = 1 then some .in2
    else if v = 2 then some .test else if v = 3 then some .short else none := by
  simp only [switchSel?, ← BitVec.toNat_inj]
  rcases v.toNat with _ | _ | _ | _ | n <;> simp

/-! ### Which values a form refuses: the checks of WellFormed -/

open WellFormed

theorem bits?_isSome (n : Nat) (v : BitVec w) : (bits? n v).isSome = fits n v := by
  simp only [bits?, fits]
  split <;> simp_all

theorem index?_isSome (n : Nat) (v : BitVec w) : (index? n v).isSome = below n v := by
  simp only [index?, below]
  split <;> simp_all

theorem bytesValue?_isSome (nb : Nat) (v : BitVec 32) : (bytesValue? nb v).isSome = fits (8 * nb) v := by
  simp only [bytesValue?, fits]
  split <;> simp_all

theorem channel?_isSome : ∀ ch, (channel? ch).isSome = channel4 ch := by decide

theorem smuChannel?_isSome : ∀ ch, (smuChannel? ch).isSome = smuChannel ch := by decide

theorem dir?_isSome : ∀ sel, (dir? sel).isSome = fits 1 sel := by decide

theorem flag?_isSome : ∀ sel, (flag? sel).isSome = fits 1 sel := by decide

theorem chanState?_isSome : ∀ sel, (chanState? sel).isSome = below 3 sel := by decide

theorem forceMode?_isSome : ∀ sel, (forceMode? sel).isSome = below 2 sel := by decide

theorem enableState?_isSome : ∀ sel, (enableState? sel).isSome = below 3 sel := by decide

theorem role?_isSome : ∀ sel, (role? sel).isSome = below 6 sel := by decide

theorem hwRange?_isSome : ∀ sel, (hwRange? sel).isSome = below 5 sel := by decide

theorem byteCount?_isSome : ∀ sel, (byteCount? sel).isSome = byteCount sel := by decide

theorem measKind?_isSome : ∀ sel, (measKind? sel).isSome = below 2 sel := by decide

theorem binary32?_isSome (d : BitVec 32) : (binary32? d).isSome = finite32 d := by
  have h255 : (d.extractLsb' 23 8).toNat = 255 ↔ d.extractLsb' 23 8 = 0xFF := BitVec.toNat_inj (y := 0xFF#8)
  simp only [binary32?, finite32, h255]
  split <;> simp_all

theorem switchSel?_isSome (v : BitVec 8) : (switchSel? v).isSome = below 4 v := by
  simp only [switchSel?, below]
  rcases v.toNat with _ | _ | _ | _ | n <;> simp

theorem switchSel?_short {v : BitVec 8} {a : SwitchSel} (h : switchSel? v = some a) : a = .short ↔ v = 3 := by
  rw [switchSel?_eq] at h
  split_ifs at h <;> cases h <;> simp_all

theorem switchPair?_isSome (p n : BitVec 8) :
    (switchPair? p n).isSome = (below 4 p && below 4 n && shortTogether p n) := by
  rw [← switchSel?_isSome, ← switchSel?_isSome]
  unfold switchPair? shortTogether
  split
  next a b ha hb =>
    simp only [ha, hb, switchSel?_short ha, switchSel?_short hb]
    split <;> simp_all
  next hno =>
    cases hp : switchSel? p with
    | none => rfl
    | some a =>
      cases hn : switchSel? n with
      | none => rfl
      | some b => exact (hno a b hp hn).elim

/-- Every operand form of the command selects something. -/
def operandsSelect : Instr → Bool
  | .pmuInit | .adcStart | .adcStop | .ampInit | .smuPublishTick | .smuQueueFullUpdate => true
  | .pmuTransact _ dir mode data => (dir? dir).isSome && (bits? 2 mode).isSome && (bits? 22 data).isSome
  | .pmuWriteSysctrl value => (bits? 22 value).isSome
  | .pmuWriteChctrl channel value => (channel? channel).isSome && (bits? 22 value).isSome
  | .pmuSetChstate channel state => (channel? channel).isSome && (chanState? state).isSome
  | .pmuSetMode channel mode => (channel? channel).isSome && (forceMode? mode).isSome
  | .pmuSetRange channel code => (channel? channel).isSome && (hwRange? code).isSome
  | .pmuSetDac channel subaddr code =>
    (channel? channel).isSome && (bits? 6 subaddr).isSome && (bits? 16 code).isSome
  | .adcConfigCh channel enable pos neg =>
    (channel? channel).isSome && (flag? enable).isSome && (bits? 5 pos).isSome && (bits? 5 neg).isSome
  | .adcWriteReg nbytes addr value =>
    (byteCount? nbytes).isSome && (bits? 6 addr).isSome && (bytesValue? nbytes.toNat value).isSome
  | .adcReadReg nbytes addr => (byteCount? nbytes).isSome && (bits? 6 addr).isSome
  | .ampSetGain ig og => (index? 12 ig).isSome && (index? 3 og).isSome
  | .ampSetSwitch p n => (switchPair? p n).isSome
  | .ampSetTestmux p n => (bits? 2 p).isSome && (bits? 2 n).isSome
  | .ampWriteReg addr value => (bits? 7 addr).isSome && (bits? 8 value).isSome
  | .ampReadReg addr => (bits? 7 addr).isSome
  | .smuSetValue channel role value => (smuChannel? channel).isSome && (role? role).isSome && (binary32? value).isSome
  | .smuSetRange channel range => (smuChannel? channel).isSome && (index? 6 range).isSome
  | .smuSetMode channel mode => (smuChannel? channel).isSome && (forceMode? mode).isSome
  | .smuSetState channel state => (smuChannel? channel).isSome && (enableState? state).isSome
  | .smuValueToCode channel role range value =>
    (smuChannel? channel).isSome && (role? role).isSome && (index? 6 range).isSome && (binary32? value).isSome
  | .smuCodeToValue channel kind range code =>
    (smuChannel? channel).isSome && (measKind? kind).isSome && (index? 6 range).isSome && (bits? 24 code).isSome

/-- A command is well-formed exactly when its operand forms select something: the checks of WellFormed form by form. -/
theorem wellFormed_eq_operandsSelect (i : Instr) : i.wellFormed = operandsSelect i := by
  cases i <;>
    simp only [Instr.wellFormed, operandsSelect, bits?_isSome, index?_isSome, bytesValue?_isSome, channel?_isSome,
      smuChannel?_isSome, dir?_isSome, flag?_isSome, chanState?_isSome, forceMode?_isSome, enableState?_isSome, role?_isSome,
      hwRange?_isSome, byteCount?_isSome, measKind?_isSome, binary32?_isSome, switchPair?_isSome]
  case ampSetTestmux => rfl

end Sys2Proof.Machine
end

section
/-! Proofs, family 30_encoding.md (4): the one result of a command. An ill-formed command answers InvalidArgument and does
nothing else; a well-formed one answers a value of its kind or a failure code of its row that is not InvalidArgument, unless a
scheduled reset cuts it. -/

namespace Sys2Proof.Machine

/-! ### A command in progress and its answer -/

/-- `t` is a state that a command in progress in `s` reaches without an answer. -/
structure Unanswered (s t : State) : Prop where
  op : t.cmd.op = s.cmd.op
  results : t.results = s.results
  sched : t.env.sched <:+ s.env.sched

theorem Unanswered.trans {s t u : State} (h : Unanswered s t) (k : Unanswered t u) : Unanswered s u :=
  ⟨k.op.trans h.op, k.results.trans h.results, k.sched.trans h.sched⟩

theorem Unanswered.setPmu (x : PmuState) (s : State) : Unanswered s (s.setPmu x) := ⟨rfl, rfl, List.suffix_rfl⟩

theorem Worked.unanswered {s t : State} {l : List (List Byte)} (h : Worked s t l) : Unanswered s t :=
  ⟨h.op, h.results, h.sched⟩

/-- A command in progress in `s` is over in `t`: it has added one result, which `R` allows, or a scheduled reset cut it. -/
inductive Answered (R : Result → Bool) (s t : State) : Prop
  | returned (r : Result) (hr : R r = true) (ht : t.results = s.results ++ [r])
  | cut (hsched : Move.reset ∈ s.env.sched) (ht : t.results = s.results) (hblock : BlockReset t)

theorem Answered.after {R : Result → Bool} {s t u : State} (hst : Unanswered s t) (h : Answered R t u) : Answered R s u := by
  cases h with
  | returned r hr hu => exact .returned r hr (hst.results ▸ hu)
  | cut hsched hu hblock => exact .cut (hst.sched.subset hsched) (hu.trans hst.results) hblock

theorem endCommand_answered {R : Result → Bool} {r : Result} {s t : State} (hr : R r = true) (ht : t.results = s.results) :
    Answered R s (endCommand r t) :=
  .returned r hr (by rw [← ht]; rfl)

theorem Cut.answered {R : Result → Bool} {s t : State} {l : List (List Byte)} (h : Cut s t l) : Answered R s t :=
  .cut h.scheduled h.results h.block

/-! ### Parts of commands -/

/-- What a part of a command in progress does from `s`: it runs on without an answer, if `goes` allows that, or the command is
over with an answer `R` allows. A whole body has `goes := False`. -/
def Yields (R : Result → Bool) (s : State) (f : Flow α) (goes : Prop) : Prop :=
  s.cmd.op ≠ none →
  match f with
  | .go _ t => goes ∧ Unanswered s t
  | .ended t => Answered R s t

section
variable {R : Result → Bool} {s t : State} {goes : Prop}

theorem Yields.after {f : Flow α} (hst : Unanswered s t) (h : Yields R t f goes) : Yields R s f goes := by
  intro hs
  have h := h (hst.op ▸ hs)
  cases f with
  | go a u =>
    obtain ⟨hgo, htu⟩ := h
    exact ⟨hgo, hst.trans htu⟩
  | ended u => exact Answered.after hst h

/-- Two parts of a command in a row. -/
theorem Yields.bind {f : Flow α} {g : α → State → Flow β} {p : Prop} (hf : Yields R s f p)
    (hg : ∀ a t, Yields R t (g a t) goes) : Yields R s (f.bind g) goes := by
  intro hs
  cases f with
  | go a t =>
    obtain ⟨-, hst⟩ := hf hs
    exact (hg a t).after hst hs
  | ended t => exact hf hs

/-- A transfer and what follows its success and its failure. -/
theorem Yields.bindXfer {f : Flow XferResult} {g : XferResult → State → Flow β} {p : Prop} (hf : Yields R s f p)
    (hok : ∀ bs t, Yields R t (g (.ok bs) t) goes) (herr : ∀ t, Yields R t (g .busError t) goes) :
    Yields R s (f.bind g) goes :=
  .bind hf fun r t => match r with
    | .ok bs => hok bs t
    | .busError => herr t

/-- A success, in whatever state the command's last write has made. -/
theorem Yields.ret {v : Value} (hv : R (.ok v) = true) (ht : t.results = s.results) :
    Yields R s (ret v t : Flow α) goes :=
  fun _ => endCommand_answered hv ht

theorem Yields.raise {c : FailCode} (hc : R (.fail c) = true) (ht : t.results = s.results) :
    Yields R s (raise c t : Flow α) goes :=
  fun _ => endCommand_answered hc ht

theorem Yields.need {c : FailCode} {holds : Bool} (hc : R (.fail c) = true) : Yields R s (need c holds s) True := by
  unfold Machine.need
  split
  · exact fun _ => ⟨trivial, rfl, rfl, List.suffix_rfl⟩
  · exact .raise hc rfl

theorem Yields.pmuTx {dir : Dir} {mask : BitVec 4} {mode : BitVec 2} {data : BitVec 22} :
    Yields R s (prim (pmuTx dir mask mode data) s) True := by
  intro hs
  rcases prim_pmuTx_spec dir mask mode data s hs with ⟨r, t, h, hw, -⟩ | ⟨t, h, hc⟩
  · rw [h]; exact ⟨trivial, hw.unanswered⟩
  · rw [h]; exact hc.answered

theorem Yields.xfer {dev : Dev} {out : List Byte} {nIn : Nat} (hd : dev ≠ .pmu) :
    Yields R s (prim (withBus .cmd (spiXfer dev out nIn)) s) True := by
  intro hs
  rcases prim_xfer_spec dev hd out nIn s hs with ⟨r, t, h, hw, -⟩ | ⟨t, h, hc⟩
  · rw [h]; exact ⟨trivial, hw.unanswered⟩
  · rw [h]; exact hc.answered

/-- Primitive 1 of PMU_INIT, 40_pmu.md R150. -/
theorem Yields.pmuSettle : Yields R s (prim pmuSettle s) True := by
  intro hs
  have hw := Worked.pmuSettle s
  rcases prim_spec Machine.pmuSettle s (hw.op ▸ hs) with ⟨t, h, hi, hsched⟩ | ⟨t, h, hc, hreset⟩
  · rw [h]; exact ⟨trivial, (hw.interfered hi hsched).unanswered⟩
  · rw [h]; exact .cut (hw.sched.subset hreset) (hc.results.trans hw.results) hc.block

/-! ### The write procedures fail with VerifyFailed only, 90_conflicts.md C10 -/

theorem Yields.of_does {f : Flow Unit} {l : List (List Byte)} {p : PmuState} {q : List (List Byte) → PmuState → Prop}
    (hv : R (.fail .verifyFailed) = true) (h : s.cmd.op ≠ none → Does f s l p q) : Yields R s f True := by
  intro hs
  rcases h hs with ⟨t, rfl, hw, -⟩ | ⟨t, m, rfl, hw, -⟩ | ⟨t, m, rfl, hc, -⟩
  · exact ⟨trivial, hw.unanswered⟩
  · exact endCommand_answered hv hw.results
  · exact hc.answered

theorem Yields.writeVerifyReg {mask : BitVec 4} {v echo : BitVec 22} (hv : R (.fail .verifyFailed) = true) :
    Yields R s (writeVerifyReg mask v echo s) True := .of_does hv (writeVerifyReg_does mask v echo s)

theorem Yields.writeVerifyDac {c : Fin 4} {sub : BitVec 6} {code : BitVec 16} (hv : R (.fail .verifyFailed) = true) :
    Yields R s (writeVerifyDac c sub code s) True := .of_does hv (writeVerifyDac_does c sub code s)

/-- The commit rule of 40_pmu.md R144, with its uses `initChannel`, `updateChState`, `updateMode`, `updateRange`, `rangeW`,
`modeW` and `stateW`. -/
theorem Yields.updateCh {c : Fin 4} {v : BitVec 22} (hv : R (.fail .verifyFailed) = true) :
    Yields R s (updateCh c v s) True := .of_does hv (updateCh_does c v s)

theorem Yields.writeVerifyAmp {addr : BitVec 7} {v : Byte} (hv : R (.fail .verifyFailed) = true) :
    Yields R s (writeVerifyAmp addr v s) True := .of_does hv (writeVerifyAmp_does addr v s)

theorem Yields.dacW {c : Fin 1} {role : Role} {r : Range} (hv : R (.fail .verifyFailed) = true) :
    Yields R s (dacW c role r s) True := .writeVerifyDac hv

theorem Yields.clampsW {c : Fin 1} {r : Range} (hv : R (.fail .verifyFailed) = true) : Yields R s (clampsW c r s) True :=
  .bind (.dacW hv) fun _ _ => .dacW hv

theorem Yields.switchRangeFv {c : Fin 1} {r r' : Range} (hv : R (.fail .verifyFailed) = true) :
    Yields R s (switchRangeFv c r r' s) True := by
  unfold Machine.switchRangeFv
  split
  · exact .bind (.clampsW hv) fun _ _ => .updateCh hv
  · exact .bind (.updateCh hv) fun _ _ => .clampsW hv

theorem Yields.switchRangeFi {c : Fin 1} {r r' : Range} (hv : R (.fail .verifyFailed) = true) :
    Yields R s (switchRangeFi c r r' s) True := by
  unfold Machine.switchRangeFi
  split
  · exact .bind (.dacW hv) fun _ _ => .bind (.updateCh hv) fun _ _ => .dacW hv
  split
  · exact .bind (.dacW hv) fun _ _ => .updateCh hv
  · exact .bind (.updateCh hv) fun _ _ => .dacW hv

theorem Yields.switchRange {c : Fin 1} {r : Range} (hv : R (.fail .verifyFailed) = true) :
    Yields R s (switchRange c r s) True := by
  unfold Machine.switchRange
  split
  · exact .switchRangeFv hv
  · exact .switchRangeFi hv

theorem Yields.pushMode {c : Fin 1} {m : ForceMode} (hv : R (.fail .verifyFailed) = true) :
    Yields R s (pushMode c m s) True :=
  .bind (.dacW hv) fun _ _ => .bind (.dacW hv) fun _ _ => .dacW hv

end

/-! ### Legal and illegal operands -/

/-- A result a well-formed command may return: a value of its kind (30_encoding.md R111), or a failure code of its row of
60_exceptions.md R400 other than InvalidArgument. -/
def mayReturn (i : Instr) : Result → Bool
  | .ok v => returnsKind i v
  | .fail c => (failCodes i).contains c && c != .invalidArgument

/-- The body of a command, run from `s`: it refuses its operands at once, or its operand forms all select something and it
goes on to an answer. -/
inductive Checked (i : Instr) (s : State) : Flow Unit → Prop
  | illegal (h : operandsSelect i = false) : Checked i s (raise .invalidArgument s)
  | legal {f : Flow Unit} (h : operandsSelect i = true) (hf : Yields (mayReturn i) s f False) : Checked i s f

/-- How a command `i` accepted in `s` answers. -/
inductive Answers (i : Instr) (s : State) : Host.Outcome State Fault Refusal → Prop
  | illFormed (h : i.wellFormed = false) : Answers i s (.next (afterResult s (.fail .invalidArgument)))
  | wellFormed {t : State} (h : i.wellFormed = true) (ht : Answered (mayReturn i) s t) : Answers i s (.next t)

theorem runCommand_answers {i : Instr} {body : State → Flow Unit} {s : State} (h : ∀ u, Checked i u (body u)) :
    Answers i s (runCommand i body s) := by
  have hwf := wellFormed_eq_operandsSelect i
  have hc := h (s.setCmd ⟨some i, 0⟩)
  unfold runCommand
  cases hf : body (s.setCmd ⟨some i, 0⟩)
  all_goals rw [hf] at hc; cases hc
  case go.legal ho hy => exact (hy (Option.some_ne_none i)).1.elim
  case ended.illegal ho => exact .illFormed (hwf.trans ho)
  case ended.legal ho hy =>
    refine .wellFormed (hwf.trans ho) ?_
    cases hy (Option.some_ne_none i) with
    | returned r hr ht => exact .returned r hr ht
    | cut hsched ht hblock => exact .cut hsched ht hblock

section
variable {a : Option α} {b : Option β} {c : Option γ} {d : Option δ}

theorem isSome_eq_false (h : ∀ x, a = some x → False) : a.isSome = false := by
  cases a with
  | none => rfl
  | some x => exact (h x rfl).elim

theorem isSome₂_eq_false (h : ∀ x y, a = some x → b = some y → False) : (a.isSome && b.isSome) = false := by
  cases b with
  | none => exact Bool.and_false _
  | some y => rw [isSome_eq_false fun x hx => h x y hx rfl]; rfl

theorem isSome₃_eq_false (h : ∀ x y z, a = some x → b = some y → c = some z → False) :
    (a.isSome && b.isSome && c.isSome) = false := by
  cases c with
  | none => exact Bool.and_false _
  | some z => rw [isSome₂_eq_false fun x y hx hy => h x y z hx hy rfl]; rfl

theorem isSome₄_eq_false (h : ∀ x y z u, a = some x → b = some y → c = some z → d = some u → False) :
    (a.isSome && b.isSome && c.isSome && d.isSome) = false := by
  cases d with
  | none => exact Bool.and_false _
  | some u => rw [isSome₃_eq_false fun x y z hx hy hz => h x y z u hx hy hz rfl]; rfl

end

/-! ### The commands -/

theorem byteCount?_eq_some {sel : BitVec 4} {nb : Nat} (h : byteCount? sel = some nb) : nb = sel.toNat := by
  unfold byteCount? at h
  split at h <;> cases h
  rfl

@[simp] theorem drain_results (s : State) : (drain s).results = s.results := by rw [drain_spec]; rfl

theorem execPmuInit_answers (s : State) : Answers .pmuInit s (execPmuInit s) :=
  runCommand_answers fun _ => .legal rfl <|
    .bind .pmuSettle fun _ _ => .bind (.need rfl) fun _ _ =>
    .bind (.writeVerifyReg rfl) fun _ s =>
    .bind (.after (.setPmu _ s) (.after (.setPmu _ _) (.updateCh rfl))) fun _ _ =>
    .bind (.updateCh rfl) fun _ _ => .bind (.updateCh rfl) fun _ _ => .bind (.updateCh rfl) fun _ _ => .ret rfl rfl

theorem execPmuTransact_answers (chmask dir : BitVec 4) (mode : BitVec 8) (data : BitVec 32) (s : State) :
    Answers (.pmuTransact chmask dir mode data) s (execPmuTransact chmask dir mode data s) := by
  refine runCommand_answers fun s => ?_
  split
  next d m v hd hm hv =>
    refine .legal (by simp [operandsSelect, hd, hm, hv]) (.bind .pmuTx fun r _ => ?_)
    cases r with
    | ok w => exact .ret rfl rfl
    | busError => exact .raise rfl rfl
    | busy => exact .raise rfl rfl
  next hno => exact .illegal (isSome₃_eq_false hno)

theorem execPmuWriteSysctrl_answers (value : BitVec 32) (s : State) :
    Answers (.pmuWriteSysctrl value) s (execPmuWriteSysctrl value s) := by
  refine runCommand_answers fun s => ?_
  split
  next v hv => exact .legal (by simp [operandsSelect, hv]) (.bind (.writeVerifyReg rfl) fun _ _ => .ret rfl rfl)
  next hno => exact .illegal (by simp [operandsSelect, hno])

theorem execPmuWriteChctrl_answers (channel : BitVec 4) (value : BitVec 32) (s : State) :
    Answers (.pmuWriteChctrl channel value) s (execPmuWriteChctrl channel value s) := by
  refine runCommand_answers fun s => ?_
  split
  next c v hc hv =>
    exact .legal (by simp [operandsSelect, hc, hv]) (.bind (.updateCh rfl) fun _ _ => .ret rfl rfl)
  next hno => exact .illegal (isSome₂_eq_false hno)

theorem execPmuSetChstate_answers (channel state : BitVec 4) (s : State) :
    Answers (.pmuSetChstate channel state) s (execPmuSetChstate channel state s) := by
  refine runCommand_answers fun s => ?_
  split
  next c st hc hst =>
    exact .legal (by simp [operandsSelect, hc, hst]) (.bind (.updateCh rfl) fun _ _ => .ret rfl rfl)
  next hno => exact .illegal (isSome₂_eq_false hno)

theorem execPmuSetMode_answers (channel mode : BitVec 4) (s : State) :
    Answers (.pmuSetMode channel mode) s (execPmuSetMode channel mode s) := by
  refine runCommand_answers fun s => ?_
  split
  next c m hc hm =>
    exact .legal (by simp [operandsSelect, hc, hm]) (.bind (.updateCh rfl) fun _ _ => .ret rfl rfl)
  next hno => exact .illegal (isSome₂_eq_false hno)

theorem execPmuSetRange_answers (channel code : BitVec 4) (s : State) :
    Answers (.pmuSetRange channel code) s (execPmuSetRange channel code s) := by
  refine runCommand_answers fun s => ?_
  split
  next c hw hc hhw =>
    exact .legal (by simp [operandsSelect, hc, hhw]) (.bind (.updateCh rfl) fun _ _ => .ret rfl rfl)
  next hno => exact .illegal (isSome₂_eq_false hno)

theorem execPmuSetDac_answers (channel : BitVec 4) (subaddr : BitVec 8) (code : BitVec 32) (s : State) :
    Answers (.pmuSetDac channel subaddr code) s (execPmuSetDac channel subaddr code s) := by
  refine runCommand_answers fun s => ?_
  split
  next c sub v hc hsub hv =>
    exact .legal (by simp [operandsSelect, hc, hsub, hv]) (.bind (.writeVerifyDac rfl) fun _ _ => .ret rfl rfl)
  next hno => exact .illegal (isSome₃_eq_false hno)

theorem execAdcStart_answers (s : State) : Answers .adcStart s (execAdcStart s) :=
  runCommand_answers fun _ => .legal rfl (.ret rfl rfl)

theorem execAdcStop_answers (s : State) : Answers .adcStop s (execAdcStop s) :=
  runCommand_answers fun _ => .legal rfl (.ret rfl rfl)

theorem execAdcConfigCh_answers (channel enable : BitVec 4) (pos neg : BitVec 8) (s : State) :
    Answers (.adcConfigCh channel enable pos neg) s (execAdcConfigCh channel enable pos neg s) := by
  refine runCommand_answers fun s => ?_
  split
  next n en p q hn hen hp hq =>
    exact .legal (by simp [operandsSelect, hn, hen, hp, hq])
      (.bindXfer (.xfer (by decide)) (fun _ _ => .ret rfl rfl) fun _ => .raise rfl rfl)
  next hno => exact .illegal (isSome₄_eq_false hno)

theorem execAdcWriteReg_answers (nbytes : BitVec 4) (addr : BitVec 8) (value : BitVec 32) (s : State) :
    Answers (.adcWriteReg nbytes addr value) s (execAdcWriteReg nbytes addr value s) := by
  refine runCommand_answers fun s => ?_
  split
  next nb a hnb ha =>
    obtain rfl := byteCount?_eq_some hnb
    split
    next v hv =>
      exact .legal (by simp [operandsSelect, hnb, ha, hv])
        (.bindXfer (.xfer (by decide)) (fun _ _ => .ret rfl rfl) fun _ => .raise rfl rfl)
    next hv => exact .illegal (by simp [operandsSelect, hv])
  next hno => exact .illegal (isSome₃_eq_false fun nb a _ hnb ha _ => hno nb a hnb ha)

theorem execAdcReadReg_answers (nbytes : BitVec 4) (addr : BitVec 8) (s : State) :
    Answers (.adcReadReg nbytes addr) s (execAdcReadReg nbytes addr s) := by
  refine runCommand_answers fun s => ?_
  split
  next nb a hnb ha =>
    exact .legal (by simp [operandsSelect, hnb, ha])
      (.bindXfer (.xfer (by decide)) (fun _ _ => .ret rfl rfl) fun _ => .raise rfl rfl)
  next hno => exact .illegal (isSome₂_eq_false hno)

theorem execAmpInit_answers (s : State) : Answers .ampInit s (execAmpInit s) := by
  refine runCommand_answers fun _ => .legal rfl (.bindXfer (.xfer (by decide)) (fun bs _ => ?_) fun _ => .raise rfl rfl)
  dsimp only
  split
  · exact .bind (.writeVerifyAmp rfl) fun _ _ => .ret rfl rfl
  · exact .raise rfl rfl

theorem execAmpSetGain_answers (ig og : BitVec 8) (s : State) :
    Answers (.ampSetGain ig og) s (execAmpSetGain ig og s) := by
  refine runCommand_answers fun s => ?_
  split
  next i o hi ho =>
    exact .legal (by simp [operandsSelect, hi, ho])
      (.bind (.writeVerifyAmp rfl) fun _ _ => .bind (.writeVerifyAmp rfl) fun _ _ => .ret rfl rfl)
  next hno => exact .illegal (isSome₂_eq_false hno)

theorem execAmpSetSwitch_answers (p n : BitVec 8) (s : State) :
    Answers (.ampSetSwitch p n) s (execAmpSetSwitch p n s) := by
  refine runCommand_answers fun s => ?_
  split
  next a b hab =>
    exact .legal (by simp [operandsSelect, hab]) (.bind (.writeVerifyAmp rfl) fun _ _ => .ret rfl rfl)
  next hno => exact .illegal (by simp [operandsSelect, hno])

theorem execAmpSetTestmux_answers (p n : BitVec 8) (s : State) :
    Answers (.ampSetTestmux p n) s (execAmpSetTestmux p n s) := by
  refine runCommand_answers fun s => ?_
  split
  next a b ha hb =>
    exact .legal (by simp [operandsSelect, ha, hb]) (.bind (.writeVerifyAmp rfl) fun _ _ => .ret rfl rfl)
  next hno => exact .illegal (isSome₂_eq_false hno)

theorem execAmpWriteReg_answers (addr : BitVec 8) (value : BitVec 32) (s : State) :
    Answers (.ampWriteReg addr value) s (execAmpWriteReg addr value s) := by
  refine runCommand_answers fun s => ?_
  split
  next a v ha hv =>
    exact .legal (by simp [operandsSelect, ha, hv])
      (.bindXfer (.xfer (by decide)) (fun _ _ => .ret rfl rfl) fun _ => .raise rfl rfl)
  next hno => exact .illegal (isSome₂_eq_false hno)

theorem execAmpReadReg_answers (addr : BitVec 8) (s : State) :
    Answers (.ampReadReg addr) s (execAmpReadReg addr s) := by
  refine runCommand_answers fun s => ?_
  split
  next a ha =>
    exact .legal (by simp [operandsSelect, ha])
      (.bindXfer (.xfer (by decide)) (fun _ _ => .ret rfl rfl) fun _ => .raise rfl rfl)
  next hno => exact .illegal (by simp [operandsSelect, hno])

theorem execSmuSetValue_answers (channel role : BitVec 4) (value : BitVec 32) (s : State) :
    Answers (.smuSetValue channel role value) s (execSmuSetValue channel role value s) := by
  refine runCommand_answers fun s => ?_
  split
  next c ro x hc hro hx =>
    refine .legal (by simp [operandsSelect, hc, hro, hx]) ?_
    dsimp only
    split
    · exact .bind (.writeVerifyDac rfl) fun _ _ => .ret rfl rfl
    · exact .ret rfl rfl
  next hno => exact .illegal (isSome₃_eq_false hno)

theorem execSmuSetRange_answers (channel range : BitVec 4) (s : State) :
    Answers (.smuSetRange channel range) s (execSmuSetRange channel range s) := by
  refine runCommand_answers fun s => ?_
  split
  next c r hc hr =>
    refine .legal (by simp [operandsSelect, hc, hr]) ?_
    split
    · exact .ret rfl rfl
    · exact .bind (.switchRange rfl) fun _ _ => .ret rfl rfl
  next hno => exact .illegal (isSome₂_eq_false hno)

theorem execSmuSetMode_answers (channel mode : BitVec 4) (s : State) :
    Answers (.smuSetMode channel mode) s (execSmuSetMode channel mode s) := by
  refine runCommand_answers fun s => ?_
  split
  next c m hc hm =>
    refine .legal (by simp [operandsSelect, hc, hm]) ?_
    split
    · exact .ret rfl rfl
    · exact .bind (.pushMode rfl) fun _ _ => .bind (.updateCh rfl) fun _ _ => .ret rfl rfl
  next hno => exact .illegal (isSome₂_eq_false hno)

theorem execSmuSetState_answers (channel state : BitVec 4) (s : State) :
    Answers (.smuSetState channel state) s (execSmuSetState channel state s) := by
  refine runCommand_answers fun s => ?_
  split
  next c st hc hst =>
    refine .legal (by simp [operandsSelect, hc, hst]) ?_
    split
    · exact .ret rfl rfl
    · exact .bind (.updateCh rfl) fun _ _ => .ret rfl rfl
  next hno => exact .illegal (isSome₂_eq_false hno)

theorem execSmuValueToCode_answers (channel role : BitVec 4) (range : BitVec 8) (value : BitVec 32) (s : State) :
    Answers (.smuValueToCode channel role range value) s (execSmuValueToCode channel role range value s) := by
  refine runCommand_answers fun s => ?_
  split
  next c ro r x hc hro hr hx =>
    exact .legal (by simp [operandsSelect, hc, hro, hr, hx]) (.ret rfl rfl)
  next hno => exact .illegal (isSome₄_eq_false hno)

theorem execSmuCodeToValue_answers (channel kind : BitVec 4) (range : BitVec 8) (code : BitVec 32) (s : State) :
    Answers (.smuCodeToValue channel kind range code) s (execSmuCodeToValue channel kind range code s) := by
  refine runCommand_answers fun s => ?_
  split
  next c r v hc hk hr hv => exact .legal (by simp [operandsSelect, hc, hk, hr, hv]) (.ret rfl rfl)
  next c r v hc hk hr hv => exact .legal (by simp [operandsSelect, hc, hk, hr, hv]) (.ret rfl rfl)
  next hnoV hnoC =>
    refine .illegal (isSome₄_eq_false fun c k r v hc hk hr hv => ?_)
    cases k with
    | voltage => exact hnoV c r v hc hk hr hv
    | current => exact hnoC c r v hc hk hr hv

theorem execSmuPublishTick_answers (s : State) : Answers .smuPublishTick s (execSmuPublishTick s) :=
  runCommand_answers fun s => .legal rfl (.ret rfl (drain_results s))

theorem execSmuQueueFullUpdate_answers (s : State) : Answers .smuQueueFullUpdate s (execSmuQueueFullUpdate s) :=
  runCommand_answers fun _ => .legal rfl (.ret rfl rfl)

/-- Every command answers, for every operand, device and schedule. -/
theorem exec_answers (i : Instr) (s : State) : Answers i s (exec i s) := by
  cases i with
  | pmuInit => exact execPmuInit_answers s
  | pmuTransact => exact execPmuTransact_answers ..
  | pmuWriteSysctrl => exact execPmuWriteSysctrl_answers ..
  | pmuWriteChctrl => exact execPmuWriteChctrl_answers ..
  | pmuSetChstate => exact execPmuSetChstate_answers ..
  | pmuSetMode => exact execPmuSetMode_answers ..
  | pmuSetRange => exact execPmuSetRange_answers ..
  | pmuSetDac => exact execPmuSetDac_answers ..
  | adcStart => exact execAdcStart_answers s
  | adcStop => exact execAdcStop_answers s
  | adcConfigCh => exact execAdcConfigCh_answers ..
  | adcWriteReg => exact execAdcWriteReg_answers ..
  | adcReadReg => exact execAdcReadReg_answers ..
  | ampInit => exact execAmpInit_answers s
  | ampSetGain => exact execAmpSetGain_answers ..
  | ampSetSwitch => exact execAmpSetSwitch_answers ..
  | ampSetTestmux => exact execAmpSetTestmux_answers ..
  | ampWriteReg => exact execAmpWriteReg_answers ..
  | ampReadReg => exact execAmpReadReg_answers ..
  | smuSetValue => exact execSmuSetValue_answers ..
  | smuSetRange => exact execSmuSetRange_answers ..
  | smuSetMode => exact execSmuSetMode_answers ..
  | smuSetState => exact execSmuSetState_answers ..
  | smuValueToCode => exact execSmuValueToCode_answers ..
  | smuCodeToValue => exact execSmuCodeToValue_answers ..
  | smuPublishTick => exact execSmuPublishTick_answers s
  | smuQueueFullUpdate => exact execSmuQueueFullUpdate_answers s

/-! ### The obligations -/

theorem invalidArgument_mem_failCodes {i : Instr} (h : i.wellFormed = false) : .invalidArgument ∈ failCodes i := by
  cases i with
  | pmuInit | adcStart | adcStop | ampInit | smuPublishTick | smuQueueFullUpdate => cases h
  | _ => exact List.mem_cons_self

/-- Settles O11: an ill-formed command answers InvalidArgument, which is in its row of R400; a well-formed one answers what
`mayReturn` allows, or a reset cuts it. -/
theorem everyCommandReturnsOneResult : Obligations.EveryCommandReturnsOneResult := by
  intro i s t h
  have ha := exec_answers i s
  rw [h] at ha
  cases ha with
  | illFormed hwf => exact .inr (.inl ⟨.invalidArgument, invalidArgument_mem_failCodes hwf, rfl⟩)
  | wellFormed _ ht =>
    cases ht with
    | cut hsched ht hblock => exact .inr (.inr ⟨hsched, ht, hblock⟩)
    | returned r hr ht =>
      cases r with
      | ok v => exact .inl ⟨v, hr, ht⟩
      | fail c =>
        have hc : c ∈ failCodes i := by simpa using (Bool.and_eq_true_iff.1 hr).1
        exact .inr (.inl ⟨c, hc, ht⟩)

/-- An ill-formed command does nothing but return InvalidArgument. -/
theorem exec_illFormed {i : Instr} (s : State) (h : i.wellFormed = false) :
    exec i s = .next (afterResult s (.fail .invalidArgument)) := by
  have ha := exec_answers i s
  generalize exec i s = o at ha
  cases ha with
  | illFormed _ => rfl
  | wellFormed hwf _ => rw [h] at hwf; cases hwf

/-- A well-formed command never returns InvalidArgument. -/
theorem exec_wellFormed {i : Instr} {s t : State} (h : i.wellFormed = true) (ht : exec i s = .next t) :
    t.results ≠ s.results ++ [.fail .invalidArgument] := by
  have ha := exec_answers i s
  rw [ht] at ha
  intro hinv
  cases ha with
  | illFormed hwf => rw [h] at hwf; cases hwf
  | wellFormed _ hans =>
    cases hans with
    | cut _ hres _ => simp [hres] at hinv
    | returned r hr hres =>
      obtain rfl : r = .fail .invalidArgument := by simpa [hres] using hinv
      simp [mayReturn] at hr

/-- Settles O10: the two halves of `exec_answers`, and the tables of the operand forms. -/
theorem invalidArgumentExactlyOnIllegalOperands : Obligations.InvalidArgumentExactlyOnIllegalOperands :=
  ⟨fun _ s h => exec_illFormed s h, fun _ _ _ => exec_wellFormed, fun _ _ _ => ⟨rfl, rfl⟩, by decide, switchSel?_eq⟩

end Sys2Proof.Machine
end

section
/-! Proofs, family 40_pmu.md (1): the busy poll and PMU_TRANSACT. -/

namespace Sys2Proof.Machine

/-! ### The busy poll, 40_pmu.md R143 -/

theorem sampleBusy_scripted {s : State} {b : Bool} {rest : List Bool} (h : s.env.busy = b :: rest) :
    sampleBusy s = (b, (s.setTrace (s.trace ++ [.busySample b])).setEnv { s.env with busy := rest }) := by
  simp only [sampleBusy, h]
  rfl

/-- `s` after the busy line was sampled and read `l`, with `rest` left of what was lined up. -/
def sampled (s : State) (l rest : List Bool) : State :=
  (s.setTrace (s.trace ++ l.map .busySample)).setEnv { s.env with busy := rest }

theorem sampled_sampled (s : State) (l m rest rest' : List Bool) :
    sampled (sampled s l rest) m rest' = sampled s (l ++ m) rest' := by
  simp [sampled, State.setTrace, State.setEnv]

theorem pollBusy_step_busy (n : Nat) {s : State} {rest : List Bool} (h : s.env.busy = false :: rest) :
    pollBusy (n + 1) s = pollBusy n (sampled s [false] rest) := by
  rw [pollBusy, sampleBusy_scripted h]
  rfl

theorem pollBusy_step_ready (n : Nat) {s : State} {rest : List Bool} (h : s.env.busy = true :: rest) :
    pollBusy (n + 1) s = (true, sampled s [true] rest) := by
  rw [pollBusy, sampleBusy_scripted h]
  rfl

/-- BUSY samples lined up use up the poll's tries one by one, and nothing else. -/
theorem pollBusy_replicate_busy (j n : Nat) {s : State} {rest : List Bool}
    (h : s.env.busy = List.replicate j false ++ rest) :
    pollBusy (j + n) s = pollBusy n (sampled s (List.replicate j false) rest) := by
  induction j generalizing s with
  | zero =>
    obtain rfl : s.env.busy = rest := h
    simp [sampled, State.setTrace, State.setEnv]
  | succ j ih =>
    rw [Nat.add_right_comm, pollBusy_step_busy (j + n) (rest := List.replicate j false ++ rest) h, ih rfl,
      sampled_sampled]
    rfl

/-- The poll on a line that reads READY after `j` BUSY samples. -/
theorem busyWait_settles {s : State} {j : Nat} {rest : List Bool} (hj : j < s.par.busyPollLimit)
    (h : s.env.busy = List.replicate j false ++ true :: rest) :
    busyWait s = (true, sampled s (List.replicate j false ++ [true]) rest) := by
  obtain ⟨k, hk⟩ := Nat.exists_eq_add_of_lt hj
  rw [busyWait, hk, Nat.add_assoc, pollBusy_replicate_busy j (k + 1) h, pollBusy_step_ready k rfl, sampled_sampled]

/-- The poll on a line that reads BUSY at every sample. -/
theorem busyWait_exhausted {s : State} {rest : List Bool}
    (h : s.env.busy = List.replicate s.par.busyPollLimit false ++ rest) :
    busyWait s = (false, sampled s (List.replicate s.par.busyPollLimit false) rest) :=
  pollBusy_replicate_busy s.par.busyPollLimit 0 h

/-- Settles O25: the two ends of the poll, after a run of BUSY samples. -/
theorem busyPollIsBounded : Obligations.BusyPollIsBounded := by
  refine ⟨fun s j rest hj h => ?_, fun s rest h => ?_⟩
  · rw [busyWait_settles hj h]
    simp [sampled, State.setTrace, State.setEnv]
  · rw [busyWait_exhausted h]
    simp [sampled, State.setTrace, State.setEnv]

/-! ### PMU transactions that fail, 20_memory.md R81 -/

/-- `PmuTx` on a transfer that fails: no busy sample is taken. -/
theorem pmuTx_fails {s : State} {rest : List Answer} (dir : Dir) (chmask : BitVec 4) (mode : BitVec 2) (data : BitVec 22)
    (h : s.env.pmu = .fails :: rest) :
    pmuTx dir chmask mode data s = (.busError, ((s.setBus { s.bus with owner := .none, csPMU := true }).setTrace
      (s.trace ++ [pmuShiftEvent s.par dir (pmuFrame dir chmask mode data) .busError])).setEnv
        { s.env with pmu := rest }) := by
  simp only [pmuTx, withBus,
    pmuShift_scripted (s := setOwner .cmd s) dir (pmuFrame dir chmask mode data) h, Answer.result]
  rfl

/-- `PmuTx` on a line that reads BUSY at every sample of the poll. -/
theorem pmuTx_busy {s : State} {w : Word32} {rest : List Answer} {brest : List Bool} (dir : Dir) (chmask : BitVec 4)
    (mode : BitVec 2) (data : BitVec 22) (h : s.env.pmu = .shift w :: rest)
    (hb : s.env.busy = List.replicate s.par.busyPollLimit false ++ brest) :
    pmuTx dir chmask mode data s = (.busy, sampled (((s.setBus { s.bus with owner := .none, csPMU := true }).setTrace
      (s.trace ++ [pmuShiftEvent s.par dir (pmuFrame dir chmask mode data) (.ok (bytesOf dir.pmuBytesIn w))])).setEnv
        { s.env with pmu := rest }) (List.replicate s.par.busyPollLimit false) brest) := by
  have hp := busyWait_exhausted (rest := brest) (s := (driveCs .pmu true (((setOwner .cmd s).setTrace
    ((setOwner .cmd s).trace ++ [pmuShiftEvent (setOwner .cmd s).par dir (pmuFrame dir chmask mode data)
      (.ok (bytesOf dir.pmuBytesIn w))])).setEnv ((setOwner .cmd s).env.setAnswers .pmu rest)))) hb
  simp only [pmuTx, withBus, pmuShift_scripted (s := setOwner .cmd s) dir (pmuFrame dir chmask mode data) h,
    Answer.result, hp]
  rfl

/-! ### PMU_TRANSACT, 40_pmu.md R145 -/

/-- The result PMU_TRANSACT makes of its transaction's. -/
def TxResult.result : TxResult → Result
  | .ok w => .ok (.word w)
  | .busError => .fail .busError
  | .busy => .fail .busy

/-- The operands of a well-formed PMU_TRANSACT each select something. -/
theorem pmuTransact_operands {chmask dir : BitVec 4} {mode : BitVec 8} {data : BitVec 32}
    (h : (Instr.pmuTransact chmask dir mode data).wellFormed = true) :
    ∃ d m v, dir? dir = some d ∧ bits? 2 mode = some m ∧ bits? 22 data = some v := by
  simp only [wellFormed_eq_operandsSelect, operandsSelect, Bool.and_eq_true, Option.isSome_iff_exists] at h
  obtain ⟨⟨⟨d, hd⟩, m, hm⟩, v, hv⟩ := h
  exact ⟨d, m, v, hd, hm, hv⟩

/-- PMU_TRANSACT with legal operands and nothing scheduled: it ends in the state of its one transaction, with that
transaction's result. -/
theorem exec_pmuTransact_quiet {chmask dir : BitVec 4} {mode : BitVec 8} {data : BitVec 32} {d : Dir} {m : BitVec 2}
    {v : BitVec 22} {s t : State} {r : TxResult} (hd : dir? dir = some d) (hm : bits? 2 mode = some m)
    (hv : bits? 22 data = some v)
    (h : pmuTx d chmask m v (s.setCmd ⟨some (.pmuTransact chmask dir mode data), 0⟩) = (r, t)) (hq : Quiet t) :
    exec (.pmuTransact chmask dir mode data) s = .next (endCommand r.result t) := by
  simp only [exec, execPmuTransact, runCommand, hd, hm, hv, prim_quiet h hq, Flow.bind]
  cases r <;> rfl

/-- The value a read returns is the 24 bits shifted in. -/
theorem packBytes_bytesOf_three (w : Word32) : packBytes (bytesOf 3 w) = w &&& 0x00FFFFFF := by
  rw [packBytes_bytesOf 3 (by omega)]
  apply BitVec.eq_of_toNat_eq
  rw [BitVec.toNat_and, BitVec.toNat_ofNat, show (0x00FFFFFF : Word32).toNat = 2 ^ 24 - 1 from rfl,
    Nat.and_two_pow_sub_one_eq_mod]
  omega

/-- Settles O26. -/
theorem pmuTransactReturnsReadback : Obligations.PmuTransactReturnsReadback := by
  intro s chmask dir mode data d m v w rest brest hq hn hd hm hv h hb
  rw [exec_pmuTransact_quiet hd hm hv (pmuTx_scripted d chmask m v hn h hb) hq]
  cases d with
  | write => rfl
  | read =>
    rw [TxResult.result, Dir.readback, packBytes_bytesOf_three]
    rfl

/-- Settles O27. -/
theorem pmuTransactReportsBusErrorAndBusy : Obligations.PmuTransactReportsBusErrorAndBusy := by
  intro s chmask dir mode data hq hwf
  obtain ⟨d, m, v, hd, hm, hv⟩ := pmuTransact_operands hwf
  refine ⟨fun rest h => ?_, fun w rest brest h hb => ?_⟩
  · exact ⟨_, exec_pmuTransact_quiet hd hm hv (pmuTx_fails d chmask m v h) hq, rfl, rfl, rfl⟩
  · exact ⟨_, exec_pmuTransact_quiet hd hm hv (pmuTx_busy d chmask m v h hb) hq, rfl, rfl, rfl⟩

end Sys2Proof.Machine
end

section
/-! Proofs, family 40_pmu.md (2): the commands that are one write-and-verify and then a commit. `thenReturn` is the state such a
body ends in; the write-and-verify is followed on a scripted PMU with nothing scheduled, and for every device and schedule. -/

namespace Sys2Proof.Machine

/-! ### A command's last part -/

/-- The state a command ends in whose last part `f` is followed by the write `g` and the return of `x`. -/
def thenReturn (x : Value) (g : State → State) (f : Flow Unit) : State :=
  (f.bind fun _ t => (ret x (g t) : Flow Unit)).state

/-- A write-and-verify's comparison as the last part: on a match the write and the success, else the failure. -/
theorem thenReturn_need (x : Value) (g : State → State) (c : FailCode) (P : Prop) [Decidable P] (t : State) :
    thenReturn x g (need c (decide P) t) = if P then endCommand (.ok x) (g t) else endCommand (.fail c) t := by
  by_cases h : P
  · rw [if_pos h, decide_eq_true h]; rfl
  · rw [if_neg h, decide_eq_false h]; rfl

/-- The commit rule of 40_pmu.md R144 as the last part: a write-and-verify, and the shadow as the last write. -/
theorem thenReturn_updateCh (x : Value) (c : Fin 4) (v : BitVec 22) (s : State) :
    thenReturn x id (updateCh c v s) =
      thenReturn x (commitCh c v) (writeVerifyReg (chMask c) v s.par.chEchoMask s) := by
  unfold updateCh
  cases writeVerifyReg (chMask c) v s.par.chEchoMask s <;> rfl

/-! ### The bodies with legal operands -/

/-- Two operands that both select something, the pair made of what they select. -/
theorem bind_map_pair_eq_some {a : Option α} {b : Option β} {f : α → β → γ} {x : α} {z : γ}
    (h : (a.bind fun x => b.map fun y => (x, f x y)) = some (x, z)) : ∃ y, a = some x ∧ b = some y ∧ f x y = z := by
  simp only [Option.bind_eq_some_iff, Option.map_eq_some_iff, Prod.mk.injEq] at h
  obtain ⟨x', ha, y, hb, rfl, hz⟩ := h
  exact ⟨y, ha, hb, hz⟩

/-- The four channel commands are one body, 40_pmu.md R147 to R149, R155: the write-and-verify of their new value, and the
commit of their channel's shadow. -/
theorem exec_channelTarget {i : Instr} {s : State} {c : Fin 4} {v : BitVec 22} (h : channelTarget s i = some (c, v)) :
    exec i s = .next (thenReturn .nothing (commitCh c v)
      (writeVerifyReg (chMask c) v s.par.chEchoMask (s.setCmd ⟨some i, 0⟩))) := by
  refine Eq.trans ?_ (congrArg Host.Outcome.next (thenReturn_updateCh .nothing c v (s.setCmd ⟨some i, 0⟩)))
  cases i with
  | pmuWriteChctrl channel value =>
    obtain ⟨v, hc, hv, rfl⟩ := bind_map_pair_eq_some h
    simp only [exec, execPmuWriteChctrl, runCommand, hc, hv]
    rfl
  | pmuSetChstate channel state =>
    obtain ⟨st, hc, hst, rfl⟩ := bind_map_pair_eq_some h
    simp only [exec, execPmuSetChstate, runCommand, hc, hst]
    rfl
  | pmuSetMode channel mode =>
    obtain ⟨m, hc, hm, rfl⟩ := bind_map_pair_eq_some h
    simp only [exec, execPmuSetMode, runCommand, hc, hm]
    rfl
  | pmuSetRange channel code =>
    obtain ⟨hw, hc, hhw, rfl⟩ := bind_map_pair_eq_some h
    simp only [exec, execPmuSetRange, runCommand, hc, hhw]
    rfl
  | _ => cases h

/-- PMU_WRITE_SYSCTRL, 40_pmu.md R146. -/
theorem exec_pmuWriteSysctrl {value : BitVec 32} {v : BitVec 22} (s : State) (hv : bits? 22 value = some v) :
    exec (.pmuWriteSysctrl value) s = .next (thenReturn .nothing (commitSys v)
      (writeVerifyReg 0 v s.par.sysEchoMask (s.setCmd ⟨some (.pmuWriteSysctrl value), 0⟩))) := by
  simp only [exec, execPmuWriteSysctrl, runCommand, hv]
  rfl

/-- PMU_SET_DAC, 40_pmu.md R151: no state is its commit. -/
theorem exec_pmuSetDac {channel : BitVec 4} {subaddr : BitVec 8} {code : BitVec 32} {c : Fin 4} {sub : BitVec 6}
    {v : BitVec 16} (s : State) (hc : channel? channel = some c) (hsub : bits? 6 subaddr = some sub)
    (hv : bits? 16 code = some v) :
    exec (.pmuSetDac channel subaddr code) s = .next (thenReturn (.code v) id
      (writeVerifyDac c sub v (s.setCmd ⟨some (.pmuSetDac channel subaddr code), 0⟩))) := by
  simp only [exec, execPmuSetDac, runCommand, hc, hsub, hv]
  rfl

/-! ### On a scripted PMU, nothing scheduled -/

/-- Settles O28: the scripted write-and-verify, and the two ends of its comparison. -/
theorem pmuWriteSysctrlVerifies : Obligations.PmuWriteSysctrlVerifies := by
  intro s value v w rb rest brest hq hn hv h hb
  rw [exec_pmuWriteSysctrl s hv,
    writeVerifyReg_quiet (s := s.setCmd ⟨some (.pmuWriteSysctrl value), 0⟩) 0 v s.par.sysEchoMask hq hn h hb,
    thenReturn_need]
  rfl

/-- Settles O29, the four commands at once. -/
theorem pmuChannelCommandsVerify : Obligations.PmuChannelCommandsVerify := by
  intro i s c v w rb rest brest hq hn ht h hb
  rw [exec_channelTarget ht,
    writeVerifyReg_quiet (s := s.setCmd ⟨some i, 0⟩) (chMask c) v s.par.chEchoMask hq hn h hb, thenReturn_need]
  rfl

/-- Settles O31: both ends of the comparison leave the same state but for the result. -/
theorem pmuSetDacVerifies : Obligations.PmuSetDacVerifies := by
  intro s channel subaddr code c sub v w rb rest brest hq hn hc hsub hv h hb
  rw [exec_pmuSetDac s hc hsub hv,
    writeVerifyDac_quiet (s := s.setCmd ⟨some (.pmuSetDac channel subaddr code), 0⟩) c sub v hq hn h hb, thenReturn_need]
  split <;> rfl

/-! ### For every device and every schedule, 40_pmu.md R144 -/

/-- A register write-and-verify and its commit `g`, inside a command accepted in `s`: it succeeds with the shadows as `g` makes
them, or answers VerifyFailed with the shadows unchanged, or a reset cuts it. -/
theorem writeVerifyReg_thenReturn {s t : State} {i : Instr} {mask : BitVec 4} {v echo : BitVec 22} {g : State → State}
    {p : PmuState} (ht : thenReturn .nothing g (writeVerifyReg mask v echo (s.setCmd ⟨some i, 0⟩)) = t)
    (hg : ∀ u : State, u.pmu = s.pmu → (g u).pmu = p ∧ (g u).results = u.results) :
    (t.results = s.results ++ [.ok .nothing] ∧ t.pmu = p) ∨
    (t.results = s.results ++ [.fail .verifyFailed] ∧ t.pmu = s.pmu) ∨ (t.results = s.results ∧ BlockReset t) := by
  subst ht
  rcases writeVerifyReg_does mask v echo (s.setCmd ⟨some i, 0⟩) (Option.some_ne_none i) with
    ⟨u, h, hw, hu⟩ | ⟨u, m, h, hw, -, -, hu⟩ | ⟨u, m, h, hc, -⟩
  all_goals rw [h]
  · obtain ⟨hp, hr⟩ := hg u hu
    exact .inl ⟨congrArg (· ++ [Result.ok .nothing]) (hr.trans hw.results), hp⟩
  · exact .inr (.inl ⟨congrArg (· ++ [Result.fail .verifyFailed]) hw.results, hu⟩)
  · exact .inr (.inr ⟨hc.results, hc.block⟩)

/-- Settles O34: both kinds of register command are one write-and-verify and its commit. -/
theorem pmuShadowCommitsExactlyOnSuccess : Obligations.PmuShadowCommitsExactlyOnSuccess := by
  refine ⟨fun i s t c v hi ht => ?_, fun value s t v hv ht => ?_⟩
  · rw [exec_channelTarget hi, Host.Outcome.next.injEq] at ht
    exact writeVerifyReg_thenReturn ht fun u hu => ⟨by simp [commitCh, hu], rfl⟩
  · rw [exec_pmuWriteSysctrl s hv, Host.Outcome.next.injEq] at ht
    exact writeVerifyReg_thenReturn ht fun u hu => ⟨by simp [commitSys, hu], rfl⟩

end Sys2Proof.Machine
end

section
/-! Proofs, family 40_pmu.md (3): PMU_INIT (R150), cut into the settle wait, the system register and the four channels. On a
scripted PMU the channels are one step each of a chain of states. -/

namespace Sys2Proof.Machine

/-! ### The parts of PMU_INIT -/

/-- The four channels of PMU_INIT and its end. -/
def initChannels (s : State) : Flow Unit :=
  (initChannel 0 s).bind fun _ s =>
  (initChannel 1 s).bind fun _ s =>
  (initChannel 2 s).bind fun _ s =>
  (initChannel 3 s).bind fun _ s =>
  ret .nothing (setPhase .perChannelConfigured s)

/-- PMU_INIT after the settle wait: the system register, its commit, then the channels. -/
def initRegisters (s : State) : Flow Unit :=
  (writeVerifyReg 0 s.par.sysctrlDefault s.par.sysEchoMask s).bind fun _ t =>
  initChannels (setPhase .systemConfigured (commitSys t.par.sysctrlDefault t))

theorem exec_pmuInit (s : State) :
    exec .pmuInit s = .next ((prim pmuSettle (s.setCmd ⟨some .pmuInit, 0⟩)).bind fun ready t =>
      (need .busy ready t).bind fun _ t => initRegisters t).state := rfl

/-! ### On a scripted PMU, nothing scheduled -/

/-- The state PMU_INIT's first primitive leaves on a line that is ready at once. -/
def settled (s : State) (busy : List Bool) : State :=
  { s with
    cmd := { s.cmd with k := s.cmd.k + 1 }
    pmu := { s.pmu with phase := .reset }
    bus := { s.bus with csPMU := true, pmuReset := true }
    trace := s.trace ++ [.pmuResetLine false, .pmuResetLine true, .busySample true]
    env := { s.env with busy := busy } }

theorem prim_pmuSettle_quiet {s : State} {brest : List Bool} (hq : Quiet s) (hn : 0 < s.par.busyPollLimit)
    (hb : s.env.busy = true :: brest) : prim pmuSettle s = .go true (settled s brest) := by
  have hw := busyWait_ready (rest := brest)
    (s := driveCs .pmu true (drivePmuReset true (drivePmuReset false (setPhase .reset s)))) hn hb
  refine (prim_quiet hw hq).trans ?_
  simp [settled, driveCs, drivePmuReset, setPhase, record, State.setPmu, State.setBus, State.setTrace, State.setEnv,
    State.setCmd]

/-- PMU_INIT on its way from `s`: `n` register primitives done, the shadows and the phase now `x`. -/
def initState (s : State) (x : PmuState) (n : Nat) (events : List BusEvent) (answers : List Answer) (busy : List Bool) :
    State :=
  (pmuDone s n events answers busy).setPmu x

/-- One channel of PMU_INIT whose readback matches: its shadow at the default, its wires after those before. -/
theorem initChannel_quiet {s : State} {x : PmuState} {n : Nat} {events : List BusEvent} {w rb : Word32}
    {rest : List Answer} {brest : List Bool} (c : Fin 4) (hq : Quiet s) (hn : 0 < s.par.busyPollLimit)
    (hv : rb.extractLsb' 0 22 &&& s.par.chEchoMask = s.par.chctrlDefault &&& s.par.chEchoMask) :
    initChannel c (initState s x n events (.shift w :: .shift rb :: rest) (true :: true :: brest)) =
      .go () (initState s { x with ch := x.ch.set c s.par.chctrlDefault } (n + 2)
        (events ++ pmuVerifyEvents s.par (chMask c) s.par.modeReg s.par.chctrlDefault 0 rb) rest brest) := by
  refine (updateCh_quiet (s := initState s x n events (.shift w :: .shift rb :: rest) (true :: true :: brest)) c
    s.par.chctrlDefault hq hn rfl rfl).trans ((if_pos hv).trans ?_)
  simp [initState, pmuDone, commitCh, State.setPmu, Nat.add_assoc]

theorem set_every (v : Vector α 4) (d : α) : (((v.set 0 d).set 1 d).set 2 d).set 3 d = #v[d, d, d, d] := by
  apply Vector.ext
  intro i hi
  interval_cases i <;> simp

/-- The four channels of PMU_INIT whose readbacks match. -/
theorem initChannels_quiet {s : State} {x : PmuState} {n : Nat} {events : List BusEvent}
    {w1 r1 w2 r2 w3 r3 w4 r4 : Word32} {rest : List Answer} {brest : List Bool} (hq : Quiet s)
    (hn : 0 < s.par.busyPollLimit)
    (hv : ∀ r ∈ [r1, r2, r3, r4], r.extractLsb' 0 22 &&& s.par.chEchoMask = s.par.chctrlDefault &&& s.par.chEchoMask) :
    let d := s.par.chctrlDefault
    let reg := s.par.modeReg
    initChannels (initState s x n events ([.shift w1, .shift r1, .shift w2, .shift r2, .shift w3, .shift r3, .shift w4,
        .shift r4] ++ rest) (List.replicate 8 true ++ brest)) =
      ret .nothing (setPhase .perChannelConfigured (initState s { x with ch := #v[d, d, d, d] } (n + 8)
        (events ++ pmuVerifyEvents s.par 0b0001 reg d 0 r1 ++ pmuVerifyEvents s.par 0b0010 reg d 0 r2 ++
          pmuVerifyEvents s.par 0b0100 reg d 0 r3 ++ pmuVerifyEvents s.par 0b1000 reg d 0 r4) rest brest)) := by
  intro d reg
  simp only [List.forall_mem_cons] at hv
  obtain ⟨h1, h2, h3, h4, -⟩ := hv
  simp only [initChannels, List.cons_append, List.nil_append, List.replicate, initChannel_quiet _ hq hn h1,
    initChannel_quiet _ hq hn h2, initChannel_quiet _ hq hn h3, initChannel_quiet _ hq hn h4, Flow.bind]
  rw [← set_every x.ch d]
  rfl

/-- The system register of PMU_INIT, its readback matching. -/
theorem initRegisters_quiet {s : State} {w rb : Word32} {rest : List Answer} {brest : List Bool} (hq : Quiet s)
    (hn : 0 < s.par.busyPollLimit) (h : s.env.pmu = .shift w :: .shift rb :: rest) (hb : s.env.busy = true :: true :: brest)
    (hv : rb.extractLsb' 0 22 &&& s.par.sysEchoMask = s.par.sysctrlDefault &&& s.par.sysEchoMask) :
    initRegisters s = initChannels (initState s ⟨s.par.sysctrlDefault, s.pmu.ch, .systemConfigured⟩ 2
      (pmuVerifyEvents s.par 0 s.par.modeReg s.par.sysctrlDefault 0 rb) rest brest) := by
  rw [initRegisters, writeVerifyReg_quiet 0 _ _ hq hn h hb, decide_eq_true hv]
  rfl

/-- Settles O32: the settle wait, the system register and the channels, one after the other. -/
theorem pmuInitConfiguresEveryRegister : Obligations.PmuInitConfiguresEveryRegister := by
  intro s w0 r0 w1 r1 w2 r2 w3 r3 w4 r4 rest brest hq hn h hb hsys hch d reg
  let u := settled (s.setCmd ⟨some .pmuInit, 0⟩) (List.replicate 10 true ++ brest)
  have hsettle : prim pmuSettle (s.setCmd ⟨some .pmuInit, 0⟩) = .go true u := prim_pmuSettle_quiet hq hn hb
  have hregs := (initRegisters_quiet (s := u) hq hn h rfl hsys).trans (initChannels_quiet (s := u) hq hn hch)
  rw [exec_pmuInit, hsettle]
  refine (congrArg (fun f : Flow Unit => Host.Outcome.next f.state) hregs).trans ?_
  simp [ret, endCommand, Flow.state, u, settled, afterPmu, setPhase, initState, pmuDone, State.setPmu, State.setCmd,
    State.setResults, d, reg]

end Sys2Proof.Machine
end

section
/-! Proofs, family 40_pmu.md (4): a failed PMU_INIT (R150), for every device and schedule. `InitReached` says what has been sent
and committed when the command comes to a channel; each part then either brings it on or ends the command as the statement
says. -/

namespace Sys2Proof.Machine

/-! ### Primitive 1 -/

theorem pmuSettle_pmu (s : State) : (pmuSettle s).2.pmu = { s.pmu with phase := .reset } := by
  obtain ⟨b, l, e, -, -, -, -, h⟩ :=
    busyWait_spec (driveCs .pmu true (drivePmuReset true (drivePmuReset false (setPhase .reset s))))
  rw [pmuSettle, h]
  rfl

/-- Primitive 1 of PMU_INIT, whatever the line reads: no frame, no shadow, the phase Reset. -/
theorem prim_pmuSettle_spec (s : State) (hs : s.cmd.op ≠ none) :
    (∃ b u, prim pmuSettle s = .go b u ∧ Worked s u [] ∧ u.pmu = { s.pmu with phase := .reset }) ∨
    ∃ u, prim pmuSettle s = .ended u ∧ u.results = s.results := by
  have hw := Worked.pmuSettle s
  rcases prim_spec pmuSettle s (hw.op ▸ hs) with ⟨u, h, hi, hsched⟩ | ⟨u, h, hc, -⟩
  · exact .inl ⟨_, u, h, hw.interfered hi hsched, hi.pmu.trans (pmuSettle_pmu s)⟩
  · exact .inr ⟨u, h, hc.results.trans hw.results⟩

/-! ### The channels -/

/-- PMU_INIT, accepted in `s`, has come to channel `k` in `u`. -/
structure InitReached (s : State) (k : Nat) (u : State) : Prop where
  worked : Worked s u (initFrames s.par k)
  phase : u.pmu.phase = .systemConfigured
  sys : u.pmu.sys = s.par.sysctrlDefault
  ch : ∀ n : Fin 4, u.pmu.ch[n] = if n.val < k then s.par.chctrlDefault else s.pmu.ch[n]

/-- PMU_INIT, accepted in `s`, has failed in the frames of a channel and left `t`. -/
def FailedInChannel (s t : State) : Prop :=
  ∃ (k : Fin 4) (m : List (List Byte)),
    pmuFrames t.trace = pmuFrames s.trace ++ (initFrames s.par k.val ++ m) ∧
    m ≠ [] ∧ m <+: regFrames s.par (chMask k) s.par.chctrlDefault ∧
    t.pmu.phase = .systemConfigured ∧ t.pmu.sys = s.par.sysctrlDefault ∧
    ∀ n : Fin 4, t.pmu.ch[n] = if n.val < k.val then s.par.chctrlDefault else s.pmu.ch[n]

theorem initFrames_succ (p : Params) (k : Fin 4) :
    initFrames p (k.val + 1) = initFrames p k.val ++ regFrames p (chMask k) p.chctrlDefault := by
  simp [initFrames, List.range_succ, chMask]

/-- The channels below `k` at the default, and channel `k` set to it. -/
theorem set_getElem_of_below {d : α} {v w : Vector α 4} {k : Fin 4}
    (h : ∀ n : Fin 4, v[n] = if n.val < k.val then d else w[n]) (n : Fin 4) :
    (v.set k d)[n] = if n.val < k.val + 1 then d else w[n] := by
  by_cases hnk : n = k
  · subst hnk
    simp
  · have hne : k.val ≠ n.val := fun e => hnk (Fin.ext e.symm)
    have hlt : n.val < k.val + 1 ↔ n.val < k.val := by omega
    simpa [hlt, hne] using h n

section
variable {s t u : State} {c : FailCode}

/-- One channel of a PMU_INIT that fails in the end: it failed in this channel, or it comes to the next. -/
theorem InitReached.channel {g : Unit → State → Flow Unit} (k : Fin 4) (h : InitReached s k.val u) (hs : s.cmd.op ≠ none)
    (ht : ((initChannel k u).bind g).state = t) (hr : t.results = s.results ++ [.fail c]) :
    (c = .verifyFailed ∧ FailedInChannel s t) ∨ ∃ v, InitReached s (k.val + 1) v ∧ (g () v).state = t := by
  obtain ⟨hw, hphase, hsys, hch⟩ := h
  have hd := updateCh_does k s.par.chctrlDefault u (hw.op ▸ hs)
  rw [initChannel, hw.par] at ht
  rw [hw.par] at hd
  rcases hd.of_fail hw ht hr with ⟨v, hv, hp, hg⟩ | ⟨hc, m, hf, hm, hne, hp⟩
  · refine .inr ⟨v, ⟨initFrames_succ s.par k ▸ hv, by rw [hp]; exact hphase, by rw [hp]; exact hsys, ?_⟩, hg⟩
    rw [hp]
    exact set_getElem_of_below hch
  · exact .inl ⟨hc, k, m, hf, hne, hm, hp ▸ hphase, hp ▸ hsys, hp ▸ hch⟩

/-- The channels of a PMU_INIT that fails in the end: it failed in one of them. -/
theorem InitReached.channels (h : InitReached s 0 u) (hs : s.cmd.op ≠ none) (ht : (initChannels u).state = t)
    (hr : t.results = s.results ++ [.fail c]) : c = .verifyFailed ∧ FailedInChannel s t := by
  obtain hfail | ⟨u1, h1, ht⟩ := h.channel 0 hs ht hr
  · exact hfail
  obtain hfail | ⟨u2, h2, ht⟩ := h1.channel 1 hs ht hr
  · exact hfail
  obtain hfail | ⟨u3, h3, ht⟩ := h2.channel 2 hs ht hr
  · exact hfail
  obtain hfail | ⟨u4, h4, ht⟩ := h3.channel 3 hs ht hr
  · exact hfail
  · subst ht
    have hok : u4.results ++ [.ok .nothing] = s.results ++ [.fail c] := hr
    simp [h4.worked.results] at hok

/-! ### The system register -/

/-- PMU_INIT after the settle wait, failing in the end: it failed in the frames of the system register, or in a channel's. -/
theorem initRegisters_fails (hw : Worked s u []) (hp : u.pmu = { s.pmu with phase := .reset }) (hs : s.cmd.op ≠ none)
    (ht : (initRegisters u).state = t) (hr : t.results = s.results ++ [.fail c]) :
    c = .verifyFailed ∧
      ((∃ m, pmuFrames t.trace = pmuFrames s.trace ++ m ∧ m ≠ [] ∧ m <+: regFrames s.par 0 s.par.sysctrlDefault ∧
        t.pmu = { s.pmu with phase := .reset }) ∨ FailedInChannel s t) := by
  have hd := writeVerifyReg_does 0 s.par.sysctrlDefault s.par.sysEchoMask u (hw.op ▸ hs)
  rw [initRegisters, hw.par] at ht
  rw [hw.par] at hd
  rcases hd.of_fail hw ht hr with ⟨v, hv, hpv, hg⟩ | ⟨hc, m, hf, hm, hne, hpt⟩
  · have hreached : InitReached s 0 (setPhase .systemConfigured (commitSys v.par.sysctrlDefault v)) := by
      refine ⟨(hv.trans (.setPmu _ v)).trans (.setPmu _ _), rfl, congrArg Params.sysctrlDefault hv.par, fun n => ?_⟩
      simp [setPhase, commitSys, hpv, hp]
    obtain ⟨hc, hfail⟩ := hreached.channels hs hg hr
    exact ⟨hc, .inr hfail⟩
  · exact ⟨hc, .inl ⟨m, hf, hne, hm, hpt.trans hp⟩⟩

end

/-- Settles O33: where the failure came from, part by part. -/
theorem pmuInitFailureLeavesPrefix : Obligations.PmuInitFailureLeavesPrefix := by
  intro s t c ht hr
  have hs : (s.setCmd ⟨some .pmuInit, 0⟩).cmd.op ≠ none := Option.some_ne_none _
  rw [exec_pmuInit, Host.Outcome.next.injEq] at ht
  rcases prim_pmuSettle_spec (s.setCmd ⟨some .pmuInit, 0⟩) hs with ⟨ready, u, h, hw, hp⟩ | ⟨u, h, hcut⟩
  all_goals rw [h] at ht
  · cases ready with
    | false =>
      subst ht
      have hbusy : u.results ++ [.fail .busy] = s.results ++ [.fail c] := hr
      have hc : c = .busy := by simpa [hw.results] using hbusy.symm
      exact ⟨[], hw.frames, .inl ⟨hc, rfl, hp⟩⟩
    | true =>
      obtain ⟨hc, ⟨m, hf, hne, hm, hpt⟩ | ⟨k, m, hf, hne, hm, hphase, hsys, hch⟩⟩ := initRegisters_fails hw hp hs ht hr
      · exact ⟨m, hf, .inr (.inl ⟨hc, hne, hm, hpt⟩)⟩
      · exact ⟨_, hf, .inr (.inr ⟨hc, k, m, hne, hm, rfl, hphase, hsys, hch⟩)⟩
  · obtain rfl : u = t := ht
    have hlen := congrArg List.length (hcut.symm.trans hr)
    simp at hlen

end Sys2Proof.Machine
end

section
/-! Proofs, family 41_adc.md (1): the agents of the sampling pipeline, one rule per step. The data-ready interrupt, the sample
task on a lined-up answer, and the callback-dispatch task. -/

namespace Sys2Proof.Machine

/-! ### The data-ready interrupt, 41_adc.md R203 -/

theorem edgeStep_armed {s : State} (h : s.adc.armed = true) :
    edgeStep s = (s.setAdc { s.adc with armed := false, wakePending := true }).setBus { s.bus with csADC := true } :=
  if_pos h

theorem edgeStep_unarmed {s : State} (h : s.adc.armed ≠ true) : edgeStep s = s := if_neg h

/-- Settles O18. -/
theorem edgeInterruptEffect : Obligations.EdgeInterruptEffect := by
  intro s
  split
  next h => exact edgeStep_armed h
  next h => exact edgeStep_unarmed h

/-! ### A data frame, 30_encoding.md R126 -/

/-- The channel index a frame carries in its two low bits. -/
def sampleIndex (w : Word32) : Fin 4 := (w.extractLsb' 0 2).toFin

theorem sampleIndex_val (w : Word32) : (sampleIndex w).val = w.toNat % 4 := rfl

theorem frameIndex_bytesOf (w : Word32) : frameIndex (bytesOf 4 w) = sampleIndex w := by
  rw [frameIndex, packBytes_bytesOf_four, sampleIndex]

theorem frameCode_bytesOf (w : Word32) : frameCode (bytesOf 4 w) = w.extractLsb' 8 24 := by
  rw [frameCode, packBytes_bytesOf_four]

/-! ### What a frame does to the pipeline, 41_adc.md R204, R205: one rule per case -/

/-- A sample stored: its code in its channel's slot and the channel's valid bit. -/
def AdcState.withSample (a : AdcState) (w : Word32) : AdcState :=
  { a with
    slot := a.slot.set (sampleIndex w) (w.extractLsb' 8 24)
    validMask := setMaskBit a.validMask (sampleIndex w) }

theorem handleFrame_stale {a : AdcState} (hd : a.discardNext = true) (f : List Byte) :
    handleFrame a f = { a with discardNext := false } := if_pos hd

theorem handleFrame_kept {a : AdcState} {w : Word32} (hd : a.discardNext = false)
    (hv : setMaskBit a.validMask (sampleIndex w) ≠ a.activeMask) :
    handleFrame a (bytesOf 4 w) = a.withSample w := by
  rw [handleFrame, if_neg (Bool.eq_false_iff.1 hd), frameIndex_bytesOf, frameCode_bytesOf]
  exact if_neg (by simpa [groupComplete] using hv)

theorem handleFrame_completes {a : AdcState} {w : Word32} (hd : a.discardNext = false)
    (hv : setMaskBit a.validMask (sampleIndex w) = a.activeMask) :
    handleFrame a (bytesOf 4 w) = completeGroup (a.withSample w) := by
  rw [handleFrame, if_neg (Bool.eq_false_iff.1 hd), frameIndex_bytesOf, frameCode_bytesOf]
  exact if_pos (by simpa [groupComplete] using hv)

/-- The read buffer holds the completed group. -/
theorem completeGroup_snapshot (a : AdcState) :
    (completeGroup a).snap[(completeGroup a).rbuf] = ⟨a.slot, a.validMask⟩ := Vector.getElem_set_self _

/-! ### The sample task, 41_adc.md R204 -/

/-- The task's wake-up taken, its first write. -/
def AdcState.wakeTaken (a : AdcState) : AdcState := { a with wakePending := false }

/-- The state after the task's one read, which answered `r` and left the pipeline `a`, and after the re-arm. -/
def sampleDone (s : State) (a : AdcState) (r : XferResult) (answers : List Answer) : State :=
  { s with
    adc := { a with armed := a.armed || a.active }
    bus := { s.bus with owner := .none, csADC := true }
    trace := s.trace ++ [.xfer .adc [adcCommand .read s.par.adcRegData] 4 r]
    env := { s.env with adc := answers } }

/-- The task's read on a lined-up answer. -/
theorem adcRead_sample_scripted {s : State} {x : Answer} {rest : List Answer} (h : s.env.adc = x :: rest) :
    adcRead .sample s.par.adcRegData 4 (s.setAdc { s.adc with wakePending := false }) =
      (x.result 4, { s with
        adc := s.adc.wakeTaken
        bus := { s.bus with owner := .none, csADC := true }
        trace := s.trace ++ [.xfer .adc [adcCommand .read s.par.adcRegData] 4 (x.result 4)]
        env := { s.env with adc := rest } }) :=
  withBus_spiXfer_scripted (dev := .adc) (s := s.setAdc s.adc.wakeTaken) .sample [adcCommand .read s.par.adcRegData] 4 h

theorem sampleStep_frame {s : State} {w : Word32} {rest : List Answer} (hw : s.adc.wakePending = true)
    (h : s.env.adc = .shift w :: rest) :
    sampleStep s =
      sampleDone s (handleFrame s.adc.wakeTaken (bytesOf 4 w)) (.ok (bytesOf 4 w)) rest := by
  rw [sampleStep, if_pos hw, takeSample, adcRead_sample_scripted h]
  exact rearm_spec _

/-- A failed transfer loses the sample and re-arms all the same. -/
theorem sampleStep_lost {s : State} {rest : List Answer} (hw : s.adc.wakePending = true)
    (h : s.env.adc = .fails :: rest) :
    sampleStep s = sampleDone s s.adc.wakeTaken .busError rest := by
  rw [sampleStep, if_pos hw, takeSample, adcRead_sample_scripted h]
  exact rearm_spec _

theorem sampleStep_asleep {s : State} (hw : s.adc.wakePending = false) : sampleStep s = s := by
  rw [sampleStep, hw]
  rfl

/-- Settles O19: the frame is stale, completes its group, or is kept for later. -/
theorem sampleTaskHandlesItsFrame : Obligations.SampleTaskHandlesItsFrame := by
  refine ⟨fun s w rest hw h => ?_, fun s rest hw h => sampleStep_lost hw h, fun s => sampleStep_asleep⟩
  intro idx slot valid a
  rw [sampleStep_frame hw h]
  by_cases hd : s.adc.discardNext = true
  · rw [if_pos hd, handleFrame_stale (a := s.adc.wakeTaken) hd]
    rfl
  · rw [if_neg hd]
    rw [Bool.not_eq_true] at hd
    by_cases hv : valid = s.adc.activeMask
    · rw [if_pos hv, handleFrame_completes (a := s.adc.wakeTaken) hd hv]
      rfl
    · rw [if_neg hv, handleFrame_kept (a := s.adc.wakeTaken) hd hv]
      rfl

/-! ### The callback-dispatch task, 41_adc.md R206, R209 -/

theorem deliverMv_eq (p : Params) (sn : Snapshot) (ch : SmuChannel) :
    deliverMv p sn ch = { ch with
      mv := if sn.mask.getLsbD p.adcChMv.val then adcToVolts p sn.codes[p.adcChMv] * ch.mvGainCorr else ch.mv
      dirty := ch.dirty ||| (if sn.mask.getLsbD p.adcChMv.val then 4 else 0) } := by
  unfold deliverMv
  split
  · rfl
  · simp

theorem deliverMi_eq (p : Params) (sn : Snapshot) (ch : SmuChannel) :
    deliverMi p sn ch = { ch with
      mi := if sn.mask.getLsbD p.adcChMi.val then adcToAmps p sn.codes[p.adcChMi] ch.range else ch.mi
      dirty := ch.dirty ||| (if sn.mask.getLsbD p.adcChMi.val then 8 else 0) } := by
  unfold deliverMi
  split
  · rfl
  · simp

/-- Settles O20: the voltage's delivery, then the current's. -/
theorem dispatchTaskDeliversSnapshot : Obligations.DispatchTaskDeliversSnapshot := by
  intro s h sn hasV hasI
  rw [dispatchStep, if_pos h, callback, deliverMv_eq, deliverMi_eq]
  rfl

/-! ### What the agents leave alone, 41_adc.md R211 -/

/-- A move other than a reset interferes as the agents may inside a command, or drains the dirty bitmap between commands. -/
theorem agentMove_interferes_or_drains {m : Move} (hm : m ≠ .reset) (s : State) :
    Interfered s (agentMove m s) ∨ agentMove m s = drain s := by
  cases m with
  | forcedPublish =>
    obtain h | h := forcedPublishStep_cases s
    · exact .inr h
    · exact .inl (by rw [agentMove, h]; exact .refl s)
  | sequencer => exact .inl (.refl s)
  | edge => exact .inl (.edge s)
  | sample => exact .inl (.sample s)
  | dispatch => exact .inl (.dispatch s)
  | faultPin => exact .inl (.refl s)
  | reset => exact absurd rfl hm

/-- Settles O22. -/
theorem agentsKeepTheCommandsState : Obligations.AgentsKeepTheCommandsState := by
  intro m s hm t
  obtain h | h := agentMove_interferes_or_drains hm s
  · exact ⟨h.par, h.cmd, h.pmu, h.amp, h.port, h.results, h.settings, h.active, h.activeMask⟩
  · simp only [t, h, drain_spec]
    exact ⟨rfl, rfl, rfl, rfl, rfl, rfl, .refl s.smu.ch, rfl, rfl⟩

end Sys2Proof.Machine
end

section
/-! Proofs, family 41_adc.md (2): one run of the pipeline, 41_adc.md R210. An interrupt and the sample task's step take one
frame (`afterFrame`); three frames are one stale sample and a group of two channels; the dispatch step delivers it. -/

namespace Sys2Proof.Machine

/-! ### Runs along the schedule -/

/-- A step that the schedule gives to another agent. -/
theorem step_agent {s : State} {m : Move} {ms : List Move} (hm : m ≠ .sequencer) (h : s.env.sched = m :: ms) :
    step s = .next (agentMove m (setSched ms s)) := by
  cases m with
  | sequencer => exact absurd rfl hm
  | forcedPublish | edge | sample | dispatch | faultPin | reset => simp only [step, nextTurn, h]

theorem run_agent (k : Nat) {s : State} {m : Move} {ms : List Move} (hm : m ≠ .sequencer) (h : s.env.sched = m :: ms) :
    Host.Core.run core (k + 1) s = Host.Core.run core k (agentMove m (setSched ms s)) := by
  have hstep : core.step s = .next (agentMove m (setSched ms s)) := step_agent hm h
  simp only [Host.Core.run, hstep]

/-- What the pipeline's run turns on in a state: the parameters, the channel, the pipeline, the ADC's answers and the
schedule. -/
structure PipelineAt (p : Params) (smu : SmuState) (a : AdcState) (answers : List Answer) (ms : List Move) (s : State) :
    Prop where
  par : s.par = p
  smu : s.smu = smu
  adc : s.adc = a
  answers : s.env.adc = answers
  sched : s.env.sched = ms

/-- The pipeline while the sample task handles its frame. -/
def AdcState.sampling (a : AdcState) : AdcState := { a with armed := false, wakePending := false }

/-- The armed, active pipeline after one frame: interrupt, sample task and re-arm. -/
def afterFrame (a : AdcState) (w : Word32) : AdcState :=
  { handleFrame a.sampling (bytesOf 4 w) with armed := true }

/-- An interrupt and the sample task's step take one frame. -/
theorem PipelineAt.frame {p : Params} {smu : SmuState} {a : AdcState} {w : Word32} {rest : List Answer} {ms : List Move}
    {s : State} (hs : PipelineAt p smu a (.shift w :: rest) (.edge :: .sample :: ms) s) (harmed : a.armed = true)
    (hactive : a.active = true) :
    ∃ u : State, (∀ k, Host.Core.run core (k + 2) s = Host.Core.run core k u) ∧ PipelineAt p smu (afterFrame a w) rest ms u := by
  obtain ⟨rfl, rfl, rfl, hanswers, hsched⟩ := hs
  let e := takeEdge (setSched (.sample :: ms) s)
  have hedge : agentMove .edge (setSched (.sample :: ms) s) = e := edgeStep_armed harmed
  have hsample : agentMove .sample (setSched ms e) =
      sampleDone (setSched ms e) (handleFrame e.adc.wakeTaken (bytesOf 4 w)) (.ok (bytesOf 4 w)) rest :=
    sampleStep_frame rfl hanswers
  refine ⟨agentMove .sample (setSched ms e), fun k => ?_, ?_⟩
  · rw [run_agent (k + 1) (by decide) hsched, hedge, run_agent k (by decide) rfl]
  · obtain ⟨hkeep, -⟩ := handleFrame_keeps e.adc.wakeTaken (bytesOf 4 w)
    have hrearm : ((handleFrame e.adc.wakeTaken (bytesOf 4 w)).armed ||
        (handleFrame e.adc.wakeTaken (bytesOf 4 w)).active) = true := by
      rw [hkeep, show e.adc.wakeTaken.active = true from hactive, Bool.or_true]
    rw [hsample]
    exact ⟨rfl, rfl, by rw [sampleDone, hrearm]; rfl, rfl, rfl⟩

/-! ### A group of two channels -/

/-- The pipeline armed, with no sample in flight. -/
def AdcState.ready (a : AdcState) : AdcState := { a with armed := true, wakePending := false }

/-- The same with no stale sample to come. -/
def AdcState.fresh (a : AdcState) : AdcState := { a with armed := true, wakePending := false, discardNext := false }

theorem afterFrame_active (a : AdcState) (w : Word32) : (afterFrame a w).active = a.active :=
  (handleFrame_keeps a.sampling (bytesOf 4 w)).1

theorem afterFrame_stale {a : AdcState} (hd : a.discardNext = true) (w : Word32) : afterFrame a w = a.fresh := by
  rw [afterFrame, handleFrame_stale (a := a.sampling) hd]
  rfl

theorem afterFrame_kept {a : AdcState} {w : Word32} (hd : a.discardNext = false)
    (hv : setMaskBit a.validMask (sampleIndex w) ≠ a.activeMask) : afterFrame a w = (a.withSample w).ready := by
  rw [afterFrame, handleFrame_kept (a := a.sampling) hd hv]
  rfl

theorem afterFrame_completes {a : AdcState} {w : Word32} (hd : a.discardNext = false)
    (hv : setMaskBit a.validMask (sampleIndex w) = a.activeMask) :
    afterFrame a w = (completeGroup (a.withSample w)).ready := by
  rw [afterFrame, handleFrame_completes (a := a.sampling) hd hv]
  rfl

section

variable {x y : Word32} (hxy : sampleIndex x = 0 ∧ sampleIndex y = 1 ∨ sampleIndex x = 1 ∧ sampleIndex y = 0)

include hxy

/-- One of the channels 0 and 1 is not both of them. -/
theorem firstSample_mask : setMaskBit 0 (sampleIndex x) ≠ 0b0011 := by
  rcases hxy with ⟨hx, -⟩ | ⟨hx, -⟩ <;> rw [hx] <;> decide

theorem bothSamples_mask : setMaskBit (setMaskBit 0 (sampleIndex x)) (sampleIndex y) = 0b0011 := by
  rcases hxy with ⟨hx, hy⟩ | ⟨hx, hy⟩ <;> rw [hx, hy] <;> rfl

/-- The slots of channel 0 and of channel 1, whichever came first. -/
theorem bothSamples_slots (a : AdcState) :
    ((a.withSample x).withSample y).slot[(0 : Fin 4)] = (if x.toNat % 4 = 0 then x else y).extractLsb' 8 24 ∧
    ((a.withSample x).withSample y).slot[(1 : Fin 4)] = (if x.toNat % 4 = 0 then y else x).extractLsb' 8 24 := by
  rw [← sampleIndex_val]
  rcases hxy with ⟨hx, hy⟩ | ⟨hx, hy⟩ <;> simp [AdcState.withSample, hx, hy]

/-- With channels 0 and 1 active, a stale sample and then one of each channel. -/
theorem afterFrame_group {a : AdcState} (d : Word32) (hd : a.discardNext = true) (hactive : a.activeMask = 0b0011)
    (hvalid : a.validMask = 0) :
    afterFrame (afterFrame (afterFrame a d) x) y = (completeGroup ((a.fresh.withSample x).withSample y)).ready := by
  have hfirst : setMaskBit a.validMask (sampleIndex x) ≠ a.activeMask := by
    rw [hvalid, hactive]
    exact firstSample_mask hxy
  have hboth : setMaskBit (setMaskBit a.validMask (sampleIndex x)) (sampleIndex y) = a.activeMask := by
    rw [hvalid, hactive]
    exact bothSamples_mask hxy
  rw [afterFrame_stale hd, afterFrame_kept (a := a.fresh) rfl hfirst,
    afterFrame_completes (a := (a.fresh.withSample x).ready) rfl hboth]
  rfl

end

/-! ### The run -/

/-- Six steps take the three frames of `afterFrame_group`. -/
theorem PipelineAt.group {p : Params} {smu : SmuState} {a : AdcState} {d x y : Word32} {rest : List Answer}
    {ms : List Move} {s : State}
    (hs : PipelineAt p smu a (.shift d :: .shift x :: .shift y :: rest)
      (.edge :: .sample :: .edge :: .sample :: .edge :: .sample :: ms) s)
    (harmed : a.armed = true) (hactive : a.active = true) (hd : a.discardNext = true) (hmask : a.activeMask = 0b0011)
    (hvalid : a.validMask = 0)
    (hxy : sampleIndex x = 0 ∧ sampleIndex y = 1 ∨ sampleIndex x = 1 ∧ sampleIndex y = 0) :
    ∃ u : State, (∀ k, Host.Core.run core (k + 6) s = Host.Core.run core k u) ∧
      PipelineAt p smu (completeGroup ((a.fresh.withSample x).withSample y)).ready rest ms u := by
  obtain ⟨u1, hrun1, h1⟩ := hs.frame harmed hactive
  obtain ⟨u2, hrun2, h2⟩ := h1.frame rfl ((afterFrame_active a d).trans hactive)
  obtain ⟨u, hrun3, h3⟩ := h2.frame rfl (by rw [afterFrame_active, afterFrame_active, hactive])
  rw [afterFrame_group hxy d hd hmask hvalid] at h3
  exact ⟨u, fun k => (hrun1 (k + 4)).trans ((hrun2 (k + 2)).trans (hrun3 k)), h3⟩

/-- The dispatch task's step, 41_adc.md R209, on a snapshot of channels 0 and 1 with the reference parameters. -/
theorem dispatchStep_bothChannels {s : State} {codes : Vector (BitVec 24) 4} (hp : s.par = Params.reference)
    (hpending : s.adc.dispatchPending = true) (hsn : s.adc.snap[s.adc.rbuf] = ⟨codes, 0b0011⟩) :
    dispatchStep s = { s with
      adc := { s.adc with dispatchPending := false }
      smu := { s.smu with ch := { s.smu.ch with
        mv := adcToVolts s.par codes[(0 : Fin 4)] * s.smu.ch.mvGainCorr
        mi := adcToAmps s.par codes[(1 : Fin 4)] s.smu.ch.range
        dirty := s.smu.ch.dirty ||| 0x00C } } } := by
  have hmv : s.par.adcChMv = 0 := congrArg Params.adcChMv hp
  have hmi : s.par.adcChMi = 1 := congrArg Params.adcChMi hp
  have hdirty : s.smu.ch.dirty ||| 0x00C = s.smu.ch.dirty ||| 4 ||| 8 := (BitVec.or_assoc s.smu.ch.dirty 4 8).symm
  rw [dispatchTaskDeliversSnapshot s hpending, hsn, hdirty]
  simp only [hmv, hmi]
  rfl

/-- Settles O21: three frames, then the delivery of their group. -/
theorem pipelineDeliversOneGroup : Obligations.PipelineDeliversOneGroup := by
  intro s d a b rest hp harmed hactive hd _ hmask hvalid hanswers hsched hab v i
  have hindex : sampleIndex a = 0 ∧ sampleIndex b = 1 ∨ sampleIndex a = 1 ∧ sampleIndex b = 0 := by
    simp only [Fin.ext_iff, sampleIndex_val]
    exact hab
  have hstart : PipelineAt s.par s.smu s.adc _ _ s := ⟨rfl, rfl, rfl, hanswers, hsched⟩
  obtain ⟨u, hrun, hpar, hsmu, hadc, -, hdispatch⟩ := hstart.group harmed hactive hd hmask hvalid hindex
  have hpending : u.adc.dispatchPending = true := congrArg AdcState.dispatchPending hadc
  have hcleared : u.adc.validMask = 0 := congrArg AdcState.validMask hadc
  have hready : u.adc.armed = true := congrArg AdcState.armed hadc
  have hboth : ((s.adc.fresh.withSample a).withSample b).validMask = 0b0011 := by
    rw [← bothSamples_mask hindex, ← hvalid]
    rfl
  have hsn : u.adc.snap[u.adc.rbuf] = ⟨((s.adc.fresh.withSample a).withSample b).slot, 0b0011⟩ := by
    rw [← hboth]
    exact (congrArg (fun x : AdcState => x.snap[x.rbuf]) hadc).trans (completeGroup_snapshot _)
  refine ⟨⟨u, hrun 0, hsmu, hpending, hcleared, congrArg Snapshot.mask hsn⟩, _,
    (hrun 1).trans (run_agent 0 (by decide) hdispatch), ?_⟩
  obtain ⟨hv, hi⟩ := bothSamples_slots hindex s.adc.fresh
  rw [agentMove, dispatchStep_bothChannels (s := setSched [] u) (hpar.trans hp) hpending hsn, hv, hi]
  rw [← hpar, ← hsmu]
  exact ⟨rfl, hcleared, hready, rfl, rfl, rfl⟩

end Sys2Proof.Machine
end

section
/-! Proofs, family 41_adc.md (3): the ADC commands and the raw register accesses. Those that use the bus make one transfer
and return; they are followed on a scripted device with nothing scheduled. -/

namespace Sys2Proof.Machine

/-! ### ADC_START and ADC_STOP, 41_adc.md R200, R201 -/

/-- The opcode of a command word written as its opcode and the 56 bits below it. -/
theorem fieldOpc_append (opc : BitVec 8) (rest : BitVec 56) : fieldOpc (opc ++ rest) = opc :=
  BitVec.extractLsb'_append_eq_left ..

theorem decode_adcStart {w : CmdWord} (h : fieldOpc w = 0x20) : decode w = .ok .adcStart := by
  rw [decode, h]
  rfl

theorem decode_adcStop {w : CmdWord} (h : fieldOpc w = 0x21) : decode w = .ok .adcStop := by
  rw [decode, h]
  rfl

/-- Settles O36: neither command has a bus primitive, so no schedule steps in. -/
theorem adcStartAndStopSetTheirFlags : Obligations.AdcStartAndStopSetTheirFlags :=
  ⟨fun rest => ⟨decode_adcStart (fieldOpc_append 0x20 rest), decode_adcStop (fieldOpc_append 0x21 rest)⟩,
    fun _ => ⟨rfl, rfl⟩⟩

/-! ### One transfer on a scripted device -/

/-- The state after one ADC primitive that left `e` on the wires. -/
def adcDone (s : State) (e : BusEvent) (answers : List Answer) : State :=
  { s with
    cmd := { s.cmd with k := s.cmd.k + 1 }
    bus := { s.bus with owner := .none, csADC := true }
    trace := s.trace ++ [e]
    env := { s.env with adc := answers } }

/-- An ADC transfer on a scripted ADC. -/
theorem prim_adc_quiet {s : State} {a : Answer} {rest : List Answer} (out : List Byte) (nIn : Nat)
    (hq : Quiet s) (h : s.env.adc = a :: rest) :
    prim (withBus .cmd (spiXfer .adc out nIn)) s =
      .go (a.result nIn) (adcDone s (.xfer .adc out nIn (a.result nIn)) rest) :=
  prim_xfer_quiet (dev := .adc) out nIn hq h

/-- What follows the one transfer `r` of a command: the write `g` and the value made of the bytes, or BusError. -/
def returnXfer (f : List Byte → Value) (g : State → State) (r : XferResult) (s : State) : Flow Unit :=
  match r with
  | .ok bs => ret (f bs) (g s)
  | .busError => raise .busError s

/-- A command of one transfer, run to its end. -/
def runTransfer (i : Instr) (dev : Dev) (out : List Byte) (nIn : Nat) (f : List Byte → Value) (g : State → State)
    (s : State) : State :=
  ((prim (withBus .cmd (spiXfer dev out nIn)) (s.setCmd ⟨some i, 0⟩)).bind (returnXfer f g)).state

/-- The result of a raw access whose transfer answered `r`. -/
def rawResult (f : List Byte → Value) : XferResult → Result
  | .ok bs => .ok (f bs)
  | .busError => .fail .busError

theorem runTransfer_adc {s : State} {a : Answer} {rest : List Answer} (i : Instr) (out : List Byte) (nIn : Nat)
    (f : List Byte → Value) (hq : Quiet s) (h : s.env.adc = a :: rest) :
    runTransfer i .adc out nIn f id s =
      afterAdc s (rawResult f (a.result nIn)) s.adc [.xfer .adc out nIn (a.result nIn)] rest := by
  rw [runTransfer, prim_adc_quiet (s := s.setCmd ⟨some i, 0⟩) out nIn hq h]
  cases a <;> rfl

theorem runTransfer_amp {s : State} {a : Answer} {rest : List Answer} (i : Instr) (out : List Byte) (nIn : Nat)
    (f : List Byte → Value) (hq : Quiet s) (h : s.env.amp = a :: rest) :
    runTransfer i .amp out nIn f id s =
      afterAmp s (rawResult f (a.result nIn)) s.amp [.xfer .amp out nIn (a.result nIn)] rest := by
  rw [runTransfer, prim_amp_quiet (s := s.setCmd ⟨some i, 0⟩) out nIn hq h]
  cases a <;> rfl

/-! ### The commands with legal operands -/

/-- The active mask with one channel's bit assigned. -/
def setActiveMask (n : Fin 4) (en : Bool) (s : State) : State :=
  s.setAdc { s.adc with activeMask := assignMaskBit s.adc.activeMask n en }

theorem exec_adcConfigCh {channel enable : BitVec 4} {pos neg : BitVec 8} {n : Fin 4} {en : Bool} {p q : BitVec 5}
    (s : State) (hn : channel? channel = some n) (hen : flag? enable = some en) (hp : bits? 5 pos = some p)
    (hneg : bits? 5 neg = some q) :
    exec (.adcConfigCh channel enable pos neg) s = .next (runTransfer (.adcConfigCh channel enable pos neg) .adc
      (adcCommand .write s.par.adcRegCh[n] :: bytesOf 2 ((adcChannelReg s.par.adcChLayout en p q).setWidth 32)) 0
      (fun _ => .nothing) (setActiveMask n en) s) := by
  simp only [exec, execAdcConfigCh, runCommand, hn, hen, hp, hneg]
  rfl

theorem exec_adcWriteReg {nbytes : BitVec 4} {addr : BitVec 8} {value : BitVec 32} {nb : Nat} {ad : BitVec 6}
    (s : State) (hnb : byteCount? nbytes = some nb) (had : bits? 6 addr = some ad) (hv : value.toNat < 2 ^ (8 * nb)) :
    exec (.adcWriteReg nbytes addr value) s = .next (runTransfer (.adcWriteReg nbytes addr value) .adc
      (adcCommand .write ad :: bytesOf nb value) 0 (fun _ => .nothing) id s) := by
  simp only [exec, execAdcWriteReg, runCommand, hnb, had, bytesValue?, if_pos hv]
  rfl

theorem exec_adcReadReg {nbytes : BitVec 4} {addr : BitVec 8} {nb : Nat} {ad : BitVec 6} (s : State)
    (hnb : byteCount? nbytes = some nb) (had : bits? 6 addr = some ad) :
    exec (.adcReadReg nbytes addr) s = .next (runTransfer (.adcReadReg nbytes addr) .adc [adcCommand .read ad] nb
      (fun bs => .word (packBytes bs)) id s) := by
  simp only [exec, execAdcReadReg, runCommand, hnb, had]
  rfl

theorem exec_ampWriteReg {addr : BitVec 8} {value : BitVec 32} {ad : BitVec 7} {v : Byte} (s : State)
    (had : bits? 7 addr = some ad) (hv : bits? 8 value = some v) :
    exec (.ampWriteReg addr value) s = .next (runTransfer (.ampWriteReg addr value) .amp [ampCommand .write ad, v] 0
      (fun _ => .nothing) id s) := by
  simp only [exec, execAmpWriteReg, runCommand, had, hv]
  rfl

theorem exec_ampReadReg {addr : BitVec 8} {ad : BitVec 7} (s : State) (had : bits? 7 addr = some ad) :
    exec (.ampReadReg addr) s = .next (runTransfer (.ampReadReg addr) .amp [ampCommand .read ad] 1
      (fun bs => .word (packBytes bs)) id s) := by
  simp only [exec, execAmpReadReg, runCommand, had]
  rfl

/-! ### On a scripted device, nothing scheduled -/

/-- Settles O37: the mask is the last write of the command whose transfer succeeds. -/
theorem adcConfigChWritesPairAndMask : Obligations.AdcConfigChWritesPairAndMask := by
  intro s channel enable pos neg n en p q a rest hq hn hen hp hneg h
  rw [exec_adcConfigCh s hn hen hp hneg, runTransfer,
    prim_adc_quiet (s := s.setCmd ⟨some (.adcConfigCh channel enable pos neg), 0⟩) _ 0 hq h]
  cases a with
  | shift w => rfl
  | fails => rfl

theorem byteCount?_le {sel : BitVec 4} {nb : Nat} (h : byteCount? sel = some nb) : nb ≤ 4 := by
  unfold byteCount? at h
  split at h
  next hsel =>
    cases h
    exact hsel.2
  next => cases h

theorem packBytes_bytesOf_one (w : Word32) : packBytes (bytesOf 1 w) = w &&& 0xFF := by
  rw [packBytes_bytesOf 1 (by omega)]
  apply BitVec.eq_of_toNat_eq
  rw [BitVec.toNat_and, BitVec.toNat_ofNat, show (0xFF : Word32).toNat = 2 ^ 8 - 1 from rfl,
    Nat.and_two_pow_sub_one_eq_mod]
  omega

/-- Settles O38, one access after the other. -/
theorem rawRegisterAccesses : Obligations.RawRegisterAccesses := by
  refine ⟨fun s nbytes addr nb ad a rest hq hnb had h => ⟨fun value hv => ?adcWrite, ?adcRead⟩,
    fun s addr ad a rest hq had h => ⟨fun value v hv => ?ampWrite, ?ampRead⟩⟩
  case adcWrite =>
    rw [exec_adcWriteReg s hnb had hv, runTransfer_adc _ _ 0 _ hq h]
    cases a <;> rfl
  case adcRead =>
    rw [exec_adcReadReg s hnb had, runTransfer_adc _ _ nb _ hq h]
    cases a with
    | shift w =>
      exact congrArg (fun x => Host.Outcome.next (afterAdc s (.ok (.word x)) s.adc _ rest))
        (packBytes_bytesOf nb (byteCount?_le hnb) w)
    | fails => rfl
  case ampWrite =>
    rw [exec_ampWriteReg s had hv, runTransfer_amp _ _ 0 _ hq h]
    cases a <;> rfl
  case ampRead =>
    rw [exec_ampReadReg s had, runTransfer_amp _ _ 1 _ hq h]
    cases a with
    | shift w =>
      exact congrArg (fun x => Host.Outcome.next (afterAmp s (.ok (.word x)) s.amp _ rest)) (packBytes_bytesOf_one w)
    | fails => rfl

end Sys2Proof.Machine
end

section
/-! Proofs, family 42_amp.md (1): the gain invariant (R252), and the three configuration commands (R254 to R256), which are one
body: a row of write-and-verifies (R259), then the target fields as the last write. -/

namespace Sys2Proof.Machine

/-! ### The gain invariant, 42_amp.md R252 -/

theorem ampGainConsistent_iff (s : State) :
    AmpGainConsistent s ↔ s.amp.gain = ampGain s.par s.amp.ig s.amp.og := Iff.rfl

theorem AmpGainConsistent.of_eq {s t : State} (par : t.par = s.par) (amp : t.amp = s.amp) (hs : AmpGainConsistent s) :
    AmpGainConsistent t := by
  rw [ampGainConsistent_iff, par, amp]
  exact hs

/-- AMP_SET_GAIN writes the product with its factors; no other write of a command touches the gain or the selects. -/
theorem CommandWrite.ampGainConsistent {s t : State} (h : CommandWrite s t) (hs : AmpGainConsistent s) :
    AmpGainConsistent t := by
  cases h with
  | ampGain i o => exact (ampGainConsistent_iff _).2 rfl
  | publish => exact hs.of_eq (drain_par s) (drain_amp s)
  | _ => exact hs

/-- The reset gain 1 is the product of the reset selects for the tables of which the obligation speaks (log 32). -/
theorem BlockReset.ampGainConsistent {t : State} (h : BlockReset t) (hp : t.par.ig[4] * t.par.og[0] = 1) :
    AmpGainConsistent t := by
  obtain ⟨-, -, -, -, hamp, -⟩ := h
  rw [ampGainConsistent_iff, hamp]
  exact hp.symm

theorem ampGainConsistent_maintained :
    Maintained (fun s => s.par.ig[4] * s.par.og[0] = 1 ∧ AmpGainConsistent s) where
  undisturbed h := fun ⟨hp, hs⟩ => ⟨h.par ▸ hp, hs.of_eq h.par h.amp⟩
  write h := fun ⟨hp, hs⟩ => ⟨h.par ▸ hp, h.ampGainConsistent hs⟩
  reset h hpar := fun ⟨hp, _⟩ => have hp := hpar ▸ hp; ⟨hp, h.ampGainConsistent hp⟩

/-- Settles O13: every part of a step keeps the gain consistent beside the parameters, which none writes. -/
theorem stepKeepsAmpGainConsistent : Obligations.StepKeepsAmpGainConsistent := by
  intro s t hp hs h
  obtain ⟨-, ht⟩ := ampGainConsistent_maintained.step h ⟨hp, hs⟩
  exact ⟨step_par h, step_par h ▸ ht⟩

/-! ### A row of write-and-verifies -/

/-- The write-and-verifies of a list of amplifier registers and values, in order, 42_amp.md R259. -/
def writeVerifyAmps : List (BitVec 7 × Byte) → State → Flow Unit
  | [], s => .go () s
  | w :: ws, s => (writeVerifyAmp w.1 w.2 s).bind fun _ t => writeVerifyAmps ws t

/-- Whatever the amplifier answers and whoever steps in between, the row writes no field of the block. -/
theorem writeVerifyAmps_does (ws : List (BitVec 7 × Byte)) (s : State) (hs : s.cmd.op ≠ none) :
    Does (writeVerifyAmps ws s) s [] s.pmu (fun _ x => x = s.pmu) := by
  induction ws generalizing s with
  | nil => exact .inl ⟨s, rfl, .refl s, rfl⟩
  | cons w ws ih =>
    have hrow : ∀ t, Worked s t [] → t.pmu = s.pmu →
        Does (writeVerifyAmps ws t) t [] s.pmu (fun _ x => x = s.pmu) :=
      fun t hw hp => hp ▸ ih t (hw.op ▸ hs)
    refine ((writeVerifyAmp_does w.1 w.2 s hs).bind hrow).weaken fun _ x hx => ?_
    obtain hx | ⟨-, -, hx⟩ := hx
    · exact hx
    · exact hx

/-- What follows a write-and-verify matters only in the states it can run on to. -/
theorem writeVerifyAmp_bind_congr {addr : BitVec 7} {v : Byte} {s : State} {f g : Unit → State → Flow β}
    (hs : s.cmd.op ≠ none) (h : ∀ t, Worked s t [] → f () t = g () t) :
    (writeVerifyAmp addr v s).bind f = (writeVerifyAmp addr v s).bind g := by
  obtain ⟨t, ht, hw, -⟩ | ⟨t, -, ht, -⟩ | ⟨t, -, ht, -⟩ := writeVerifyAmp_does addr v s hs
  · rw [ht]
    exact h t hw
  all_goals rw [ht]; rfl

/-- A last write told by the amplifier state it finds is told by the one before the write-and-verify. -/
theorem writeVerifyAmp_setAmp {addr : BitVec 7} {v : Byte} {s : State} (hs : s.cmd.op ≠ none) (x : Value)
    (f : AmpState → AmpState) :
    ((writeVerifyAmp addr v s).bind fun _ t => (ret x (t.setAmp (f t.amp)) : Flow Unit)) =
      (writeVerifyAmp addr v s).bind fun _ t => ret x (t.setAmp (f s.amp)) :=
  writeVerifyAmp_bind_congr hs fun _ ht => by rw [ht.amp]

/-! ### The configuration commands with legal operands -/

theorem Flow.bind_assoc (f : Flow α) (g : α → State → Flow β) (h : β → State → Flow γ) :
    (f.bind g).bind h = f.bind fun a s => (g a s).bind h := by
  cases f <;> rfl

theorem Flow.go_bind (a : α) (s : State) (g : α → State → Flow β) : (Flow.go a s).bind g = g a s := rfl

/-- An amplifier configuration command with legal operands, issued in `s`: the amplifier state and the value it aims at and
the row of writes on the way, 42_amp.md R254 to R256. -/
inductive AmpPlan (s : State) : Instr → AmpState → Value → List (BitVec 7 × Byte) → Prop
  /-- AMP_SET_GAIN: the two registers share the output gain. -/
  | gain {ig og : BitVec 8} {i : Fin 12} {o : Fin 3} (hi : index? 12 ig = some i) (ho : index? 3 og = some o) :
    AmpPlan s (.ampSetGain ig og) { s.amp with ig := i, og := o, gain := ampGain s.par i o }
      (.rational (ampGain s.par i o))
      [(s.par.ampRegGain, gainMux i o), (s.par.ampRegTestmux, testMux o s.amp.tmP s.amp.tmN)]
  /-- AMP_SET_SWITCH. -/
  | switch {p n : BitVec 8} {a b : SwitchSel} (h : switchPair? p n = some (a, b)) :
    AmpPlan s (.ampSetSwitch p n) { s.amp with swP := a, swN := b } .nothing [(s.par.ampRegInmux, inMux a b)]
  /-- AMP_SET_TESTMUX: the held output gain is sent again. -/
  | testmux {p n : BitVec 8} {a b : BitVec 2} (hp : bits? 2 p = some a) (hn : bits? 2 n = some b) :
    AmpPlan s (.ampSetTestmux p n) { s.amp with tmP := a, tmN := b } .nothing
      [(s.par.ampRegTestmux, testMux s.amp.og a b)]

/-- The obligations' target and writes are the plan's. -/
theorem ampPlan_of_target {i : Instr} {s : State} {a : AmpState} {v : Value} (h : ampTarget s i = some (a, v)) :
    AmpPlan s i a v (ampWrites s i) := by
  cases i with
  | ampSetGain ig og =>
    simp only [ampTarget, Option.bind_eq_some_iff, Option.map_eq_some_iff, Prod.mk.injEq] at h
    obtain ⟨i, hi, o, ho, rfl, rfl⟩ := h
    simp only [ampWrites, hi, ho]
    exact .gain hi ho
  | ampSetSwitch p n =>
    simp only [ampTarget, Option.map_eq_some_iff, Prod.mk.injEq] at h
    obtain ⟨x, hx, rfl, rfl⟩ := h
    simp only [ampWrites, hx]
    exact .switch hx
  | ampSetTestmux p n =>
    simp only [ampTarget, Option.bind_eq_some_iff, Option.map_eq_some_iff, Prod.mk.injEq] at h
    obtain ⟨x, hx, y, hy, rfl, rfl⟩ := h
    simp only [ampWrites, hx, hy]
    exact .testmux hx hy
  | _ => cases h

theorem AmpPlan.writes_ne_nil {i : Instr} {s : State} {a : AmpState} {v : Value} {ws : List (BitVec 7 × Byte)}
    (h : AmpPlan s i a v ws) : ws ≠ [] := by
  cases h <;> exact List.cons_ne_nil _ _

/-- The three configuration commands are one body: the command's writes, each verified, and then its target fields. A command
tells its last write by the state it is made in, the plan by the state before: `Worked` says that they agree. -/
theorem AmpPlan.exec_eq {i : Instr} {s : State} {a : AmpState} {v : Value} {ws : List (BitVec 7 × Byte)}
    (h : AmpPlan s i a v ws) :
    exec i s = .next (thenReturn v (fun t => t.setAmp a) (writeVerifyAmps ws (s.setCmd ⟨some i, 0⟩))) := by
  have hop : (s.setCmd ⟨some i, 0⟩).cmd.op ≠ none := Option.some_ne_none i
  cases h with
  | gain hi ho =>
    simp only [exec, execAmpSetGain, runCommand, hi, ho, thenReturn, writeVerifyAmps, Flow.bind_assoc, Flow.go_bind]
    refine congrArg (Host.Outcome.next ∘ Flow.state) (writeVerifyAmp_bind_congr hop fun t ht => ?_)
    rw [ht.par]
    refine writeVerifyAmp_bind_congr (ht.op ▸ hop) fun u hu => ?_
    rw [hu.par, hu.amp, ht.par, ht.amp]
    rfl
  | @switch _ _ a b hx =>
    simp only [exec, execAmpSetSwitch, runCommand, hx, thenReturn, writeVerifyAmps, Flow.bind_assoc, Flow.go_bind]
    exact congrArg (Host.Outcome.next ∘ Flow.state)
      (writeVerifyAmp_setAmp hop .nothing fun x => { x with swP := a, swN := b })
  | @testmux _ _ a b hp hn =>
    simp only [exec, execAmpSetTestmux, runCommand, hp, hn, thenReturn, writeVerifyAmps, Flow.bind_assoc, Flow.go_bind]
    exact congrArg (Host.Outcome.next ∘ Flow.state)
      (writeVerifyAmp_setAmp hop .nothing fun x => { x with tmP := a, tmN := b })

/-! ### For every device and every schedule, 42_amp.md R259 -/

/-- Settles O41: a row of write-and-verifies runs to its end, fails with VerifyFailed or is cut, and the target fields are
written only past its end. -/
theorem ampConfigurationIsAllOrNothing : Obligations.AmpConfigurationIsAllOrNothing := by
  intro i s t a v ha ht
  rw [(ampPlan_of_target ha).exec_eq, Host.Outcome.next.injEq] at ht
  subst ht
  obtain ⟨u, h, hw, -⟩ | ⟨u, m, h, hw, -⟩ | ⟨u, m, h, hc, -⟩ :=
    writeVerifyAmps_does (ampWrites s i) (s.setCmd ⟨some i, 0⟩) (Option.some_ne_none i)
  all_goals rw [h]
  · exact .inl ⟨congrArg (· ++ [Result.ok v]) hw.results, rfl⟩
  · exact .inr (.inl ⟨congrArg (· ++ [Result.fail .verifyFailed]) hw.results, hw.amp⟩)
  · exact .inr (.inr ⟨hc.results, hc.block⟩)

/-! ### On a scripted amplifier, nothing scheduled -/

/-- `WriteVerifyAmp` on a scripted amplifier whose readback verifies. -/
theorem writeVerifyAmp_verified {s : State} {w rb : Word32} {rest : List Answer} (addr : BitVec 7) (v : Byte)
    (hq : Quiet s) (h : s.env.amp = .shift w :: .shift rb :: rest)
    (hv : rb.extractLsb' 0 8 &&& s.par.ampEchoMask = v &&& s.par.ampEchoMask) :
    writeVerifyAmp addr v s = .go () (ampDone s 2 (ampVerifyEvents addr v rb) rest) :=
  (writeVerifyAmp_quiet addr v hq h).trans (if_pos hv)

/-- `ans` answers the writes `ws` with readbacks that verify: of each pair the second is the readback. -/
def AmpVerifies (p : Params) (ws : List (BitVec 7 × Byte)) (ans : List (Word32 × Word32)) : Prop :=
  List.Forall₂ (fun w x => x.2.extractLsb' 0 8 &&& p.ampEchoMask = w.2 &&& p.ampEchoMask) ws ans

/-- The wires of a row of write-and-verifies. -/
def ampRowEvents (ws : List (BitVec 7 × Byte)) (ans : List (Word32 × Word32)) : List BusEvent :=
  (ws.zip ans).flatMap fun x => ampVerifyEvents x.1.1 x.1.2 x.2.2

/-- A row, or the rest of one, inside a command that has made `n` primitives on the amplifier. -/
theorem writeVerifyAmps_ampDone {s : State} {ws : List (BitVec 7 × Byte)} {ans : List (Word32 × Word32)}
    {rest : List Answer} (hq : Quiet s) (hv : AmpVerifies s.par ws ans) (n : Nat) (e : List BusEvent) :
    writeVerifyAmps ws (ampDone s n e (verifyScript ans ++ rest)) =
      .go () (ampDone s (n + 2 * ws.length) (e ++ ampRowEvents ws ans) rest) := by
  induction hv generalizing n e with
  | nil => simp [writeVerifyAmps, verifyScript, ampRowEvents]
  | @cons w x ws ans hx _ ih =>
    have hw := writeVerifyAmp_verified (s := ampDone s n e (verifyScript (x :: ans) ++ rest)) w.1 w.2 hq rfl hx
    rw [writeVerifyAmps, hw, ampDone_ampDone]
    refine (ih (n + 2) (e ++ ampVerifyEvents w.1 w.2 x.2)).trans ?_
    simp only [ampRowEvents, List.zip_cons_cons, List.flatMap_cons, List.length_cons, List.append_assoc, Nat.mul_add,
      Nat.add_assoc, Nat.add_comm]

/-- A row of at least one write on a scripted amplifier. -/
theorem writeVerifyAmps_quiet {s : State} {ws : List (BitVec 7 × Byte)} {ans : List (Word32 × Word32)}
    {rest : List Answer} (hne : ws ≠ []) (hq : Quiet s) (hv : AmpVerifies s.par ws ans)
    (h : s.env.amp = verifyScript ans ++ rest) :
    writeVerifyAmps ws s = .go () (ampDone s (2 * ws.length) (ampRowEvents ws ans) rest) := by
  cases hv with
  | nil => exact (hne rfl).elim
  | @cons w x ws ans hx hv =>
    rw [writeVerifyAmps, writeVerifyAmp_verified w.1 w.2 hq h hx]
    refine (writeVerifyAmps_ampDone hq hv 2 _).trans ?_
    simp only [ampRowEvents, List.zip_cons_cons, List.flatMap_cons, List.length_cons, Nat.mul_add, Nat.add_comm]

/-- Settles O40: the row runs to its end, and then the last write and the return. -/
theorem ampConfigurationCommandsComplete : Obligations.AmpConfigurationCommandsComplete := by
  intro i s a v ans rest hq ha hv h
  have hplan := ampPlan_of_target ha
  rw [hplan.exec_eq, writeVerifyAmps_quiet (s := s.setCmd ⟨some i, 0⟩) hplan.writes_ne_nil hq hv h]
  rfl

end Sys2Proof.Machine
end

section
/-! Proofs, family 42_amp.md (2): AMP_INIT (R253) on a scripted amplifier with nothing scheduled: the identity read, and on the
expected identity the write-and-verify of the fault configuration. -/

namespace Sys2Proof.Machine

/-! ### A write-and-verify with a failed transfer, 42_amp.md R259 -/

theorem writeVerifyAmp_writeFails {s : State} {rest : List Answer} (addr : BitVec 7) (v : Byte) (hq : Quiet s)
    (h : s.env.amp = .fails :: rest) :
    writeVerifyAmp addr v s =
      raise .verifyFailed (ampDone s 1 [.xfer .amp [ampCommand .write addr, v] 0 .busError] rest) := by
  rw [writeVerifyAmp, ampWrite, prim_amp_quiet _ 0 hq h]
  rfl

theorem writeVerifyAmp_readFails {s : State} {w : Word32} {rest : List Answer} (addr : BitVec 7) (v : Byte) (hq : Quiet s)
    (h : s.env.amp = .shift w :: .fails :: rest) :
    writeVerifyAmp addr v s = raise .verifyFailed (ampDone s 2
      [.xfer .amp [ampCommand .write addr, v] 0 (.ok []), .xfer .amp [ampCommand .read addr] 1 .busError] rest) := by
  have hread := prim_amp_quiet (s := ampDone s 1 [.xfer .amp [ampCommand .write addr, v] 0 ((Answer.shift w).result 0)]
    (.fails :: rest)) [ampCommand .read addr] 1 hq rfl
  rw [ampDone_ampDone] at hread
  rw [writeVerifyAmp, ampWrite, prim_amp_quiet _ 0 hq h]
  simp only [Flow.go_bind, Answer.result, ampRead] at hread ⊢
  rw [hread]
  rfl

theorem writeVerifyAmp_differs {s : State} {w rb : Word32} {rest : List Answer} (addr : BitVec 7) (v : Byte)
    (hq : Quiet s) (h : s.env.amp = .shift w :: .shift rb :: rest)
    (hv : rb.extractLsb' 0 8 &&& s.par.ampEchoMask ≠ v &&& s.par.ampEchoMask) :
    writeVerifyAmp addr v s = raise .verifyFailed (ampDone s 2 (ampVerifyEvents addr v rb) rest) :=
  (writeVerifyAmp_quiet addr v hq h).trans (if_neg hv)

/-! ### The identity -/

/-- The last write of AMP_INIT on the expected identity, 42_amp.md R253. -/
def setIdentified (s : State) : State := s.setAmp { s.amp with faultIrqEn := true, idOk := true }

/-- AMP_INIT past the identity read, 42_amp.md R253. -/
def checkIdentity (r : XferResult) (s : State) : Flow Unit :=
  match r with
  | .busError => raise .busError s
  | .ok bs =>
    if (packBytes bs).setWidth 8 = Config.ampIdExpected then
      (writeVerifyAmp s.par.ampRegFaultcfg s.par.ampFaultcfgValue s).bind fun _ t =>
      ret .nothing (setIdentified t)
    else raise .identityMismatch (s.setAmp { s.amp with idOk := false })

theorem exec_ampInit (s : State) :
    exec .ampInit s = .next ((prim (ampRead s.par.ampRegId) (s.setCmd ⟨some .ampInit, 0⟩)).bind checkIdentity).state := rfl

theorem checkIdentity_expected (s : State) :
    checkIdentity (.ok [0x30]) s =
      (writeVerifyAmp s.par.ampRegFaultcfg s.par.ampFaultcfgValue s).bind fun _ t =>
        ret .nothing (setIdentified t) := rfl

theorem checkIdentity_unexpected {b : Byte} (hb : b ≠ 0x30) (s : State) :
    checkIdentity (.ok [b]) s = raise .identityMismatch (s.setAmp { s.amp with idOk := false }) := by
  have hpack : (packBytes [b]).setWidth 8 = b := by simp [packBytes]
  exact if_neg (hpack.symm ▸ hb)

/-- AMP_INIT in `s` after an identity read that brought back `r`, `rest` of the answers left. -/
def identityRead (s : State) (r : XferResult) (rest : List Answer) : State :=
  ampDone (s.setCmd ⟨some .ampInit, 0⟩) 1 [.xfer .amp [ampCommand .read s.par.ampRegId] 1 r] rest

theorem ampDone_identityRead (s : State) (r : XferResult) (n : Nat) (e : List BusEvent) (rest rest' : List Answer) :
    ampDone (identityRead s r rest) n e rest' = ampDone (s.setCmd ⟨some .ampInit, 0⟩) (1 + n)
      (.xfer .amp [ampCommand .read s.par.ampRegId] 1 r :: e) rest' :=
  ampDone_ampDone ..

theorem exec_ampInit_quiet {s : State} {a : Answer} {rest : List Answer} (hq : Quiet s) (h : s.env.amp = a :: rest) :
    exec .ampInit s = .next (checkIdentity (a.result 1) (identityRead s (a.result 1) rest)).state := by
  rw [exec_ampInit, ampRead, prim_amp_quiet (s := s.setCmd ⟨some .ampInit, 0⟩) _ 1 hq h]
  rfl

theorem result_shift_one (w : Word32) : (Answer.shift w).result 1 = .ok [w.extractLsb' 0 8] := by
  simp only [Answer.result, bytesOf, BitVec.setWidth_ushiftRight_eq_extractLsb]

/-- On the expected identity the write-and-verify of the fault configuration is left, and the two flags. -/
theorem exec_ampInit_expected {s : State} {id : Word32} {rest : List Answer} (hq : Quiet s)
    (h : s.env.amp = .shift id :: rest) (hid : id.extractLsb' 0 8 = 0x30) :
    exec .ampInit s = .next (thenReturn .nothing setIdentified
      (writeVerifyAmp s.par.ampRegFaultcfg s.par.ampFaultcfgValue (identityRead s (.ok [0x30]) rest))) := by
  rw [exec_ampInit_quiet hq h, result_shift_one, hid, checkIdentity_expected]
  rfl

/-- Whatever ends the write-and-verify early, AMP_INIT leaves the amplifier state as it was. -/
theorem exec_ampInit_verifyFails {s : State} {id : Word32} {rest rest' : List Answer} {n : Nat} {e : List BusEvent}
    (hq : Quiet s) (h : s.env.amp = .shift id :: rest) (hid : id.extractLsb' 0 8 = 0x30)
    (hwv : writeVerifyAmp s.par.ampRegFaultcfg s.par.ampFaultcfgValue (identityRead s (.ok [0x30]) rest) =
      raise .verifyFailed (ampDone (identityRead s (.ok [0x30]) rest) n e rest')) :
    exec .ampInit s = .next (afterAmp s (.fail .verifyFailed) s.amp
      (.xfer .amp [ampCommand .read s.par.ampRegId] 1 (.ok [0x30]) :: e) rest') := by
  rw [exec_ampInit_expected hq h hid, hwv, ampDone_identityRead]
  rfl

/-- Settles O39: the two identities, and the four ends of the fault configuration's write-and-verify. -/
theorem ampInitChecksTheIdentity : Obligations.AmpInitChecksTheIdentity := by
  intro s rest hq
  refine ⟨fun id w rb h hid hv => ?verified, fun id w rb h hid hv => ?differs, fun id h hid => ?writeFails,
    fun id w h hid => ?readFails, fun id h hid => ?unexpected, fun h => ?identityFails⟩
  case verified =>
    have hwv := writeVerifyAmp_verified (s := identityRead s (.ok [0x30]) (.shift w :: .shift rb :: rest))
      s.par.ampRegFaultcfg s.par.ampFaultcfgValue hq rfl hv
    rw [exec_ampInit_expected hq h hid, hwv, ampDone_identityRead]
    rfl
  case differs => exact exec_ampInit_verifyFails hq h hid (writeVerifyAmp_differs _ _ hq rfl hv)
  case writeFails => exact exec_ampInit_verifyFails hq h hid (writeVerifyAmp_writeFails _ _ hq rfl)
  case readFails => exact exec_ampInit_verifyFails hq h hid (writeVerifyAmp_readFails _ _ hq rfl)
  case unexpected =>
    rw [exec_ampInit_quiet hq h, result_shift_one, checkIdentity_unexpected hid]
    rfl
  case identityFails =>
    rw [exec_ampInit_quiet hq h]
    rfl

end Sys2Proof.Machine
end

section
/-! Proofs, family 43_convert.md (1): the reference tables, the ADC direction and the two queries. The six reference windows
are symmetric about zero, so one half-width for each role and range gives window, scale and offset. -/

namespace Sys2Proof.Machine

/-! ### Windows, 43_convert.md R302, R303 -/

theorem iFs_reference_pos (r : Range) : 0 < Params.reference.iFs[r] := by
  revert r
  decide +kernel

/-- The half-width of a role's extended window for the reference parameters. -/
def refReach (role : Role) (r : Range) : Rat :=
  match role with
  | .fv => 21 / 2
  | .fi => 21 / 20 * Params.reference.iFs[r]
  | .clli | .clhi => 9 / 8 * Params.reference.iFs[r]
  | .cllv | .clhv => 45 / 4

theorem refReach_pos (role : Role) (r : Range) : 0 < refReach role r := by
  have hI := iFs_reference_pos r
  cases role <;> simp only [refReach] <;> positivity

theorem nominalWindow_current (p : Params) {role : Role} (h : Role.currentLike role = true) (r : Range) :
    nominalWindow p role r = (-p.iFs[r], p.iFs[r]) := if_pos h

theorem nominalWindow_voltage {role : Role} (h : Role.currentLike role = false) (r : Range) :
    nominalWindow .reference role r = (-10, 10) := if_neg (ne_true_of_eq_false h)

/-- A symmetric nominal window is stretched by the allowance on both sides. -/
theorem extendedWindow_of_symmetric {p : Params} {role : Role} {r : Range} {x y : Rat}
    (hx : nominalWindow p role r = (-x, x)) (hy : (1 + allowance role) * x = y) :
    extendedWindow p role r = (-y, y) := by
  rw [extendedWindow, hx, ← hy]
  ext <;> dsimp only <;> ring

theorem allowance_eq (role : Role) : allowance role =
    match role with
    | .fv | .fi => 1 / 20
    | .clli | .clhi | .cllv | .clhv => 1 / 8 := by
  cases role <;> rfl

theorem extendedWindow_reference (role : Role) (r : Range) :
    extendedWindow .reference role r = (-refReach role r, refReach role r) := by
  cases role with
  | fv | cllv | clhv =>
    exact extendedWindow_of_symmetric (nominalWindow_voltage rfl r) (by norm_num [allowance_eq, refReach])
  | fi | clli | clhi =>
    exact extendedWindow_of_symmetric (nominalWindow_current _ rfl r) (by norm_num [allowance_eq, refReach])

theorem ieq_reference (r : Range) : ieq .reference r = Params.reference.iFs[r] / 8 := by
  revert r
  decide +kernel

/-! ### The calibration table, 43_convert.md R306 -/

/-- Entry by entry: six roles, six ranges. -/
theorem calScale_reference (role : Role) (r : Range) : calScale .reference role r = 65535 / (2 * refReach role r) := by
  revert r
  cases role <;> decide +kernel

theorem calOffset_reference (role : Role) (r : Range) : calOffset .reference role r = 65535 / 2 := by
  revert r
  cases role <;> decide +kernel

theorem calScale_reference_pos (role : Role) (r : Range) : 0 < calScale .reference role r := by
  have := refReach_pos role r
  rw [calScale_reference]
  positivity

theorem calScale_mul_refReach (role : Role) (r : Range) : calScale .reference role r * refReach role r = 65535 / 2 := by
  have := (refReach_pos role r).ne'
  rw [calScale_reference]
  field_simp

/-- Settles O46: the windows and the calibration table from the lemmas above, the other values read off the tables. -/
theorem referenceTablesAgree : Obligations.ReferenceTablesAgree := by
  refine ⟨fun r => ⟨extendedWindow_reference .fv r, extendedWindow_reference .cllv r, extendedWindow_reference .clhv r,
      extendedWindow_reference .fi r, extendedWindow_reference .clli r, extendedWindow_reference .clhi r, ieq_reference r⟩,
    fun role r => ⟨?scale, ?offset⟩, ?rcons, ⟨rfl, rfl, rfl, rfl, rfl, rfl⟩, ⟨rfl, rfl, rfl, rfl, rfl, rfl⟩, ?stored,
    rfl, rfl, ⟨?iFs, rfl, rfl, rfl, rfl, rfl, rfl, rfl, rfl⟩,
    ⟨rfl, rfl, rfl, rfl, rfl, rfl, rfl, rfl, rfl, rfl⟩, ⟨rfl, rfl, rfl, rfl, rfl, rfl, rfl, rfl, rfl, rfl, rfl⟩,
    ⟨rfl, ?clISafe, rfl, rfl, rfl⟩, ?ig, rfl⟩
  case scale =>
    rw [extendedWindow_reference, calScale_reference]
    ring
  case offset =>
    rw [extendedWindow_reference, calOffset_reference, neg_neg, mul_comm, calScale_mul_refReach]
  case rcons => decide +kernel
  case stored =>
    intro ch role
    cases role <;> rfl
  case iFs => decide +kernel
  case clISafe => decide +kernel
  case ig => decide +kernel

/-! ### ADC direction, 43_convert.md R304, R305 -/

theorem adcToVolts_eq (p : Params) (code : BitVec 24) :
    adcToVolts p code = p.adcVref * ((code.toNat : Rat) / 2 ^ 23 - 1) := by
  rw [adcToVolts, adcCal]
  ring

/-- Settles O47: the code lies from 0 to 2^24 - 1. -/
theorem adcConversionIsLinear : Obligations.AdcConversionIsLinear := by
  intro p code r
  refine ⟨by norm_num [adcToVolts, adcCal], rfl, fun href => ⟨?low, ?high⟩⟩
  all_goals rw [adcToVolts_eq]
  case low =>
    have hcode : (-1 : Rat) ≤ (code.toNat : Rat) / 2 ^ 23 - 1 := by
      have : (0 : Rat) ≤ (code.toNat : Rat) / 2 ^ 23 := by positivity
      linarith
    linarith [mul_le_mul_of_nonneg_left hcode href]
  case high =>
    have hcode : (code.toNat : Rat) ≤ 2 ^ 24 - 1 := by
      rw [le_sub_iff_add_le]
      exact_mod_cast code.isLt
    exact mul_le_mul_of_nonneg_left (by linarith) href

/-! ### The queries, 43_convert.md R310, R311 -/

/-- Settles O42: neither query has a bus primitive, so no schedule steps in. -/
theorem queriesReturnTheConversion : Obligations.QueriesReturnTheConversion := by
  refine ⟨fun s role range value ro r x hro hr hx => ?_, fun s range code r c hr hc => ⟨?_, ?_⟩⟩
  · simp only [exec, execSmuValueToCode, hro, hr, hx]
    rfl
  · simp only [exec, execSmuCodeToValue, hr, hc]
    rfl
  · simp only [exec, execSmuCodeToValue, hr, hc]
    rfl

end Sys2Proof.Machine
end

section
/-! Proofs, family 43_convert.md (2): the DAC direction. A code is the calibrated effective value, rounded half up and
saturated; monotonicity, rounding and the round trip are facts about these two functions. -/

namespace Sys2Proof.Machine

/-! ### The arithmetic helpers, 00_scope.md R14 -/

theorem clampTo_mono {x y : Rat} (lo hi : Rat) (h : x ≤ y) : clampTo x lo hi ≤ clampTo y lo hi :=
  min_le_min_left hi (max_le_max_left lo h)

theorem clampTo_of_mem {x lo hi : Rat} (hlo : lo ≤ x) (hhi : x ≤ hi) : clampTo x lo hi = x := by
  rw [clampTo, max_eq_right hlo, min_eq_right hhi]

theorem le_roundHalfUp {n : Int} {x : Rat} : n ≤ roundHalfUp x ↔ (n : Rat) - 1 / 2 ≤ x := by
  rw [roundHalfUp, Rat.le_floor_iff, sub_le_iff_le_add]

theorem roundHalfUp_lt {n : Int} {x : Rat} : roundHalfUp x < n ↔ x < (n : Rat) - 1 / 2 :=
  lt_iff_lt_of_le_iff_le le_roundHalfUp

theorem roundHalfUp_mono {x y : Rat} (h : x ≤ y) : roundHalfUp x ≤ roundHalfUp y :=
  le_roundHalfUp.2 ((le_roundHalfUp.1 le_rfl).trans h)

/-- Nearest, and an exact half goes up. -/
theorem roundHalfUp_nearest (x : Rat) : (roundHalfUp x : Rat) - 1 / 2 ≤ x ∧ x < roundHalfUp x + 1 / 2 := by
  refine ⟨le_roundHalfUp.1 le_rfl, ?_⟩
  have h := roundHalfUp_lt.1 (Int.lt_succ (roundHalfUp x))
  push_cast at h
  linarith

theorem sat16_eq_clamp (n : Int) : (sat16 n : Int) = max 0 (min n 65535) := by
  unfold sat16
  split_ifs <;> omega

theorem sat16_le (n : Int) : sat16 n ≤ 65535 := by
  have := sat16_eq_clamp n
  omega

theorem sat16_mono {m n : Int} (h : m ≤ n) : sat16 m ≤ sat16 n := by
  have := sat16_eq_clamp m
  have := sat16_eq_clamp n
  omega

theorem sat16_of_mem {n : Int} (h0 : 0 ≤ n) (h1 : n ≤ 65535) : (sat16 n : Int) = n := by
  rw [sat16_eq_clamp, min_eq_left h1, max_eq_right h0]

/-! ### Rounded and saturated -/

/-- The code of a calibrated value `y`, 43_convert.md R308. -/
def codeOf (y : Rat) : Nat := sat16 (roundHalfUp y)

theorem codeOf_le (y : Rat) : codeOf y ≤ 65535 := sat16_le _

theorem codeOf_mono {x y : Rat} (h : x ≤ y) : codeOf x ≤ codeOf y := sat16_mono (roundHalfUp_mono h)

theorem codeOf_low {y : Rat} (h : y < 1 / 2) : codeOf y = 0 := by
  have hr : roundHalfUp y < 1 := roundHalfUp_lt.2 (by norm_num [h])
  have := sat16_eq_clamp (roundHalfUp y)
  unfold codeOf
  omega

theorem codeOf_high {y : Rat} (h : 131069 / 2 ≤ y) : codeOf y = 65535 := by
  have hr : 65535 ≤ roundHalfUp y := le_roundHalfUp.2 (by norm_num [h])
  have := sat16_eq_clamp (roundHalfUp y)
  unfold codeOf
  omega

/-- Where saturation does nothing: up to half a step past either end of the code range. -/
theorem codeOf_nearest {y : Rat} (h0 : -(1 / 2) ≤ y) (h1 : y < 131071 / 2) :
    (codeOf y : Rat) - 1 / 2 ≤ y ∧ y < (codeOf y : Rat) + 1 / 2 := by
  have hlo : 0 ≤ roundHalfUp y := le_roundHalfUp.2 (by norm_num; linarith)
  have hhi : roundHalfUp y < 65536 := roundHalfUp_lt.2 (by norm_num [h1])
  have hcode : ((codeOf y : Int) : Rat) = roundHalfUp y := congrArg _ (sat16_of_mem hlo (by omega))
  rw [← Int.cast_natCast, hcode]
  exact roundHalfUp_nearest y

/-! ### ValueToCode, 43_convert.md R308 -/

section
variable (p : Params) (role : Role) (r : Range) (x cllv clhv : Rat)

theorem valueToCode_snd : (valueToCode p role r x cllv clhv).2 =
    clampTo (separate p role r x cllv clhv) (extendedWindow p role r).1 (extendedWindow p role r).2 := rfl

theorem valueToCode_fst : (valueToCode p role r x cllv clhv).1 = BitVec.ofNat 16
    (codeOf (calScale p role r * (valueToCode p role r x cllv clhv).2 + calOffset p role r)) := rfl

theorem valueToCode_toNat : (valueToCode p role r x cllv clhv).1.toNat =
    codeOf (calScale p role r * (valueToCode p role r x cllv clhv).2 + calOffset p role r) := by
  rw [valueToCode_fst, BitVec.toNat_ofNat, Nat.mod_eq_of_lt (Nat.lt_succ_of_le (codeOf_le _))]

end

theorem separate_mono (p : Params) (role : Role) (r : Range) {x y : Rat} (cllv clhv : Rat) (h : x ≤ y) :
    separate p role r x cllv clhv ≤ separate p role r y cllv clhv := by
  cases role with
  | fv | fi => exact h
  | clli | cllv => exact min_le_min_right _ h
  | clhi | clhv => exact max_le_max_right _ h

theorem valueToCode_mono {p : Params} {role : Role} {r : Range} {x y : Rat} (cllv clhv : Rat)
    (hscale : 0 < calScale p role r) (h : x ≤ y) :
    (valueToCode p role r x cllv clhv).1.toNat ≤ (valueToCode p role r y cllv clhv).1.toNat := by
  have hxe : (valueToCode p role r x cllv clhv).2 ≤ (valueToCode p role r y cllv clhv).2 :=
    clampTo_mono _ _ (separate_mono p role r cllv clhv h)
  rw [valueToCode_toNat, valueToCode_toNat]
  exact codeOf_mono (add_le_add_left (mul_le_mul_of_nonneg_left hxe hscale.le) _)

/-- A value inside the window that separation leaves alone is its own effective value. -/
theorem valueToCode_snd_of_mem {p : Params} {role : Role} {r : Range} {x cllv clhv : Rat}
    (hsep : separate p role r x cllv clhv = x) (hlo : (extendedWindow p role r).1 ≤ x)
    (hhi : x ≤ (extendedWindow p role r).2) : (valueToCode p role r x cllv clhv).2 = x := by
  rw [valueToCode_snd, hsep, clampTo_of_mem hlo hhi]

/-- Zero is the middle of the window, 32767.5 before the rounding. -/
theorem valueToCode_zero (r : Range) (cllv clhv : Rat) : valueToCode .reference .fv r 0 cllv clhv = (32768, 0) := by
  have hreach := refReach_pos .fv r
  have hxe : (valueToCode .reference .fv r 0 cllv clhv).2 = 0 := by
    apply valueToCode_snd_of_mem rfl <;> rw [extendedWindow_reference] <;> dsimp only <;> linarith
  have hround : codeOf (65535 / 2) = 32768 := by decide +kernel
  ext1
  · rw [valueToCode_fst, hxe, mul_zero, zero_add, calOffset_reference, hround]
    rfl
  · exact hxe

/-- Settles O43: each claim about the code is one about `codeOf`. -/
theorem valueToCodeIsMonotone : Obligations.ValueToCodeIsMonotone := by
  refine ⟨fun p role r x y cllv clhv hscale h => ⟨valueToCode_mono cllv clhv hscale h, ?range⟩,
    fun p role r x cllv clhv => ⟨fun h => ?low, fun h => ?high, fun h0 h1 => ?nearest⟩, valueToCode_zero⟩
  case range =>
    rw [valueToCode_toNat]
    exact codeOf_le _
  case low =>
    rw [valueToCode_fst, codeOf_low h]
    rfl
  case high =>
    rw [valueToCode_fst, codeOf_high h]
    rfl
  case nearest =>
    rw [valueToCode_toNat]
    exact codeOf_nearest (by linarith) (by linarith)

/-! ### The round trip, 43_convert.md R309, R313 -/

/-- The reference table maps the extended window onto the code range, from 0 to 65535. -/
theorem calibrated_mem {role : Role} {r : Range} {x : Rat} (hlo : (extendedWindow .reference role r).1 ≤ x)
    (hhi : x ≤ (extendedWindow .reference role r).2) :
    0 ≤ calScale .reference role r * x + calOffset .reference role r ∧
      calScale .reference role r * x + calOffset .reference role r ≤ 65535 := by
  have hscale := (calScale_reference_pos role r).le
  have hreach := calScale_mul_refReach role r
  simp only [extendedWindow_reference] at hlo hhi
  have hy0 := mul_le_mul_of_nonneg_left hlo hscale
  have hy1 := mul_le_mul_of_nonneg_left hhi hscale
  rw [calOffset_reference]
  constructor <;> linarith

/-- Settles O44: the code is half a step from the calibrated value, and a step is 1 / CAL_SCALE. -/
theorem dacRoundTripWithinHalfAStep : Obligations.DacRoundTripWithinHalfAStep := by
  intro role r v cllv clhv hsep hlo hhi
  have hscale := calScale_reference_pos role r
  obtain ⟨hy0, hy1⟩ := calibrated_mem hlo hhi
  obtain ⟨hn0, hn1⟩ := codeOf_nearest (hy0.trans' (by norm_num)) (hy1.trans_lt (by norm_num))
  rw [dacToValue, valueToCode_toNat, valueToCode_snd_of_mem hsep hlo hhi]
  generalize codeOf (calScale .reference role r * v + calOffset .reference role r) = n at hn0 hn1 ⊢
  calc |((n : Rat) - calOffset .reference role r) / calScale .reference role r - v|
      = |(n : Rat) - (calScale .reference role r * v + calOffset .reference role r)| / calScale .reference role r := by
        rw [← abs_of_pos hscale, ← abs_div, abs_of_pos hscale]
        congr 1
        field_simp
        ring
    _ ≤ 1 / 2 / calScale .reference role r := by
        gcongr
        rw [abs_le]
        constructor <;> linarith
    _ = 1 / (2 * calScale .reference role r) := div_div ..

end Sys2Proof.Machine
end

section
/-! Proofs, family 43_convert.md (3): the effective value. Separation and the window clamp together are one clamp onto an
interval, `legalWindow`, whose members are the legal values; and so a step keeps the voltage clamps separated. -/

namespace Sys2Proof.Machine

/-! ### A clamp is the nearest point of its interval -/

theorem clampTo_mem (x : Rat) {lo hi : Rat} (h : lo ≤ hi) : lo ≤ clampTo x lo hi ∧ clampTo x lo hi ≤ hi :=
  ⟨le_min h (le_max_left lo x), min_le_left hi _⟩

theorem clampTo_nearest (x : Rat) {lo hi y : Rat} (hlo : lo ≤ y) (hhi : y ≤ hi) : |clampTo x lo hi - x| ≤ |y - x| := by
  refine Set.abs_sub_left_of_mem_uIcc (Set.mem_uIcc.2 ?_)
  have hy : clampTo y lo hi = y := clampTo_of_mem hlo hhi
  obtain hx | hx := le_total x y
  · exact .inl ⟨le_min (hx.trans hhi) (le_max_right lo x), hy ▸ clampTo_mono lo hi hx⟩
  · exact .inr ⟨hy ▸ clampTo_mono lo hi hx, (min_le_right hi _).trans (max_le (hlo.trans hx) le_rfl)⟩

/-! ### The legal values, 43_convert.md R302, R303 -/

/-- The ends of the legal values of a role: the extended window, cut at the separation's bound. -/
def legalWindow (p : Params) (role : Role) (r : Range) (cllv clhv : Rat) : Rat × Rat :=
  let w := extendedWindow p role r
  match role with
  | .fv => w
  | .fi => w
  | .clli => (w.1, min w.2 (-ieq p r))
  | .clhi => (max w.1 (ieq p r), w.2)
  | .cllv => (w.1, min w.2 (clhv - Config.sepV))
  | .clhv => (max w.1 (cllv + Config.sepV), w.2)

theorem legalValue_iff_mem_legalWindow (p : Params) (role : Role) (r : Range) (cllv clhv x : Rat) :
    LegalValue p role r cllv clhv x ↔
      (legalWindow p role r cllv clhv).1 ≤ x ∧ x ≤ (legalWindow p role r cllv clhv).2 := by
  cases role with
  | fv | fi => simp only [LegalValue, legalWindow, and_true]
  | clli | cllv => simp only [LegalValue, legalWindow, le_min_iff, Config.sepV]
  | clhi | clhv =>
    simp only [LegalValue, legalWindow, max_le_iff, Config.sepV]
    tauto

/-- Separation before the window clamp is one clamp, as long as separation does not leave the window empty. -/
theorem valueToCode_snd_eq_clampTo {p : Params} {role : Role} {r : Range} {cllv clhv : Rat} (x : Rat)
    (h : (legalWindow p role r cllv clhv).1 ≤ (legalWindow p role r cllv clhv).2) :
    (valueToCode p role r x cllv clhv).2 =
      clampTo x (legalWindow p role r cllv clhv).1 (legalWindow p role r cllv clhv).2 := by
  rw [valueToCode_snd]
  cases role with
  | fv | fi => rfl
  | clli | cllv =>
    simp only [clampTo, separate, legalWindow, le_min_iff] at h ⊢
    obtain ⟨-, hlo⟩ := h
    rw [max_min_distrib_left, max_eq_right hlo, min_assoc, min_comm (max _ x)]
  | clhi | clhv =>
    simp only [clampTo, separate, legalWindow]
    rw [max_assoc, max_comm x]

/-- Nowhere in their windows do the reference voltage clamps leave their partner without a legal value. -/
theorem legalWindow_reference_nonempty (role : Role) (r : Range) {cllv clhv : Rat} (hcllv : cllv ≤ 43 / 4)
    (hclhv : -(43 / 4) ≤ clhv) :
    (legalWindow .reference role r cllv clhv).1 ≤ (legalWindow .reference role r cllv clhv).2 := by
  have hreach := refReach_pos role r
  have hI := iFs_reference_pos r
  simp only [legalWindow, extendedWindow_reference, ieq_reference, Config.sepV]
  cases role with
  | fv | fi => dsimp only; linarith
  | clli | cllv =>
    refine le_min (by linarith) ?_
    simp only [refReach]
    linarith
  | clhi | clhv =>
    refine max_le (by linarith) ?_
    simp only [refReach]
    linarith

/-- Settles O45: the effective value is the request clamped onto the legal values. -/
theorem effectiveValueIsLegal : Obligations.EffectiveValueIsLegal := by
  intro role r x cllv clhv _ hcllv hclhv _
  have hne := legalWindow_reference_nonempty role r hcllv hclhv
  simp only [legalValue_iff_mem_legalWindow, valueToCode_snd_eq_clampTo x hne]
  exact ⟨clampTo_mem x hne, fun ⟨hlo, hhi⟩ => clampTo_of_mem hlo hhi, fun y ⟨hlo, hhi⟩ => clampTo_nearest x hlo hhi⟩

/-! ### The voltage clamps, 43_convert.md R314 -/

/-- The invariant reads the two voltage clamps only. -/
theorem VoltageClampsSeparated.of_eq {s t : State} (hcllv : t.smu.ch.cllv = s.smu.ch.cllv)
    (hclhv : t.smu.ch.clhv = s.smu.ch.clhv) (hs : VoltageClampsSeparated s) : VoltageClampsSeparated t := by
  rw [VoltageClampsSeparated, hcllv, hclhv]
  exact hs

theorem VoltageClampsSeparated.of_settings {s t : State} (h : SameSettings t.smu.ch s.smu.ch)
    (hs : VoltageClampsSeparated s) : VoltageClampsSeparated t := by
  obtain ⟨-, -, -, -, hcllv, hclhv, -⟩ := h
  exact hs.of_eq hcllv hclhv

/-- A legal value stored in its role stays 0.5 V from the stored partner. -/
theorem VoltageClampsSeparated.store {s t : State} {role : Role} {r : Range} {xe : Rat} (b : Nat)
    (hs : VoltageClampsSeparated s) (hxe : LegalValue .reference role r s.smu.ch.cllv s.smu.ch.clhv xe)
    (ht : t.smu.ch = (s.smu.ch.setValue role xe).mark b) : VoltageClampsSeparated t := by
  cases role with
  | fv | fi | clli | clhi => exact hs.of_eq (ht ▸ rfl) (ht ▸ rfl)
  | cllv | clhv =>
    obtain ⟨hcllv0, hcllv1, hclhv0, hclhv1, -⟩ := hs
    simp only [LegalValue, extendedWindow_reference, refReach] at hxe
    obtain ⟨hlo, hhi, hbound⟩ := hxe
    simp only [VoltageClampsSeparated, ht, SmuChannel.mark, SmuChannel.setValue]
    refine ⟨?_, ?_, ?_, ?_, ?_⟩ <;> linarith

theorem CommandWrite.voltageClampsSeparated {s t : State} (h : CommandWrite s t) (hp : s.par = .reference)
    (hs : VoltageClampsSeparated s) : VoltageClampsSeparated t := by
  cases h with
  | smuValue role x xe hxe =>
    have ⟨hcllv0, hcllv1, hclhv0, hclhv1, _⟩ := hs
    obtain ⟨hlegal, -⟩ := effectiveValueIsLegal role s.smu.ch.range x _ _ hcllv0 hcllv1 hclhv0 hclhv1
    rw [← hp, ← hxe, hp] at hlegal
    exact hs.store _ hlegal rfl
  | publish => exact hs.of_settings (drain_settings s)
  | _ => exact hs

theorem BlockReset.voltageClampsSeparated {t : State} (h : BlockReset t) (hp : t.par = .reference) :
    VoltageClampsSeparated t := by
  obtain ⟨-, -, -, hsmu, -⟩ := h
  have hch : t.smu.ch = State.reset.smu.ch := by
    rw [hsmu, hp]
    rfl
  exact reset_voltageClampsSeparated.of_eq (congrArg _ hch) (congrArg _ hch)

theorem voltageClampsSeparated_maintained : Maintained (fun s => s.par = .reference ∧ VoltageClampsSeparated s) where
  undisturbed h := fun ⟨hp, hs⟩ => ⟨h.par.trans hp, hs.of_settings h.settings⟩
  write h := fun ⟨hp, hs⟩ => ⟨h.par.trans hp, h.voltageClampsSeparated hp hs⟩
  reset h hpar := fun ⟨hp, _⟩ => ⟨hpar.trans hp, h.voltageClampsSeparated (hpar.trans hp)⟩

/-- Settles O14: the one write of a voltage clamp stores a legal value. -/
theorem stepKeepsVoltageClampsSeparated : Obligations.StepKeepsVoltageClampsSeparated :=
  fun _ _ hp hs h => voltageClampsSeparated_maintained.step h ⟨hp, hs⟩

end Sys2Proof.Machine
end

section
/-! Proofs, family 44_sequencer.md (1): a plan's row of write-and-verifies (R357), run in order. What a row does for every
device and schedule, and on a scripted PMU with nothing scheduled. -/

namespace Sys2Proof.Machine

/-! ### Running a plan -/

/-- One write-and-verify of a plan on PMU channel 0, and its commit. -/
def HwStep.run : HwStep → State → Flow Unit
  | .dac role code, s => writeVerifyDac 0 (dacAddr s.par role) code s
  | .reg v, s => updateCh 0 v s

/-- The PMU shadows after a verified step: a register step commits its value, 40_pmu.md R144. -/
def HwStep.commit : HwStep → PmuState → PmuState
  | .dac _ _, x => x
  | .reg v, x => { x with ch := x.ch.set 0 v }

/-- The write-and-verifies of a plan, in order. -/
def runPlan : List HwStep → State → Flow Unit
  | [], s => .go () s
  | st :: plan, s => (st.run s).bind fun _ t => runPlan plan t

/-- The PMU shadows after a whole plan. -/
def commitPlan (plan : List HwStep) (x : PmuState) : PmuState := plan.foldl (fun x st => st.commit x) x

theorem commitPlan_cons (st : HwStep) (plan : List HwStep) (x : PmuState) :
    commitPlan (st :: plan) x = commitPlan plan (st.commit x) := rfl

theorem planEvents_cons (p : Params) (st : HwStep) (plan : List HwStep) (a : Word32 × Word32)
    (ans : List (Word32 × Word32)) : planEvents p (st :: plan) (a :: ans) = st.events p a.2 ++ planEvents p plan ans :=
  rfl

/-- Two primitives for one more step. -/
theorem two_mul_length_cons (st : HwStep) (plan : List HwStep) : 2 * (st :: plan).length = 2 + 2 * plan.length := by
  rw [List.length_cons]
  omega

theorem Flow.bind_go (f : Flow Unit) : (f.bind fun _ t => .go () t) = f := by
  cases f <;> rfl

theorem runPlan_singleton (st : HwStep) (s : State) : runPlan [st] s = st.run s := Flow.bind_go (st.run s)

theorem runPlan_append (plan plan' : List HwStep) (s : State) :
    runPlan (plan ++ plan') s = (runPlan plan s).bind fun _ t => runPlan plan' t := by
  induction plan generalizing s with
  | nil => rfl
  | cons st plan ih => simp only [List.cons_append, runPlan, Flow.bind_assoc, ih]

/-! ### For every device and every schedule -/

theorem HwStep.run_does (st : HwStep) (s : State) (hs : s.cmd.op ≠ none) :
    Does (st.run s) s (st.frames s.par) (st.commit s.pmu) (fun _ _ => True) := by
  cases st with
  | dac role code => exact (writeVerifyDac_does 0 (dacAddr s.par role) code s hs).weaken fun _ _ _ => trivial
  | reg v => exact (updateCh_does 0 v s hs).weaken fun _ _ _ => trivial

/-- A plan sends its frames in order, as far as it comes, and commits its shadows when it comes to its end. -/
theorem runPlan_does (plan : List HwStep) (s : State) (hs : s.cmd.op ≠ none) :
    Does (runPlan plan s) s (plan.flatMap (HwStep.frames s.par)) (commitPlan plan s.pmu) (fun _ _ => True) := by
  induction plan generalizing s with
  | nil => exact .inl ⟨s, rfl, .refl s, rfl⟩
  | cons st plan ih =>
    have hrest : ∀ t, Worked s t (st.frames s.par) → t.pmu = st.commit s.pmu →
        Does (runPlan plan t) t (plan.flatMap (HwStep.frames s.par)) (commitPlan plan (st.commit s.pmu))
          (fun _ _ => True) :=
      fun t hw hp => hw.par ▸ hp ▸ ih t (hw.op ▸ hs)
    exact ((st.run_does s hs).bind hrest).weaken fun _ _ _ => trivial

/-! ### On a scripted PMU, nothing scheduled -/

/-- One step of a plan on a scripted PMU: it goes on with its commit exactly if the readback verifies. -/
theorem HwStep.run_quiet {s : State} {a : Word32 × Word32} {rest : List Answer} {brest : List Bool} (st : HwStep)
    (hq : Quiet s) (hn : 0 < s.par.busyPollLimit) (h : s.env.pmu = .shift a.1 :: .shift a.2 :: rest)
    (hb : s.env.busy = true :: true :: brest) :
    st.run s =
      let t := pmuDone s 2 (st.events s.par a.2) rest brest
      if st.verified s.par a.2 = true then .go () (t.setPmu (st.commit s.pmu)) else raise .verifyFailed t := by
  cases st with
  | dac role code => exact writeVerifyDac_quiet 0 (dacAddr s.par role) code hq hn h hb
  | reg v =>
    simp only [HwStep.verified, decide_eq_true_eq]
    exact updateCh_quiet 0 v hq hn h hb

/-- `ans` answers a plan with readbacks that verify: of each pair the second is the readback. -/
def PlanVerifies (p : Params) (plan : List HwStep) (ans : List (Word32 × Word32)) : Prop :=
  List.Forall₂ (fun st x => st.verified p x.2 = true) plan ans

/-- A plan, or the rest of one, inside a command that has made `n` primitives on the PMU and has the shadows at `x`. -/
theorem runPlan_pmuDone {s : State} {plan : List HwStep} {ans : List (Word32 × Word32)} {rest : List Answer}
    {brest : List Bool} (hq : Quiet s) (hn : 0 < s.par.busyPollLimit) (hv : PlanVerifies s.par plan ans) (n : Nat)
    (e : List BusEvent) (x : PmuState) :
    runPlan plan ((pmuDone s n e (verifyScript ans ++ rest) (List.replicate (2 * plan.length) true ++ brest)).setPmu x) =
      .go () ((pmuDone s (n + 2 * plan.length) (e ++ planEvents s.par plan ans) rest brest).setPmu
        (commitPlan plan x)) := by
  induction hv generalizing n e x with
  | nil => simp [runPlan, verifyScript, planEvents, commitPlan]
  | @cons st a plan ans ha _ ih =>
    have hst := (st.run_quiet (a := a) (s := (pmuDone s n e (verifyScript (a :: ans) ++ rest)
      (List.replicate (2 * (plan.length + 1)) true ++ brest)).setPmu x) hq hn rfl rfl).trans (if_pos ha)
    have hnext := ih (n + 2) (e ++ st.events s.par a.2) (st.commit x)
    rw [← pmuDone_pmuDone s n 2 e _ (verifyScript (a :: ans) ++ rest) _
      (List.replicate (2 * (plan.length + 1)) true ++ brest)] at hnext
    rw [two_mul_length_cons, planEvents_cons, commitPlan_cons, ← Nat.add_assoc, ← List.append_assoc, ← hnext, runPlan,
      ← two_mul_length_cons st, List.length_cons, hst]
    rfl

/-- A plan of at least one step on a scripted PMU whose readbacks verify. -/
theorem runPlan_quiet {s : State} {plan : List HwStep} {ans : List (Word32 × Word32)} {rest : List Answer}
    {brest : List Bool} (hne : plan ≠ []) (hq : Quiet s) (hn : 0 < s.par.busyPollLimit) (hv : PlanVerifies s.par plan ans)
    (h : s.env.pmu = verifyScript ans ++ rest) (hb : s.env.busy = List.replicate (2 * plan.length) true ++ brest) :
    runPlan plan s = .go () ((pmuDone s (2 * plan.length) (planEvents s.par plan ans) rest brest).setPmu
      (commitPlan plan s.pmu)) := by
  cases hv with
  | nil => exact (hne rfl).elim
  | @cons st a plan ans ha hv =>
    rw [runPlan, (st.run_quiet hq hn h hb).trans (if_pos ha)]
    refine (runPlan_pmuDone hq hn hv 2 _ _).trans ?_
    rw [two_mul_length_cons, planEvents_cons, commitPlan_cons]

end Sys2Proof.Machine
end

section
/-! Proofs, family 44_sequencer.md (2): the setters. The hardware part of each is the plan of R357, worked out from the state
in which the command was accepted; after it the setter makes one assignment, the same for every way the plan went. -/

namespace Sys2Proof.Machine

/-! ### A command's write procedures follow its plan -/

/-- `t` is a state of the command accepted in `s`, with what a plan reads of `s` unchanged, and with the shadows `x`. -/
structure PlannedFrom (s : State) (x : PmuState) (t : State) : Prop where
  inProgress : t.cmd.op ≠ none
  par : t.par = s.par
  settings : SameSettings t.smu.ch s.smu.ch
  pmu : t.pmu = x

theorem PlannedFrom.refl {s : State} (hs : s.cmd.op ≠ none) : PlannedFrom s s.pmu s := ⟨hs, rfl, .refl _, rfl⟩

theorem PlannedFrom.worked {s t u : State} {x y : PmuState} {l : List (List Byte)} (h : PlannedFrom s x t)
    (hw : Worked t u l) (hu : u.pmu = y) : PlannedFrom s y u :=
  ⟨hw.op ▸ h.inProgress, hw.par.trans h.par, h.settings.trans hw.settings, hu⟩

theorem storedValue_eq_value (ch : SmuChannel) (role : Role) : storedValue ch role = ch.value role := by
  cases role <;> rfl

theorem PlannedFrom.planDac_eq {s t : State} {x : PmuState} (h : PlannedFrom s x t) (role : Role) (r : Range) :
    planDac t role r = planDac s role r := by
  have hvalue := h.settings.value role
  obtain ⟨-, -, -, -, hcllv, hclhv, -⟩ := h.settings
  simp only [planDac, storedValue_eq_value, hvalue, hcllv, hclhv, h.par]

theorem PlannedFrom.range_eq {s t : State} {x : PmuState} (h : PlannedFrom s x t) : t.smu.ch.range = s.smu.ch.range := by
  obtain ⟨-, -, -, -, -, -, hrange, -⟩ := h.settings
  exact hrange

/-- Inside the command accepted in `s`, wherever the shadows are `x`, the procedure `f` runs the plan `plan`. -/
def Follows (s : State) (x : PmuState) (f : State → Flow Unit) (plan : List HwStep) : Prop :=
  ∀ t, PlannedFrom s x t → f t = runPlan plan t

section
variable {s : State} {x : PmuState}

/-- Two procedures in a row follow their plans in a row: the first leaves what the second reads, but for the shadows it
commits. -/
theorem Follows.bind {f g : State → Flow Unit} {p q : List HwStep} (hf : Follows s x f p)
    (hg : Follows s (commitPlan p x) g q) : Follows s x (fun t => (f t).bind fun _ u => g u) (p ++ q) := by
  intro t ht
  dsimp only
  rw [runPlan_append, hf t ht]
  obtain ⟨u, hu, hw, hp⟩ | ⟨u, -, hu, -⟩ | ⟨u, -, hu, -⟩ := runPlan_does p t ht.inProgress
  all_goals simp only [hu]
  · exact hg u (ht.worked hw (ht.pmu ▸ hp))
  all_goals rfl

/-- `D(role, r)` of R357. -/
theorem Follows.dacW {role : Role} {r : Range} : Follows s x (dacW 0 role r) [planDac s role r] := by
  intro t ht
  rw [runPlan_singleton, ← ht.planDac_eq, planDac, storedValue_eq_value]
  rfl

/-- `D(role, r)` in the held range. -/
theorem Follows.dacWHeld {role : Role} :
    Follows s x (fun t => Machine.dacW 0 role t.smu.ch.range t) [planDac s role s.smu.ch.range] := by
  intro t ht
  dsimp only
  rw [ht.range_eq]
  exact Follows.dacW t ht

/-- `R` of R357, on the shadows of `s`. -/
theorem Follows.rangeW {r : Range} : Follows s s.pmu (rangeW 0 s.par.rangeHwCode[r]) [planRange s r] := by
  intro t ht
  rw [runPlan_singleton, planRange, ← ht.par, ← ht.pmu]
  rfl

/-- `M` of R357, on the shadows of `s`. -/
theorem Follows.modeW {m : ForceMode} : Follows s s.pmu (modeW 0 m) [planMode s m] := by
  intro t ht
  rw [runPlan_singleton, planMode, ← ht.par, ← ht.pmu]
  rfl

theorem Follows.clampsW {r : Range} : Follows s x (clampsW 0 r) [planDac s .clli r, planDac s .clhi r] :=
  .bind .dacW .dacW

theorem Follows.pushMode {m : ForceMode} :
    Follows s x (pushMode 0 m) [planDac s (activeRoles m).1 s.smu.ch.range, planDac s (activeRoles m).2.1 s.smu.ch.range,
      planDac s (activeRoles m).2.2 s.smu.ch.range] :=
  .bind .dacWHeld (.bind .dacWHeld .dacWHeld)

end

/-- A range switch in force-voltage mode, R353: its two rows of R357. -/
theorem switchRangeFv_eq_runPlan {s : State} (hs : s.cmd.op ≠ none) (r r' : Range) :
    switchRangeFv 0 r r' s = runPlan (if s.par.iFs[r] < s.par.iFs[r'] then
      [planDac s .clli r', planDac s .clhi r', planRange s r'] else [planRange s r', planDac s .clli r', planDac s .clhi r'])
      s := by
  simp only [switchRangeFv, largerRange, decide_eq_true_eq]
  split
  · exact Follows.bind .clampsW .rangeW s (.refl hs)
  · exact Follows.bind .rangeW .clampsW s (.refl hs)

/-- A range switch in force-current mode, R353: its three rows of R357. -/
theorem switchRangeFi_eq_runPlan {s : State} (hs : s.cmd.op ≠ none) (r r' : Range) :
    switchRangeFi 0 r r' s = runPlan (if s.par.extended[r] = true ∧ s.par.extended[r'] = true then
      [planDac s .fi (rCons s.par), planRange s r', planDac s .fi r']
      else if s.par.iFs[r] < s.par.iFs[r'] then [planDac s .fi r', planRange s r']
      else [planRange s r', planDac s .fi r']) s := by
  simp only [switchRangeFi, largerRange, extendedRange, decide_eq_true_eq, Bool.and_eq_true]
  split
  · exact Follows.bind .dacW (.bind .rangeW .dacW) s (.refl hs)
  split
  · exact Follows.bind .dacW .rangeW s (.refl hs)
  · exact Follows.bind .rangeW .dacW s (.refl hs)

theorem switchRange_eq_runPlan {s : State} {r' : Range} (hs : s.cmd.op ≠ none) (hr : r' ≠ s.smu.ch.range) :
    switchRange 0 r' s = runPlan (rangePlan s r') s := by
  rw [switchRange, rangePlan, if_neg hr]
  cases s.smu.ch.mode with
  | fv => exact switchRangeFv_eq_runPlan hs ..
  | fi => exact switchRangeFi_eq_runPlan hs ..

theorem pushMode_modeW_eq_runPlan {s : State} {m : ForceMode} (hs : s.cmd.op ≠ none) (hm : m ≠ s.smu.ch.mode) :
    ((pushMode 0 m s).bind fun _ t => modeW 0 m t) = runPlan (modePlan s m) s := by
  refine (Follows.bind .pushMode .modeW s (.refl hs)).trans ?_
  cases m <;> exact congrArg (runPlan · s) (if_neg hm).symm

end Sys2Proof.Machine
end

section
/-! Proofs, family 44_sequencer.md (3): the obligations about the four setters. Each setter that is no no-op is one body
(`SetterPlan.exec_eq`): its plan, then its one assignment, then the return. -/

namespace Sys2Proof.Machine

/-! ### The assignment of a setter -/

/-- What a setter assigns when it succeeds, 44_sequencer.md R352 to R355. -/
inductive Setting where
  | value (role : Role) (xe : Rat)
  | range (r : Range)
  | mode (m : ForceMode)
  | state (st : EnableState)

/-- The assignment, with the setting's own dirty bit. -/
def Setting.store : Setting → SmuChannel → SmuChannel
  | .value role xe, ch => (ch.setValue role xe).mark (dbit role)
  | .range r, ch => SmuChannel.mark { ch with range := r } dbitRange
  | .mode m, ch => SmuChannel.mark { ch with mode := m } dbitMode
  | .state st, ch => SmuChannel.mark { ch with state := st } dbitState

theorem Setting.store_value (role : Role) (xe : Rat) (ch : SmuChannel) :
    (Setting.value role xe).store ch = valueStored ch xe role := by
  cases role <;> rfl

/-- The assignment depends on the settings it finds only, and the measured values and their dirty bits stay what they are. -/
theorem Setting.store_settings (x : Setting) {a b : SmuChannel} (h : SameSettings a b) :
    SameSettings (x.store a) (x.store b) := by
  obtain ⟨hfv, hfi, hclli, hclhi, hcllv, hclhv, hrange, hstate, hmode, hsense, hgain, hmult⟩ := h
  cases x with
  | value role xe =>
    cases role <;> simp [SameSettings, Setting.store, SmuChannel.setValue, SmuChannel.mark, *]
  | range | mode | state => simp [SameSettings, Setting.store, SmuChannel.mark, *]

theorem Setting.store_dirty (x : Setting) : ∃ k : BitVec 12, ∀ ch, (x.store ch).dirty = ch.dirty ||| k := by
  cases x with
  | value role xe => exact ⟨1#12 <<< dbit role, fun ch => by cases role <;> rfl⟩
  | range | mode | state => exact ⟨_, fun _ => rfl⟩

theorem Setting.store_dirty_mask (x : Setting) {a b : SmuChannel} {k : BitVec 12} (h : a.dirty &&& k = b.dirty &&& k) :
    (x.store a).dirty &&& k = (x.store b).dirty &&& k := by
  obtain ⟨d, hd⟩ := x.store_dirty
  rw [hd, hd, BitVec.and_or_distrib_right, BitVec.and_or_distrib_right, h]

/-! ### The setters with legal operands -/

/-- The code and the effective value SMU_SET_VALUE works out, 44_sequencer.md R352. -/
def effectiveValue (s : State) (role : Role) (x : Rat) : BitVec 16 × Rat :=
  valueToCode s.par role s.smu.ch.range x s.smu.ch.cllv s.smu.ch.clhv

/-- The DAC write of SMU_SET_VALUE: that of an active role only, 44_sequencer.md R352. -/
def valuePlan (s : State) (role : Role) (code : BitVec 16) : List HwStep :=
  if isActive s.smu.ch.mode role then [.dac role code] else []

section
variable {s : State} {role : Role} {code : BitVec 16}

theorem valuePlan_active (h : isActive s.smu.ch.mode role = true) : valuePlan s role code = [.dac role code] := if_pos h

theorem valuePlan_inactive (h : ¬ isActive s.smu.ch.mode role = true) : valuePlan s role code = [] := if_neg h

end

/-- The one step of SMU_SET_STATE, 44_sequencer.md R355. -/
def planState (s : State) (st : EnableState) : HwStep :=
  .reg (withChanState s.par.chLayout s.pmu.ch[(0 : Fin 4)] st.chanState)

/-- A setter with legal operands that is no no-op, accepted in `s`: what it assigns, the value it returns and its plan. -/
inductive SetterPlan (s : State) : Instr → Setting → Value → List HwStep → Prop
  | value {channel sel : BitVec 4} {value : BitVec 32} {role : Role} {x : Rat} (hc : smuChannel? channel = some 0)
    (hrole : role? sel = some role) (hx : binary32? value = some x) :
    SetterPlan s (.smuSetValue channel sel value) (.value role (effectiveValue s role x).2)
      (.code (effectiveValue s role x).1) (valuePlan s role (effectiveValue s role x).1)
  | range {channel sel : BitVec 4} {r : Range} (hc : smuChannel? channel = some 0) (hr : index? 6 sel = some r)
    (hne : r ≠ s.smu.ch.range) : SetterPlan s (.smuSetRange channel sel) (.range r) .nothing (rangePlan s r)
  | mode {channel sel : BitVec 4} {m : ForceMode} (hc : smuChannel? channel = some 0) (hm : forceMode? sel = some m)
    (hne : m ≠ s.smu.ch.mode) : SetterPlan s (.smuSetMode channel sel) (.mode m) .nothing (modePlan s m)
  | state {channel sel : BitVec 4} {st : EnableState} (hc : smuChannel? channel = some 0)
    (hst : enableState? sel = some st) (hne : st ≠ s.smu.ch.state) :
    SetterPlan s (.smuSetState channel sel) (.state st) .nothing [planState s st]

theorem smuChannel?_zero : smuChannel? 0 = some 0 := rfl

/-- The obligations' target is what the assignment makes of the channel. -/
theorem setterPlan_of_target {i : Instr} {s : State} {ch : SmuChannel} {v : Value} (h : smuTarget s i = some (ch, v)) :
    ∃ x plan, SetterPlan s i x v plan ∧ ch = x.store s.smu.ch := by
  cases i with
  | smuSetValue channel sel value =>
    simp only [smuTarget, Option.bind_eq_some_iff, Option.map_eq_some_iff, Prod.mk.injEq] at h
    obtain ⟨c, hc, role, hrole, x, hx, rfl, rfl⟩ := h
    obtain rfl : c = 0 := Subsingleton.elim c 0
    exact ⟨_, _, .value hc hrole hx, (Setting.store_value ..).symm⟩
  | smuSetRange channel sel =>
    simp only [smuTarget, Option.bind_eq_some_iff, Option.ite_none_left_eq_some, Option.some.injEq, Prod.mk.injEq] at h
    obtain ⟨c, hc, r, hr, hne, rfl, rfl⟩ := h
    obtain rfl : c = 0 := Subsingleton.elim c 0
    exact ⟨_, _, .range hc hr hne, rfl⟩
  | smuSetMode channel sel =>
    simp only [smuTarget, Option.bind_eq_some_iff, Option.ite_none_left_eq_some, Option.some.injEq, Prod.mk.injEq] at h
    obtain ⟨c, hc, m, hm, hne, rfl, rfl⟩ := h
    obtain rfl : c = 0 := Subsingleton.elim c 0
    exact ⟨_, _, .mode hc hm hne, rfl⟩
  | smuSetState channel sel =>
    simp only [smuTarget, Option.bind_eq_some_iff, Option.ite_none_left_eq_some, Option.some.injEq, Prod.mk.injEq] at h
    obtain ⟨c, hc, st, hst, hne, rfl, rfl⟩ := h
    obtain rfl : c = 0 := Subsingleton.elim c 0
    exact ⟨_, _, .state hc hst hne, rfl⟩
  | _ => cases h

/-- The four setters are one body. -/
theorem SetterPlan.exec_eq {i : Instr} {s : State} {x : Setting} {v : Value} {plan : List HwStep}
    (h : SetterPlan s i x v plan) :
    exec i s = .next (thenReturn v (fun t => setCh (x.store t.smu.ch) t) (runPlan plan (s.setCmd ⟨some i, 0⟩))) := by
  have hop : (s.setCmd ⟨some i, 0⟩).cmd.op ≠ none := Option.some_ne_none i
  cases h with
  | @value _ _ _ role _ hc hrole hx =>
    simp only [exec, execSmuSetValue, runCommand, hc, hrole, hx]
    split
    next hact =>
      rw [valuePlan_active (s := s) hact, runPlan_singleton]
      rfl
    next hact =>
      rw [valuePlan_inactive (s := s) hact]
      rfl
  | range hc hr hne =>
    simp only [exec, execSmuSetRange, runCommand, hc, hr, State.setCmd_smu, if_neg hne, switchRange_eq_runPlan hop hne]
    rfl
  | mode hc hm hne =>
    simp only [exec, execSmuSetMode, runCommand, hc, hm, State.setCmd_smu, if_neg hne, ← Flow.bind_assoc,
      pushMode_modeW_eq_runPlan hop hne]
    rfl
  | state hc hst hne =>
    simp only [exec, execSmuSetState, runCommand, hc, hst, runPlan_singleton]
    split
    next heq => exact (hne heq).elim
    next => rfl

/-! ### For every device and every schedule -/

/-- Settles O56: a plan runs to its end, fails with VerifyFailed or is cut, and the assignment comes only past its end. -/
theorem setterCommitsExactlyOnSuccess : Obligations.SetterCommitsExactlyOnSuccess := by
  intro i s t ch v htarget ht
  obtain ⟨x, plan, hplan, rfl⟩ := setterPlan_of_target htarget
  rw [hplan.exec_eq, Host.Outcome.next.injEq] at ht
  subst ht
  obtain ⟨u, h, hw, -⟩ | ⟨u, m, h, hw, -⟩ | ⟨u, m, h, hc, -⟩ :=
    runPlan_does plan (s.setCmd ⟨some i, 0⟩) (Option.some_ne_none i)
  all_goals rw [h]
  · exact .inl ⟨congrArg (· ++ [Result.ok v]) hw.results, x.store_settings hw.settings, x.store_dirty_mask hw.dirty⟩
  · exact .inr (.inl ⟨congrArg (· ++ [Result.fail .verifyFailed]) hw.results, hw.settings, hw.dirty⟩)
  · exact .inr (.inr ⟨hc.results, hc.block⟩)

/-- A setter sends the PMU an initial part of its plan's frames. -/
theorem SetterPlan.frames_prefix {i : Instr} {s t : State} {x : Setting} {v : Value} {plan : List HwStep}
    (h : SetterPlan s i x v plan) (ht : exec i s = .next t) :
    ∃ l, pmuFrames t.trace = pmuFrames s.trace ++ l ∧ l <+: plan.flatMap (HwStep.frames s.par) := by
  rw [h.exec_eq, Host.Outcome.next.injEq] at ht
  subst ht
  obtain ⟨u, h, hw, -⟩ | ⟨u, m, h, hw, hm, -⟩ | ⟨u, m, h, hc, hm⟩ :=
    runPlan_does plan (s.setCmd ⟨some i, 0⟩) (Option.some_ne_none i)
  all_goals rw [h]
  · exact ⟨_, hw.frames, List.prefix_rfl⟩
  · exact ⟨m, hw.frames, hm⟩
  · exact ⟨m, hc.frames, hm⟩

/-- Settles O55: the held value is found before any primitive. -/
theorem settingTheHeldValueIsANoOp : Obligations.SettingTheHeldValueIsANoOp := by
  refine fun s sel => ⟨fun h => ?range, fun h => ?mode, fun h => ?state⟩
  case range =>
    simp only [exec, execSmuSetRange, runCommand, smuChannel?_zero, h, State.setCmd_smu, if_true]
    rfl
  case mode =>
    simp only [exec, execSmuSetMode, runCommand, smuChannel?_zero, h, State.setCmd_smu, if_true]
    rfl
  case state =>
    simp only [exec, execSmuSetState, runCommand, smuChannel?_zero, h, State.setCmd_smu, if_true]
    rfl

/-- A command that only returns sends the PMU nothing. -/
theorem frames_prefix_of_afterResult {i : Instr} {s t : State} {r : Result} (l : List (List Byte))
    (h : exec i s = .next (afterResult s r)) (ht : exec i s = .next t) :
    ∃ m, pmuFrames t.trace = pmuFrames s.trace ++ m ∧ m <+: l := by
  rw [h, Host.Outcome.next.injEq] at ht
  subst ht
  exact ⟨[], (List.append_nil _).symm, List.nil_prefix⟩

/-- Settles O53: the held value sends nothing, any other follows its plan. -/
theorem switchFramesFollowThePlan : Obligations.SwitchFramesFollowThePlan := by
  refine ⟨fun s t sel r' hr ht => ?range, fun s t sel m hm ht => ?mode⟩
  case range =>
    by_cases hne : r' = s.smu.ch.range
    · obtain ⟨hheld, -, -⟩ := settingTheHeldValueIsANoOp s sel
      exact frames_prefix_of_afterResult _ (hheld (hne ▸ hr)) ht
    · exact (SetterPlan.range smuChannel?_zero hr hne).frames_prefix ht
  case mode =>
    by_cases hne : m = s.smu.ch.mode
    · obtain ⟨-, hheld, -⟩ := settingTheHeldValueIsANoOp s sel
      exact frames_prefix_of_afterResult _ (hheld (hne ▸ hm)) ht
    · exact (SetterPlan.mode smuChannel?_zero hm hne).frames_prefix ht

/-! ### On a scripted PMU, nothing scheduled -/

section
variable {i : Instr} {s : State} {x : Setting} {v : Value} {rest : List Answer} {brest : List Bool}

/-- A setter whose plan verifies. -/
theorem SetterPlan.exec_quiet {plan : List HwStep} {ans : List (Word32 × Word32)} (h : SetterPlan s i x v plan)
    (hne : plan ≠ []) (hq : Quiet s) (hn : 0 < s.par.busyPollLimit) (hv : PlanVerifies s.par plan ans)
    (hpmu : s.env.pmu = verifyScript ans ++ rest) (hb : s.env.busy = List.replicate (2 * plan.length) true ++ brest) :
    exec i s = .next (afterPmu s (.ok v) (commitPlan plan s.pmu) { s.smu with ch := x.store s.smu.ch }
      (planEvents s.par plan ans) rest brest) := by
  rw [h.exec_eq, runPlan_quiet (s := s.setCmd ⟨some i, 0⟩) hne hq hn hv hpmu hb]
  rfl

/-- A setter whose plan is one step: on a readback that differs it writes nothing. -/
theorem SetterPlan.exec_quiet_singleton {st : HwStep} {w rb : Word32} (h : SetterPlan s i x v [st]) (hq : Quiet s)
    (hn : 0 < s.par.busyPollLimit) (hpmu : s.env.pmu = .shift w :: .shift rb :: rest)
    (hb : s.env.busy = true :: true :: brest) :
    exec i s = .next (if st.verified s.par rb = true then
        afterPmu s (.ok v) (st.commit s.pmu) { s.smu with ch := x.store s.smu.ch } (st.events s.par rb) rest brest
      else afterPmu s (.fail .verifyFailed) s.pmu s.smu (st.events s.par rb) rest brest) := by
  rw [h.exec_eq, runPlan_singleton, st.run_quiet (a := (w, rb)) (s := s.setCmd ⟨some i, 0⟩) hq hn hpmu hb]
  dsimp only
  split
  next hv => exact congrArg Host.Outcome.next (if_pos hv).symm
  next hv => exact congrArg Host.Outcome.next (if_neg hv).symm

end

theorem rangePlan_ne_nil {s : State} {r' : Range} (h : r' ≠ s.smu.ch.range) : rangePlan s r' ≠ [] := by
  rw [rangePlan, if_neg h]
  split
  all_goals split_ifs <;> exact List.cons_ne_nil _ _

/-- Every row of R357 for a range switch has one register step. -/
theorem commitPlan_rangePlan {s : State} {r' : Range} (h : r' ≠ s.smu.ch.range) (x : PmuState) :
    commitPlan (rangePlan s r') x = (planRange s r').commit x := by
  rw [rangePlan, if_neg h]
  split
  all_goals split_ifs <;> rfl

/-- Settles O51. -/
theorem setRangeRunsItsPlan : Obligations.SetRangeRunsItsPlan := by
  intro s sel r' ans rest brest hq hn hr hne hv hpmu hb
  rw [(SetterPlan.range smuChannel?_zero hr hne).exec_quiet (rangePlan_ne_nil hne) hq hn hv hpmu hb,
    commitPlan_rangePlan hne]
  rfl

theorem modePlan_ne_nil {s : State} {m : ForceMode} (h : m ≠ s.smu.ch.mode) : modePlan s m ≠ [] := by
  unfold modePlan
  rw [if_neg h]
  split <;> exact List.cons_ne_nil _ _

theorem commitPlan_modePlan {s : State} {m : ForceMode} (h : m ≠ s.smu.ch.mode) (x : PmuState) :
    commitPlan (modePlan s m) x = (planMode s m).commit x := by
  unfold modePlan
  rw [if_neg h]
  split <;> rfl

/-- Settles O52. -/
theorem setModeRunsItsPlan : Obligations.SetModeRunsItsPlan := by
  intro s sel m ans rest brest hq hn hm hne hv hpmu hb
  rw [(SetterPlan.mode smuChannel?_zero hm hne).exec_quiet (modePlan_ne_nil hne) hq hn hv hpmu hb,
    commitPlan_modePlan hne]
  rfl

/-- Settles O54. -/
theorem setStateWritesEnableBits : Obligations.SetStateWritesEnableBits := by
  intro s sel st w rb rest brest hq hn hst hne hpmu hb
  rw [(SetterPlan.state smuChannel?_zero hst hne).exec_quiet_singleton hq hn hpmu hb]
  cases st <;> simp only [planState, HwStep.verified, decide_eq_true_eq] <;> rfl

theorem isActive_iff (m : ForceMode) (role : Role) : isActive m role = true ↔
    role = (activeRoles m).1 ∨ role = (activeRoles m).2.1 ∨ role = (activeRoles m).2.2 := by
  simp only [isActive, Bool.or_eq_true, decide_eq_true_eq, or_assoc]

/-- Settles O50. -/
theorem setValueProgramsActiveRole : Obligations.SetValueProgramsActiveRole := by
  intro s sel value role x w rb rest brest hq hn hrole hx hact hpmu hb
  have hplan := SetterPlan.value (s := s) smuChannel?_zero hrole hx
  rw [valuePlan_active ((isActive_iff ..).2 (by simpa using hact))] at hplan
  rw [hplan.exec_quiet_singleton hq hn hpmu hb]
  cases role <;> simp only [HwStep.verified, decide_eq_true_eq] <;> rfl

/-- Settles O49: the plan of an inactive role is empty. -/
theorem setValueStoresInactiveRole : Obligations.SetValueStoresInactiveRole := by
  intro s sel value role x hrole hx hforce hlo hhi
  have hplan := SetterPlan.value (s := s) smuChannel?_zero hrole hx
  rw [valuePlan_inactive (by simp [isActive_iff, hforce, hlo, hhi])] at hplan
  rw [hplan.exec_eq]
  cases role <;> rfl

end Sys2Proof.Machine
end

section
/-! Proofs, family 44_sequencer.md (4): the publish port. The drain, the fields of a record and the full update. -/

namespace Sys2Proof.Machine

theorem decode_smuPublishTick {w : CmdWord} (h : fieldOpc w = 0x46) : decode w = .ok .smuPublishTick := by
  rw [decode, h]
  rfl

theorem decode_smuQueueFullUpdate {w : CmdWord} (h : fieldOpc w = 0x47) : decode w = .ok .smuQueueFullUpdate := by
  rw [decode, h]
  rfl

/-- Settles O60: the command has no bus primitive, so no schedule steps in. -/
theorem queueFullUpdateMarksEverything : Obligations.QueueFullUpdateMarksEverything :=
  ⟨fun rest => decode_smuQueueFullUpdate (fieldOpc_append 0x47 rest), fun _ => rfl⟩

/-- SMU_PUBLISH_TICK, 44_sequencer.md R372: no bus primitive. -/
theorem exec_smuPublishTick (s : State) : exec .smuPublishTick s = .next (afterResult (drain s) (.ok .nothing)) := by
  show Host.Outcome.next (endCommand _ (drain (s.setCmd ⟨some .smuPublishTick, 0⟩))) = _
  rw [drain_spec, drain_spec]
  rfl

theorem forcedPublishStep_requested {s : State} (hcmd : s.cmd.op = none) (hforce : s.smu.forcePublish = true) :
    forcedPublishStep s = drain s := if_pos ⟨hcmd, hforce⟩

theorem forcedPublishStep_disabled {s : State} (h : s.cmd.op ≠ none ∨ s.smu.forcePublish = false) :
    forcedPublishStep s = s := by
  refine if_neg fun ⟨hcmd, hforce⟩ => ?_
  obtain h | h := h
  · exact h hcmd
  · exact absurd (h.symm.trans hforce) Bool.false_ne_true

/-- Settles O58: the command and the forced step are the drain. -/
theorem publishDrainsTheDirtyFields : Obligations.PublishDrainsTheDirtyFields := by
  refine ⟨fun rest => decode_smuPublishTick (fieldOpc_append 0x46 rest), fun s => ?_⟩
  have hdrain := drain_spec s
  refine ⟨?_, fun hcmd hforce => ?_, forcedPublishStep_disabled⟩
  · rw [exec_smuPublishTick, hdrain]
    rfl
  · rw [forcedPublishStep_requested hcmd hforce, hdrain]
    rfl

/-! ### The fields of a record, 44_sequencer.md R371 -/

theorem mem_publishFields {ch : SmuChannel} {f : PubField} :
    f ∈ publishFields ch ↔ ∃ b < 12, ch.dirty.getLsbD b = true ∧ f ∈ publishBit ch b := by
  show f ∈ (List.range 12).flatMap _ ↔ _
  simp only [List.mem_flatMap, List.mem_range]
  refine exists_congr fun b => and_congr_right fun _ => ?_
  cases ch.dirty.getLsbD b <;> simp

theorem exists_lt_twelve {P : Nat → Prop} : (∃ b < 12, P b) ↔
    P 0 ∨ P 1 ∨ P 2 ∨ P 3 ∨ P 4 ∨ P 5 ∨ P 6 ∨ P 7 ∨ P 8 ∨ P 9 ∨ P 10 ∨ P 11 := by
  simp only [Nat.exists_lt_succ_left, Nat.not_lt_zero, false_and, exists_false, or_false, Nat.reduceAdd]

/-- Settles O59: the record bit by bit. -/
theorem recordCarriesExactlyTheDirtyFields : Obligations.RecordCarriesExactlyTheDirtyFields := by
  refine ⟨fun _ => rfl, ⟨rfl, rfl, rfl⟩, ⟨rfl, rfl⟩, ⟨rfl, rfl⟩, fun ch f => ?_⟩
  rw [mem_publishFields, exists_lt_twelve]
  simp only [publishBit, List.mem_cons, List.not_mem_nil, or_false, rangeUnit]

end Sys2Proof.Machine
end

section
/-! Proofs, family 44_sequencer.md (5): no command but SMU_QUEUE_FULL_UPDATE marks SENSE (R370). A clear bit is followed
through the agents' steps, the scheduling points, the write procedures and the commands. -/

namespace Sys2Proof.Machine

/-- The SENSE dirty bit is clear. -/
def SenseClear (s : State) : Prop := s.smu.ch.dirty.getLsbD dbitSense = false

theorem SenseClear.of_smu {s t : State} (hs : SenseClear s) (h : t.smu = s.smu) : SenseClear t := by
  rw [SenseClear, h]
  exact hs

/-! ### The other agents -/

theorem Interfered.senseClear {s t : State} (h : Interfered s t) (hs : SenseClear s) : SenseClear t := by
  have hbit : ∀ d : BitVec 12, (d &&& 0xFF3).getLsbD dbitSense = d.getLsbD dbitSense :=
    fun d => (BitVec.getLsbD_and ..).trans (Bool.and_true _)
  rw [SenseClear, ← hbit, h.dirty, hbit]
  exact hs

theorem senseClear_drain (s : State) : SenseClear (drain s) := by
  rw [SenseClear, drain_spec]
  exact BitVec.getLsbD_zero

theorem BlockReset.senseClear {s : State} (h : BlockReset s) : SenseClear s := by
  obtain ⟨-, -, -, hsmu, -⟩ := h
  rw [SenseClear, hsmu]
  exact BitVec.getLsbD_zero

/-- No agent marks SENSE, in a command or between two. -/
theorem SenseClear.agentMove {s : State} (hs : SenseClear s) (m : Move) : SenseClear (agentMove m s) := by
  obtain h | h | h := agentMove_cases m s
  · exact h.senseClear hs
  · exact h ▸ senseClear_drain s
  · exact h ▸ (resetEvent_block s).senseClear

theorem SenseClear.runMoves {a : α} {ms : List Move} {s : State} (hs : SenseClear s) :
    SenseClear (runMoves a ms s).state := by
  induction ms generalizing s with
  | nil => exact hs
  | cons m ms ih =>
    cases m with
    | sequencer => exact hs
    | reset => exact hs.agentMove .reset
    | forcedPublish | edge | sample | dispatch | faultPin => exact ih (hs.agentMove _)

/-! ### Parts of commands -/

/-- A primitive that leaves the SMU state alone, with its scheduling point. -/
theorem SenseClear.prim {act : State → α × State} {s : State} (hs : SenseClear s) (h : (act s).2.smu = s.smu) :
    SenseClear (prim act s).state :=
  SenseClear.runMoves (hs.of_smu h)

theorem pmuTx_smu (dir : Dir) (mask : BitVec 4) (mode : BitVec 2) (data : BitVec 22) (s : State) :
    (pmuTx dir mask mode data s).2.smu = s.smu := by
  obtain ⟨r, x, l, e, -, -, -, -, h⟩ := pmuTx_spec dir mask mode data s
  rw [h]
  rfl

theorem withBus_spiXfer_smu (dev : Dev) (out : List Byte) (nIn : Nat) (s : State) :
    (withBus .cmd (spiXfer dev out nIn) s).2.smu = s.smu := by
  obtain ⟨r, e, -, -, -, h⟩ := withBus_spiXfer_spec .cmd dev out nIn s
  rw [h]
  cases dev <;> rfl

theorem pmuSettle_smu (s : State) : (pmuSettle s).2.smu = s.smu := by
  obtain ⟨b, l, e, -, -, -, -, h⟩ :=
    busyWait_spec (driveCs .pmu true (drivePmuReset true (drivePmuReset false (setPhase .reset s))))
  rw [pmuSettle, h]
  rfl

section
variable {s : State}

theorem SenseClear.bind {f : Flow α} {g : α → State → Flow β} (hf : SenseClear f.state)
    (hg : ∀ a t, SenseClear t → SenseClear (g a t).state) : SenseClear (f.bind g).state := by
  cases f with
  | go a t => exact hg a t hf
  | ended t => exact hf

/-- A transfer and what follows its success and its failure. -/
theorem SenseClear.bindXfer {f : Flow XferResult} {g : XferResult → State → Flow β} (hf : SenseClear f.state)
    (hok : ∀ bs t, SenseClear t → SenseClear (g (.ok bs) t).state)
    (herr : ∀ t, SenseClear t → SenseClear (g .busError t).state) : SenseClear (f.bind g).state :=
  hf.bind fun r t => match r with
    | .ok bs => hok bs t
    | .busError => herr t

/-- A PMU transaction and what follows its success and its two failures. -/
theorem SenseClear.bindTx {f : Flow TxResult} {g : TxResult → State → Flow β} (hf : SenseClear f.state)
    (hok : ∀ w t, SenseClear t → SenseClear (g (.ok w) t).state)
    (herr : ∀ t, SenseClear t → SenseClear (g .busError t).state)
    (hbusy : ∀ t, SenseClear t → SenseClear (g .busy t).state) : SenseClear (f.bind g).state :=
  hf.bind fun r t => match r with
    | .ok w => hok w t
    | .busError => herr t
    | .busy => hbusy t

theorem SenseClear.need {c : FailCode} {holds : Bool} (hs : SenseClear s) : SenseClear (need c holds s).state := by
  unfold Machine.need
  split <;> exact hs

theorem SenseClear.xfer {dev : Dev} {out : List Byte} {nIn : Nat} (hs : SenseClear s) :
    SenseClear (Machine.prim (withBus .cmd (spiXfer dev out nIn)) s).state :=
  hs.prim (withBus_spiXfer_smu ..)

theorem SenseClear.writeThenVerify {mask : BitVec 4} {mode : BitVec 2} {written request : BitVec 22} {k : Word32 → Bool}
    (hs : SenseClear s) : SenseClear (writeThenVerify mask mode written request k s).state :=
  (hs.prim (pmuTx_smu ..)).bindTx
    (fun _ _ ht => (ht.prim (pmuTx_smu ..)).bindTx (fun _ _ => .need) (fun _ => id) fun _ => id) (fun _ => id) fun _ => id

/-- `updateChState`, `updateMode`, `updateRange` and the sequencer's register writes are uses of it. -/
theorem SenseClear.updateCh {c : Fin 4} {v : BitVec 22} (hs : SenseClear s) : SenseClear (updateCh c v s).state :=
  hs.writeThenVerify.bind fun _ _ => id

theorem SenseClear.initChannel {c : Fin 4} (hs : SenseClear s) : SenseClear (initChannel c s).state := hs.updateCh

theorem SenseClear.initChannels (hs : SenseClear s) : SenseClear (initChannels s).state :=
  hs.initChannel.bind fun _ _ ht => ht.initChannel.bind fun _ _ ht => ht.initChannel.bind fun _ _ ht =>
  ht.initChannel.bind fun _ _ => id

theorem SenseClear.initRegisters (hs : SenseClear s) : SenseClear (initRegisters s).state := by
  refine SenseClear.bind (SenseClear.writeThenVerify hs) fun _ t ht => .initChannels ?_
  exact ht

theorem SenseClear.writeVerifyAmp {addr : BitVec 7} {v : Byte} (hs : SenseClear s) :
    SenseClear (writeVerifyAmp addr v s).state := by
  refine hs.xfer.bindXfer (fun _ _ ht => ht.xfer.bindXfer (fun _ _ hu => ?_) fun _ => id) fun _ => id
  dsimp only
  split <;> exact hu

theorem SenseClear.dacW {c : Fin 1} {role : Role} {r : Range} (hs : SenseClear s) : SenseClear (dacW c role r s).state :=
  hs.writeThenVerify

theorem SenseClear.clampsW {c : Fin 1} {r : Range} (hs : SenseClear s) : SenseClear (clampsW c r s).state :=
  hs.dacW.bind fun _ _ => .dacW

theorem SenseClear.switchRangeFv {c : Fin 1} {r r' : Range} (hs : SenseClear s) :
    SenseClear (switchRangeFv c r r' s).state := by
  unfold Machine.switchRangeFv
  split
  · exact hs.clampsW.bind fun _ _ => .updateCh
  · exact hs.updateCh.bind fun _ _ => .clampsW

theorem SenseClear.switchRangeFi {c : Fin 1} {r r' : Range} (hs : SenseClear s) :
    SenseClear (switchRangeFi c r r' s).state := by
  unfold Machine.switchRangeFi
  split
  · exact hs.dacW.bind fun _ _ ht => ht.updateCh.bind fun _ _ => .dacW
  split
  · exact hs.dacW.bind fun _ _ => .updateCh
  · exact hs.updateCh.bind fun _ _ => .dacW

theorem SenseClear.switchRange {c : Fin 1} {r : Range} (hs : SenseClear s) : SenseClear (switchRange c r s).state := by
  unfold Machine.switchRange
  split
  · exact hs.switchRangeFv
  · exact hs.switchRangeFi

theorem SenseClear.pushMode {c : Fin 1} {m : ForceMode} (hs : SenseClear s) : SenseClear (pushMode c m s).state :=
  hs.dacW.bind fun _ _ ht => ht.dacW.bind fun _ _ => .dacW

/-- A setter's dirty bit is another. -/
theorem SenseClear.store (hs : SenseClear s) (x : Setting) : SenseClear (setCh (x.store s.smu.ch) s) := by
  have hbit : ∀ b < 11, (orBit s.smu.ch.dirty b).getLsbD dbitSense = false := by
    intro b hb
    rw [orBit, BitVec.getLsbD_or, hs]
    interval_cases b <;> rfl
  cases x with
  | value role xe => cases role <;> exact hbit _ (by decide)
  | range | mode | state => exact hbit _ (by decide)

end

end Sys2Proof.Machine
end

section
/-! Proofs, family 44_sequencer.md (6): the walk of a clear SENSE bit through the commands (R370). -/

namespace Sys2Proof.Machine

/-- A command ends with the SENSE dirty bit clear. -/
def EndsSenseClear (o : Host.Outcome State Fault Refusal) : Prop := ∃ t, o = .next t ∧ SenseClear t

theorem runCommand_senseClear {i : Instr} {body : State → Flow Unit} {s : State} (hs : SenseClear s)
    (h : ∀ u, SenseClear u → SenseClear (body u).state) : EndsSenseClear (runCommand i body s) :=
  ⟨_, rfl, h _ hs⟩

/-- Every command but SMU_QUEUE_FULL_UPDATE, part by part; commands with the same parts stand together. -/
theorem exec_senseClear {i : Instr} {s : State} (hs : SenseClear s) (hi : i ≠ .smuQueueFullUpdate) :
    EndsSenseClear (exec i s) := by
  cases i with
  | pmuInit =>
    simp only [exec, execPmuInit]
    exact runCommand_senseClear hs fun _ hu =>
      (hu.prim (pmuSettle_smu _)).bind fun _ _ ht => ht.need.bind fun _ _ => .initRegisters
  | pmuTransact =>
    simp only [exec, execPmuTransact]
    refine runCommand_senseClear hs fun _ hu => ?_
    split
    · exact (hu.prim (pmuTx_smu ..)).bindTx (fun _ _ => id) (fun _ => id) fun _ => id
    · exact hu
  | pmuWriteSysctrl | pmuSetDac =>
    simp only [exec, execPmuWriteSysctrl, execPmuSetDac]
    refine runCommand_senseClear hs fun _ hu => ?_
    split
    · exact hu.writeThenVerify.bind fun _ _ => id
    · exact hu
  | pmuWriteChctrl | pmuSetChstate | pmuSetMode | pmuSetRange =>
    simp only [exec, execPmuWriteChctrl, execPmuSetChstate, execPmuSetMode, execPmuSetRange]
    refine runCommand_senseClear hs fun _ hu => ?_
    split
    · exact hu.updateCh.bind fun _ _ => id
    · exact hu
  | adcStart | adcStop =>
    simp only [exec, execAdcStart, execAdcStop]
    exact runCommand_senseClear hs fun _ hu => hu
  | adcConfigCh | adcReadReg | ampWriteReg | ampReadReg =>
    simp only [exec, execAdcConfigCh, execAdcReadReg, execAmpWriteReg, execAmpReadReg]
    refine runCommand_senseClear hs fun _ hu => ?_
    split
    · exact hu.xfer.bindXfer (fun _ _ => id) fun _ => id
    · exact hu
  | adcWriteReg =>
    simp only [exec, execAdcWriteReg]
    refine runCommand_senseClear hs fun _ hu => ?_
    split
    · split
      · exact hu.xfer.bindXfer (fun _ _ => id) fun _ => id
      · exact hu
    · exact hu
  | ampInit =>
    simp only [exec, execAmpInit]
    refine runCommand_senseClear hs fun _ hu => hu.xfer.bindXfer (fun _ _ hu => ?_) fun _ => id
    dsimp only
    split
    · exact hu.writeVerifyAmp.bind fun _ _ => id
    · exact hu
  | ampSetGain =>
    simp only [exec, execAmpSetGain]
    refine runCommand_senseClear hs fun _ hu => ?_
    split
    · exact hu.writeVerifyAmp.bind fun _ _ ht => ht.writeVerifyAmp.bind fun _ _ => id
    · exact hu
  | ampSetSwitch | ampSetTestmux =>
    simp only [exec, execAmpSetSwitch, execAmpSetTestmux]
    refine runCommand_senseClear hs fun _ hu => ?_
    split
    · exact hu.writeVerifyAmp.bind fun _ _ => id
    · exact hu
  | smuSetValue =>
    simp only [exec, execSmuSetValue]
    refine runCommand_senseClear hs fun _ hu => ?_
    split
    · split
      · exact hu.writeThenVerify.bind fun _ _ ht => ht.store (.value _ _)
      · exact hu.store (.value _ _)
    · exact hu
  | smuSetRange =>
    simp only [exec, execSmuSetRange]
    refine runCommand_senseClear hs fun _ hu => ?_
    split
    · split
      · exact hu
      · exact hu.switchRange.bind fun _ _ ht => ht.store (.range _)
    · exact hu
  | smuSetMode =>
    simp only [exec, execSmuSetMode]
    refine runCommand_senseClear hs fun _ hu => ?_
    split
    · split
      · exact hu
      · exact hu.pushMode.bind fun _ _ ht => ht.updateCh.bind fun _ _ ht => ht.store (.mode _)
    · exact hu
  | smuSetState =>
    simp only [exec, execSmuSetState]
    refine runCommand_senseClear hs fun _ hu => ?_
    split
    · split
      · exact hu
      · exact hu.updateCh.bind fun _ _ ht => ht.store (.state _)
    · exact hu
  | smuValueToCode | smuCodeToValue =>
    simp only [exec, execSmuValueToCode, execSmuCodeToValue]
    refine runCommand_senseClear hs fun _ hu => ?_
    split <;> exact hu
  | smuPublishTick =>
    simp only [exec, execSmuPublishTick]
    exact runCommand_senseClear hs fun u _ => senseClear_drain u
  | smuQueueFullUpdate => exact (hi rfl).elim

/-- Settles O57: a command that finds the bit clear leaves it clear. -/
theorem onlyFullUpdateMarksSense : Obligations.OnlyFullUpdateMarksSense := by
  intro i s t ht hi hset
  by_contra hs
  obtain ⟨u, hu, hclear⟩ := exec_senseClear (s := s) (Bool.eq_false_of_not_eq_true hs) hi
  rw [ht, Host.Outcome.next.injEq] at hu
  exact Bool.false_ne_true (hclear.symm.trans (hu ▸ hset))

end Sys2Proof.Machine
end

section
/-! Proofs, family 60_exceptions.md: whose turn a step is (R405 to R407), and that no step stops the block (R401). -/

namespace Sys2Proof.Machine

/-! ### The step of a turn -/

theorem step_of_settled {s u : State} (h : nextTurn s = .settled u) : step s = .next u := by
  rw [step, h]

theorem step_of_run {i : Instr} {s u : State} (h : nextTurn s = .run i u) : step s = exec i u := by
  rw [step, h]

theorem portTurn_decoded {s : State} {w : CmdWord} {ws : List CmdWord} {i : Instr} (hp : s.port = w :: ws)
    (hw : decode w = .ok i) : portTurn s = .run i (s.setPort ws) := by
  simp only [portTurn, hp, hw]

/-- The model's order (log 2): with nothing scheduled the sequencer comes last, after every agent that has work pending. -/
theorem nextTurn_quiet {s : State} (hq : Quiet s) (hwake : s.adc.wakePending = false)
    (hdispatch : s.adc.dispatchPending = false) (hforce : s.smu.forcePublish = false) : nextTurn s = portTurn s := by
  have hsched : s.env.sched = [] := hq
  simp [nextTurn, hsched, defaultTurn, hwake, hdispatch, hforce]

/-- Settles O8: either way the turn is the sequencer's, which runs the word it takes from the port. -/
theorem stepRunsDecodedCommand : Obligations.StepRunsDecodedCommand := by
  intro s w ws i hport hw
  refine ⟨fun ms hsched => ?_, fun hq hwake hdispatch hforce => ?_⟩
  · have hturn : nextTurn s = .run i ((setSched ms s).setPort ws) :=
      (nextTurn_sequencer hsched).trans (portTurn_decoded hport hw)
    exact step_of_run hturn
  · have hturn : nextTurn s = .run i (s.setPort ws) :=
      (nextTurn_quiet hq hwake hdispatch hforce).trans (portTurn_decoded hport hw)
    exact step_of_run hturn

/-- Settles O9: a settled turn is a next state, and every command finishes. -/
theorem everyStepAnswersNext : Obligations.EveryStepAnswersNext := by
  intro s
  cases hturn : nextTurn s with
  | settled u => exact ⟨u, step_of_settled hturn⟩
  | run i u =>
    obtain ⟨t, ht, _⟩ := exec_finishes i u
    exact ⟨t, (step_of_run hturn).trans ht⟩

end Sys2Proof.Machine
end

section
/-! Proofs, family 70_reset_and_hazards.md (1): the reset event (R450), between two commands and right after a command's first
bus primitive. -/

namespace Sys2Proof.Machine

/-- Settles O23: `resetEvent` is the reset table for the parameters, with the ports, the history and the inputs put back. -/
theorem resetEventResetsTheBlock : Obligations.ResetEventResetsTheBlock :=
  fun s => ⟨resetEvent_block s, resetEvent_par s, rfl, rfl, rfl, rfl, rfl⟩

/-! ### A bus primitive's own step -/

/-- What the reset that follows a primitive finds as it was before the primitive. -/
structure PortsKept (s t : State) : Prop where
  results : t.results = s.results
  pubOut : t.pubOut = s.pubOut
  sched : t.env.sched = s.env.sched

theorem pmuTx_portsKept (dir : Dir) (mask : BitVec 4) (mode : BitVec 2) (data : BitVec 22) (s : State) :
    PortsKept s (pmuTx dir mask mode data s).2 := by
  obtain ⟨r, x, l, e, hsched, -, -, -, h⟩ := pmuTx_spec dir mask mode data s
  rw [h]
  exact ⟨rfl, rfl, hsched⟩

theorem withBus_spiXfer_portsKept (dev : Dev) (out : List Byte) (nIn : Nat) (s : State) :
    PortsKept s (withBus .cmd (spiXfer dev out nIn) s).2 := by
  obtain ⟨r, e, hsched, -, -, h⟩ := withBus_spiXfer_spec .cmd dev out nIn s
  rw [h]
  cases dev <;> exact ⟨rfl, rfl, hsched⟩

theorem pmuSettle_portsKept (s : State) : PortsKept s (pmuSettle s).2 := by
  obtain ⟨b, l, e, -, hsched, -, -, h⟩ :=
    busyWait_spec (driveCs .pmu true (drivePmuReset true (drivePmuReset false (setPhase .reset s))))
  rw [pmuSettle, h]
  exact ⟨rfl, rfl, hsched⟩

/-! ### Parts of commands -/

/-- How a part of a command in progress in `s` is over when a reset and then the moves `ms` are scheduled: no part runs past
its first primitive. -/
inductive EndsByReset (s : State) (ms : List Move) : Flow α → Prop
  /-- The command returned before any primitive. -/
  | returned {t : State} (trace : t.trace = s.trace) (results : t.results.length = s.results.length + 1) :
    EndsByReset s ms (.ended t)
  /-- The reset cut the command at its first primitive. -/
  | cut {t : State} (block : BlockReset t) (results : t.results = s.results) (pubOut : t.pubOut = s.pubOut)
    (sched : t.env.sched = ms) : EndsByReset s ms (.ended t)

section
variable {s : State} {ms : List Move}

/-- `ret` or `raise` after writes that are no primitives. -/
theorem EndsByReset.endCommand {r : Result} {t : State} (trace : t.trace = s.trace) (results : t.results = s.results) :
    EndsByReset s ms (.ended (endCommand r t) : Flow α) :=
  .returned trace (by simp [Machine.endCommand, results])

/-- What would come after an ended part does not matter. -/
theorem EndsByReset.bind {f : Flow α} {g : α → State → Flow β} (hf : EndsByReset s ms f) :
    EndsByReset s ms (f.bind g) := by
  cases hf with
  | returned trace results => exact .returned trace results
  | cut block results pubOut sched => exact .cut block results pubOut sched

variable (h : s.env.sched = .reset :: ms)
include h

theorem EndsByReset.prim {act : State → α × State} (hact : PortsKept s (act s).2) : EndsByReset s ms (prim act s) := by
  rw [Machine.prim, hact.sched, h]
  exact .cut (resetEvent_block _) hact.results hact.pubOut rfl

theorem EndsByReset.xfer {dev : Dev} {out : List Byte} {nIn : Nat} :
    EndsByReset s ms (Machine.prim (withBus .cmd (spiXfer dev out nIn)) s) :=
  .prim h (withBus_spiXfer_portsKept ..)

theorem EndsByReset.writeThenVerify {mask : BitVec 4} {mode : BitVec 2} {written request : BitVec 22}
    {holds : Word32 → Bool} : EndsByReset s ms (writeThenVerify mask mode written request holds s) :=
  .bind (.prim h (pmuTx_portsKept ..))

theorem EndsByReset.updateCh {c : Fin 4} {v : BitVec 22} : EndsByReset s ms (updateCh c v s) :=
  .bind (.writeThenVerify h)

theorem EndsByReset.writeVerifyAmp {addr : BitVec 7} {v : Byte} : EndsByReset s ms (writeVerifyAmp addr v s) :=
  .bind (.xfer h)

theorem EndsByReset.dacW {c : Fin 1} {role : Role} {r : Range} : EndsByReset s ms (dacW c role r s) := .writeThenVerify h

theorem EndsByReset.clampsW {c : Fin 1} {r : Range} : EndsByReset s ms (clampsW c r s) := .bind (.dacW h)

theorem EndsByReset.switchRangeFv {c : Fin 1} {r r' : Range} : EndsByReset s ms (switchRangeFv c r r' s) := by
  unfold Machine.switchRangeFv
  split
  · exact .bind (.clampsW h)
  · exact .bind (.updateCh h)

theorem EndsByReset.switchRangeFi {c : Fin 1} {r r' : Range} : EndsByReset s ms (switchRangeFi c r r' s) := by
  unfold Machine.switchRangeFi
  split
  · exact .bind (.dacW h)
  split
  · exact .bind (.dacW h)
  · exact .bind (.updateCh h)

theorem EndsByReset.switchRange {c : Fin 1} {r : Range} : EndsByReset s ms (switchRange c r s) := by
  unfold Machine.switchRange
  split
  · exact .switchRangeFv h
  · exact .switchRangeFi h

theorem EndsByReset.pushMode {c : Fin 1} {m : ForceMode} : EndsByReset s ms (pushMode c m s) := .bind (.dacW h)

end

/-! ### The commands -/

/-- A command accepted in `s`, with a reset and then `ms` scheduled, is over in the state of the outcome. -/
def OverByReset (s : State) (ms : List Move) (o : Host.Outcome State Fault Refusal) : Prop :=
  ∃ t, o = .next t ∧ EndsByReset s ms (.ended t : Flow Unit)

theorem runCommand_overByReset {i : Instr} {body : State → Flow Unit} {s : State} {ms : List Move}
    (hs : s.env.sched = .reset :: ms) (h : ∀ u, u.env.sched = .reset :: ms → EndsByReset u ms (body u)) :
    OverByReset s ms (runCommand i body s) := by
  refine ⟨_, rfl, ?_⟩
  have h := h (s.setCmd ⟨some i, 0⟩) hs
  generalize body (s.setCmd ⟨some i, 0⟩) = f at h
  cases h with
  | returned trace results => exact .returned trace results
  | cut block results pubOut sched => exact .cut block results pubOut sched

/-- Every command, by what it does first; commands with the same first part stand together. -/
theorem exec_overByReset {s : State} {ms : List Move} (i : Instr) (hs : s.env.sched = .reset :: ms) :
    OverByReset s ms (exec i s) := by
  cases i with
  | pmuInit =>
    simp only [exec, execPmuInit]
    exact runCommand_overByReset hs fun _ h => .bind (.prim h (pmuSettle_portsKept _))
  | pmuTransact =>
    simp only [exec, execPmuTransact]
    refine runCommand_overByReset hs fun _ h => ?_
    split
    · exact .bind (.prim h (pmuTx_portsKept ..))
    · exact .endCommand rfl rfl
  | pmuWriteSysctrl | pmuSetDac =>
    simp only [exec, execPmuWriteSysctrl, execPmuSetDac]
    refine runCommand_overByReset hs fun _ h => ?_
    split
    · exact .bind (.writeThenVerify h)
    · exact .endCommand rfl rfl
  | pmuWriteChctrl | pmuSetChstate | pmuSetMode | pmuSetRange =>
    simp only [exec, execPmuWriteChctrl, execPmuSetChstate, execPmuSetMode, execPmuSetRange]
    refine runCommand_overByReset hs fun _ h => ?_
    split
    · exact .bind (.updateCh h)
    · exact .endCommand rfl rfl
  | adcStart | adcStop | smuQueueFullUpdate =>
    simp only [exec, execAdcStart, execAdcStop, execSmuQueueFullUpdate]
    exact runCommand_overByReset hs fun _ _ => .endCommand rfl rfl
  | adcConfigCh | adcReadReg | ampWriteReg | ampReadReg =>
    simp only [exec, execAdcConfigCh, execAdcReadReg, execAmpWriteReg, execAmpReadReg]
    refine runCommand_overByReset hs fun _ h => ?_
    split
    · exact .bind (.xfer h)
    · exact .endCommand rfl rfl
  | adcWriteReg =>
    simp only [exec, execAdcWriteReg]
    refine runCommand_overByReset hs fun _ h => ?_
    split
    · split
      · exact .bind (.xfer h)
      · exact .endCommand rfl rfl
    · exact .endCommand rfl rfl
  | ampInit =>
    simp only [exec, execAmpInit]
    exact runCommand_overByReset hs fun _ h => .bind (.xfer h)
  | ampSetGain | ampSetSwitch | ampSetTestmux =>
    simp only [exec, execAmpSetGain, execAmpSetSwitch, execAmpSetTestmux]
    refine runCommand_overByReset hs fun _ h => ?_
    split
    · exact .bind (.writeVerifyAmp h)
    · exact .endCommand rfl rfl
  | smuSetValue =>
    simp only [exec, execSmuSetValue]
    refine runCommand_overByReset hs fun _ h => ?_
    split
    · split
      · exact .bind (.writeThenVerify h)
      · exact .endCommand rfl rfl
    · exact .endCommand rfl rfl
  | smuSetRange =>
    simp only [exec, execSmuSetRange]
    refine runCommand_overByReset hs fun _ h => ?_
    split
    · split
      · exact .endCommand rfl rfl
      · exact .bind (.switchRange h)
    · exact .endCommand rfl rfl
  | smuSetMode =>
    simp only [exec, execSmuSetMode]
    refine runCommand_overByReset hs fun _ h => ?_
    split
    · split
      · exact .endCommand rfl rfl
      · exact .bind (.pushMode h)
    · exact .endCommand rfl rfl
  | smuSetState =>
    simp only [exec, execSmuSetState]
    refine runCommand_overByReset hs fun _ h => ?_
    split
    · split
      · exact .endCommand rfl rfl
      · exact .bind (.updateCh h)
    · exact .endCommand rfl rfl
  | smuValueToCode | smuCodeToValue =>
    simp only [exec, execSmuValueToCode, execSmuCodeToValue]
    refine runCommand_overByReset hs fun _ _ => ?_
    split <;> exact .endCommand rfl rfl
  | smuPublishTick =>
    simp only [exec, execSmuPublishTick]
    refine runCommand_overByReset hs fun u _ => .endCommand ?_ (drain_results u)
    rw [drain_spec]
    rfl

/-- Settles O24: a command is over at its first primitive, or before it. -/
theorem resetEndsTheCommandWithNoResult : Obligations.ResetEndsTheCommandWithNoResult := by
  intro i s t ms hs ht
  obtain ⟨u, hu, hend⟩ := exec_overByReset i hs
  obtain rfl : t = u := by simpa [ht] using hu
  cases hend with
  | returned trace results => exact .inl ⟨trace, results⟩
  | cut block results pubOut sched => exact .inr ⟨block, results, pubOut, sched⟩

end Sys2Proof.Machine
end

section
/-! Proofs, family 70_reset_and_hazards.md (2): the raw commands (R466) are one transaction and a result; neither they nor the
agents that step inside them write the bookkeeping, unless a reset does. -/

namespace Sys2Proof.Machine

/-- What 70_reset_and_hazards.md R466 says a raw command does not update. -/
structure BookkeepingKept (s t : State) : Prop where
  pmu : t.pmu = s.pmu
  amp : t.amp = s.amp
  activeMask : t.adc.activeMask = s.adc.activeMask
  settings : SameSettings t.smu.ch s.smu.ch

theorem BookkeepingKept.refl (s : State) : BookkeepingKept s s := ⟨rfl, rfl, rfl, .refl _⟩

/-- The end of a raw command: the result and the sequencer are no bookkeeping. -/
theorem BookkeepingKept.endCommand (r : Result) (s : State) : BookkeepingKept s (endCommand r s) :=
  ⟨rfl, rfl, rfl, .refl _⟩

theorem BookkeepingKept.trans {s t u : State} (h : BookkeepingKept s t) (k : BookkeepingKept t u) : BookkeepingKept s u :=
  ⟨k.pmu.trans h.pmu, k.amp.trans h.amp, k.activeMask.trans h.activeMask, h.settings.trans k.settings⟩

theorem Worked.bookkeepingKept {s t : State} {l : List (List Byte)} (h : Worked s t l) (hp : t.pmu = s.pmu) :
    BookkeepingKept s t :=
  ⟨hp, h.amp, h.activeMask, h.settings⟩

/-! ### The two parts of a raw command -/

section
variable {s : State}

theorem BookkeepingKept.bind {f : Flow α} {g : α → State → Flow β} (hf : BookkeepingKept s f.state)
    (hg : ∀ a t, BookkeepingKept t (g a t).state) : BookkeepingKept s (f.bind g).state := by
  cases f with
  | go a t => exact hf.trans (hg a t)
  | ended t => exact hf

theorem BookkeepingKept.pmuTx {dir : Dir} {mask : BitVec 4} {mode : BitVec 2} {data : BitVec 22} (hs : s.cmd.op ≠ none)
    (hr : NoReset s) : BookkeepingKept s (prim (pmuTx dir mask mode data) s).state := by
  rcases prim_pmuTx_spec dir mask mode data s hs with ⟨r, t, h, hw, hp, -⟩ | ⟨t, -, hc⟩
  · rw [h]; exact hw.bookkeepingKept hp
  · exact (hr hc.scheduled).elim

theorem BookkeepingKept.xfer {dev : Dev} {out : List Byte} {nIn : Nat} (hd : dev ≠ .pmu) (hs : s.cmd.op ≠ none)
    (hr : NoReset s) : BookkeepingKept s (prim (withBus .cmd (spiXfer dev out nIn)) s).state := by
  rcases prim_xfer_spec dev hd out nIn s hs with ⟨r, t, h, hw, hp, -⟩ | ⟨t, -, hc⟩
  · rw [h]; exact hw.bookkeepingKept hp
  · exact (hr hc.scheduled).elim

/-- A transfer and the result made of its answer. -/
theorem BookkeepingKept.xferThenReturn {dev : Dev} {out : List Byte} {nIn : Nat} {f : List Byte → Value} (hd : dev ≠ .pmu)
    (hs : s.cmd.op ≠ none) (hr : NoReset s) :
    BookkeepingKept s ((prim (withBus .cmd (spiXfer dev out nIn)) s).bind (returnXfer f id)).state := by
  refine .bind (.xfer hd hs hr) fun r t => ?_
  cases r with
  | ok bs => exact .endCommand _ t
  | busError => exact .endCommand _ t

end

/-! ### The commands -/

/-- A command accepted in `s` ends with the bookkeeping as it was. -/
def EndsBookkeepingKept (s : State) (o : Host.Outcome State Fault Refusal) : Prop := ∃ t, o = .next t ∧ BookkeepingKept s t

theorem runCommand_bookkeepingKept {i : Instr} {body : State → Flow Unit} {s : State} (hr : NoReset s)
    (h : ∀ u, u.cmd.op ≠ none → NoReset u → BookkeepingKept u (body u).state) :
    EndsBookkeepingKept s (runCommand i body s) := by
  obtain ⟨pmu, amp, activeMask, settings⟩ := h (s.setCmd ⟨some i, 0⟩) (Option.some_ne_none i) hr
  exact ⟨_, rfl, pmu, amp, activeMask, settings⟩

/-- The raw commands, by the device they use; an illegal operand is a result and no transaction. -/
theorem exec_bookkeepingKept {i : Instr} {s : State} (hi : isRaw i = true) (hr : NoReset s) :
    EndsBookkeepingKept s (exec i s) := by
  cases i with
  | pmuTransact =>
    simp only [exec, execPmuTransact]
    refine runCommand_bookkeepingKept hr fun u hu hr => ?_
    split
    · refine .bind (.pmuTx hu hr) fun r t => ?_
      cases r with
      | ok w => exact .endCommand _ t
      | busError => exact .endCommand _ t
      | busy => exact .endCommand _ t
    · exact .endCommand _ u
  | adcWriteReg =>
    simp only [exec, execAdcWriteReg]
    refine runCommand_bookkeepingKept hr fun u hu hr => ?_
    split
    · split
      · exact .xferThenReturn (by decide) hu hr
      · exact .endCommand _ u
    · exact .endCommand _ u
  | adcReadReg | ampWriteReg | ampReadReg =>
    simp only [exec, execAdcReadReg, execAmpWriteReg, execAmpReadReg]
    refine runCommand_bookkeepingKept hr fun u hu hr => ?_
    split
    · exact .xferThenReturn (by decide) hu hr
    · exact .endCommand _ u
  | _ => cases hi

/-- Settles O35: the one transaction and the agents after it keep the bookkeeping, and so does the result. -/
theorem rawCommandsBypassTheBookkeeping : Obligations.RawCommandsBypassTheBookkeeping := by
  intro i s t hi hr ht
  obtain ⟨u, hu, pmu, amp, activeMask, settings⟩ := exec_bookkeepingKept hi hr
  obtain rfl : t = u := by simpa [ht] using hu
  exact ⟨pmu, amp, activeMask, settings⟩

end Sys2Proof.Machine
end

section
/-! Proofs, the other statements: the command words of 95_test_vectors.md, read back from their encodings. -/

namespace Sys2Proof.Machine

/-- A word that is some command's encoding decodes to that command: the round trip, read from the word's side. -/
theorem decode_of_encode_eq {i : Instr} {w : CmdWord} (h : encode i = w) : decode w = .ok i :=
  h ▸ decodeOfEncodeIsTheCommand i

/-- Settles O4: each word is the packed word of its command, 30_encoding.md R114. -/
theorem specWordsDecode : Obligations.SpecWordsDecode := by
  refine ⟨decode_of_encode_eq ?pmuSetDac, decode_of_encode_eq ?adcConfigCh, decode_of_encode_eq ?ampSetGain,
    decode_of_encode_eq ?smuCodeToValue, decode_of_encode_eq ?smuSetValue⟩ <;> decide

end Sys2Proof.Machine
end
